-- ==== Sys2Proof/Word.lean ====
section
/-! DEFINITION. The words of the block: bytes of host memory, 32-bit registers and addresses, 29-bit lengths, the 64-bit DCA window. -/

namespace Sys2Proof

/-- A byte of host memory (20_memory.md R74). -/
abbrev Byte := BitVec 8

/-- A register, a host address (`ADDR_W`) or a bit position (`POS_W`): 32 bits (00_scope.md R7, 10_state.md R23). -/
abbrev Word := BitVec 32

/-- A length, capacity or cursor register: `LEN_W` = 29 bits (00_scope.md R7, 10_state.md R46). -/
abbrev Length := BitVec 29

/-- The sliding window of the DCA scanner (10_state.md R40). -/
abbrev Window := BitVec 64

end Sys2Proof
end

