-- ==== Sys2Proof/Config.lean ====
section
/-! DEFINITION. What the spec leaves without a value: the free bytes. The parameters of 00_scope.md R7 are plain data of
`State.platform`, so that a claim about every state holds for every platform. -/

namespace Sys2Proof

/-- The free bytes: the byte that stands where the spec says a byte of host memory is unspecified (93_implementation_defined.md U1 and
U2, "any value, per byte"). It has no body, so nothing can be proved about its values. The argument is a plain counter
(`State.freeCount`), so no two uses share a value by construction. DESIGN CHOICE, log entry 6 (safe). -/
opaque Config.freeByte : Nat → Byte

end Sys2Proof
end

