-- ==== Sys2Proof/Machine/Params.lean ====
section
/-! DEFINITION. The parameters of 00_scope.md R7 that a model takes as arguments and that have a default (92_eei_decisions.md "Open
parameters", 93_implementation_defined.md U15, U16), as plain data, and `Params.spec`, the values of R7. Log entry 16. -/

namespace Sys2Proof.Machine

/-- The marker families (46_dca_scanner.md R281). -/
inductive Family where
  | coreBe
  | coreLe
  | core14Be
  | core14Le
  | exss
  deriving DecidableEq, Repr

/-- One value for each family. -/
structure PerFamily (α : Type) where
  coreBe   : α
  coreLe   : α
  core14Be : α
  core14Le : α
  exss     : α
  deriving DecidableEq, Repr

/-- The value for a family. -/
def PerFamily.get {α : Type} (t : PerFamily α) : Family → α
  | .coreBe => t.coreBe
  | .coreLe => t.coreLe
  | .core14Be => t.core14Be
  | .core14Le => t.core14Le
  | .exss => t.exss

/-- A number for every natural number: the listed ones, and `other` for the rest. -/
structure NatTable where
  listed : List (Nat × Nat)
  other  : Nat
  deriving DecidableEq, Repr

/-- The number for an argument. -/
def NatTable.get (t : NatTable) (n : Nat) : Nat := (t.listed.lookup n).getD t.other

/-- `DCA_PAT[f]`: (mask, value), 48 bits each (00_scope.md R7, 46_dca_scanner.md R282). -/
structure SyncPattern where
  mask  : BitVec 48
  value : BitVec 48
  deriving DecidableEq, Repr

/-- `CORE14_SCALE` = num / den, truncated (46_dca_scanner.md R284). -/
structure Scale where
  num : Nat
  den : Nat
  deriving DecidableEq, Repr

/-- A frame-size function of the window, as an expression in the operators of 46_dca_scanner.md R284. With `ifBit` and `lit` any
function of the 64 bits can be written. -/
inductive SizeExpr where
  /-- WIN. -/
  | win
  | lit (n : Nat)
  | and (a b : SizeExpr)
  | or (a b : SizeExpr)
  | shl (a : SizeExpr) (n : Nat)
  | shr (a : SizeExpr) (n : Nat)
  | add (a b : SizeExpr)
  /-- `CORE14_SCALE` applied to a size. -/
  | scale14 (a : SizeExpr)
  /-- `if x[i] = 1: a else: b`, x the window. -/
  | ifBit (i : Nat) (a b : SizeExpr)
  deriving DecidableEq, Repr

/-- The value of a size expression at the window w, on mathematical integers (00_scope.md R9). -/
def SizeExpr.eval (scale : Scale) (w : Nat) : SizeExpr → Nat
  | .win => w
  | .lit n => n
  | .and a b => a.eval scale w &&& b.eval scale w
  | .or a b => a.eval scale w ||| b.eval scale w
  | .shl a n => a.eval scale w <<< n
  | .shr a n => a.eval scale w >>> n
  | .add a b => a.eval scale w + b.eval scale w
  | .scale14 a => a.eval scale w * scale.num / scale.den
  | .ifBit i a b => if w.testBit i then a.eval scale w else b.eval scale w

/-- `DCA_SIZE[f]`: the count at which the size is known, and the size function (92_eei_decisions.md D34: "SIZE_AT 2, 2, 4, 4, 6, and the
functions of rule R284"). -/
structure SizeRule where
  sizeAt : Nat
  size   : SizeExpr
  deriving DecidableEq, Repr

/-- The parameters with a default (00_scope.md R7). No step changes them. -/
structure Params where
  /-- `HIGH_PROFILE`: inclusive ranges of profile values. -/
  highProfiles  : List (Nat × Nat)
  /-- `SL_COUNT`, by chroma_format_idc. -/
  slCount       : NatTable
  /-- `SL_SIZE`, by the number of the list. -/
  slSize        : NatTable
  /-- `DCA_PAT`. -/
  dcaPat        : PerFamily SyncPattern
  /-- `DCA_SIZE`. -/
  dcaSize       : PerFamily SizeRule
  /-- `EXSS_AFTER_CORE`: core families. -/
  exssAfterCore : List Family
  /-- `CORE14_SCALE`. -/
  core14Scale   : Scale
  deriving DecidableEq, Repr

/-! ### The values of R7 -/

/-- `CoreSize(x)` (46_dca_scanner.md R284). -/
def coreSize (x : SizeExpr) : SizeExpr := .add (.and (.shr x 4) (.lit 0x3FFF)) (.lit 1)

/-- `SwapLE(x)` (46_dca_scanner.md R284). -/
def swapLe (x : SizeExpr) : SizeExpr :=
  .or (.shr (.and x (.lit 0xFF00FF00)) 8) (.shl (.and x (.lit 0x00FF00FF)) 8)

/-- `Pack14(x)` (46_dca_scanner.md R284). -/
def pack14 (x : SizeExpr) : SizeExpr := .or (.shr (.and x (.lit 0x3FFF0000)) 8) (.shr (.and x (.lit 0x3FFF)) 6)

/-- `ExssSize(WIN)` (46_dca_scanner.md R284). -/
def exssSize : SizeExpr :=
  .ifBit 37 (.add (.and (.shr .win 5) (.lit 0xFFFFF)) (.lit 1)) (.add (.and (.shr .win 13) (.lit 0xFFFF)) (.lit 1))

/-- The sync patterns of 46_dca_scanner.md R282. -/
def specPatterns : PerFamily SyncPattern where
  coreBe   := ⟨0xFFFFFFFFFC00, 0x7FFE8001FC00⟩
  coreLe   := ⟨0xFFFFFFFF00FC, 0xFE7F018000FC⟩
  core14Be := ⟨0xFFFFFFFFFFF0, 0x1FFFE80007F0⟩
  core14Le := ⟨0xFFFFFFFFF0FF, 0xFF1F00E8F007⟩
  exss     := ⟨0x0000FFFFFFFF, 0x000064582025⟩

/-- The size positions and functions of 46_dca_scanner.md R283, R284. -/
def specSizes : PerFamily SizeRule where
  coreBe   := ⟨2, coreSize .win⟩
  coreLe   := ⟨2, coreSize (swapLe .win)⟩
  core14Be := ⟨4, .scale14 (coreSize (pack14 .win))⟩
  core14Le := ⟨4, .scale14 (coreSize (pack14 (swapLe .win)))⟩
  exss     := ⟨6, exssSize⟩

/-- The parameters at the values of 00_scope.md R7: profiles from 100 up, 8 scaling lists, 16 entries in lists 0 to 5 and 64 in the
others, the constants of R282 to R284, all four core families, 8 / 7. -/
def Params.spec : Params where
  highProfiles  := [(100, 255)]
  slCount       := ⟨[], 8⟩
  slSize        := ⟨[(0, 16), (1, 16), (2, 16), (3, 16), (4, 16), (5, 16)], 64⟩
  dcaPat        := specPatterns
  dcaSize       := specSizes
  exssAfterCore := [.coreBe, .coreLe, .core14Be, .core14Le]
  core14Scale   := ⟨8, 7⟩

end Sys2Proof.Machine
end

