-- ==== Sys2Proof/Syntax.lean ====
section
/-! DEFINITION. The commands of the block: one constructor per row of spec/opcode_table.json (30_encoding.md R103). -/

namespace Sys2Proof

/-- A command (30_encoding.md R103). `n` is the bit count of field N, `f` the complete-frames flag of field F (R102). -/
inductive Instr where
  /-- 0x01 RD_BITS: read `n` bits (41_bitreader.md R152). -/
  | rdBits (n : Nat)
  /-- 0x02 RD_BIT: read one bit (R153). -/
  | rdBit
  /-- 0x03 RD_UE: read an unsigned Exp-Golomb code (R155). -/
  | rdUe
  /-- 0x04 RD_SE: read a signed Exp-Golomb code (R157). -/
  | rdSe
  /-- 0x11 WR_BITS: write the `n` low bits of ARG0 (42_bitwriter.md R173). -/
  | wrBits (n : Nat)
  /-- 0x12 WR_BIT: write one bit (R174). -/
  | wrBit
  /-- 0x13 WR_UE: write an unsigned Exp-Golomb code (R177). -/
  | wrUe
  /-- 0x14 WR_SE: write a signed Exp-Golomb code (R178). -/
  | wrSe
  /-- 0x15 WR_ALIGN_FLUSH: pad to a byte boundary and report the bytes written (R179). -/
  | wrAlignFlush
  /-- 0x21 NAL_UNESCAPE: remove emulation-prevention bytes (43_nal_codec.md R191). -/
  | nalUnescape
  /-- 0x22 NAL_ESCAPE: insert emulation-prevention bytes (R194). -/
  | nalEscape
  /-- 0x31 NAL_LOCATE_AB: find the next Annex-B start code (44_nal_locator.md R211). -/
  | nalLocateAb
  /-- 0x32 NAL_LOCATE_LP: read the next length-prefixed unit (R215). -/
  | nalLocateLp
  /-- 0x41 SPS_REWRITE: rewrite a sequence parameter set (45_sps_rewriter.md R235). -/
  | spsRewrite
  /-- 0x51 DCA_SCAN: scan for the next frame boundary (46_dca_scanner.md R291). -/
  | dcaScan (f : Bool)
  /-- 0x52 DCA_RESET: start a new stream (R297). -/
  | dcaReset
  deriving DecidableEq, Repr

end Sys2Proof
end

