-- ==== Sys2Proof/Machine/State.lean ====
section
/-! DEFINITION. The state of the machine: the block's registers and pending command (10_state.md R24, R49), host memory, the platform's
parameters, and the host's remaining program. All of it is plain data. -/

namespace Sys2Proof.Machine

/-- Completion codes (60_exceptions.md R320). Codes 8 to 255 are never produced, so they have no constructor. -/
inductive Code where
  /-- 0 OK. -/
  | ok
  /-- 1 OUT_OF_RANGE. -/
  | outOfRange
  /-- 2 MALFORMED_SPS. -/
  | malformedSps
  /-- 3 MALFORMED_FRAME_HEADER: reserved, no command raises it (R324). -/
  | malformedFrameHeader
  /-- 4 UNSUPPORTED_CONFIGURATION. -/
  | unsupportedConfiguration
  /-- 5 NOT_YET_COMPLETE. -/
  | notYetComplete
  /-- 6 ILLEGAL_COMMAND. -/
  | illegalCommand
  /-- 7 NONE: the locator found no further unit. -/
  | noneFound
  deriving DecidableEq, Repr

/-- STATUS (10_state.md R28). -/
structure Status where
  busy : Bool
  err  : Bool
  code : Code
  deriving DecidableEq, Repr

/-- SPS_OVR (10_state.md R37). -/
structure SpsOvr where
  levelSet : Bool
  fpsSet   : Bool
  ffrSet   : Bool
  ffrValue : Bool
  level    : Byte
  deriving DecidableEq, Repr

/-- The DCA scanner's carry-over state (10_state.md R40 to R45): the seven DCA registers, DCA_WIN_HI ‖ DCA_WIN_LO held as one window. -/
structure Dca where
  win   : Window
  phase : BitVec 3
  lock  : BitVec 3
  count : Word
  fsize : Word
  start : Word
  deriving DecidableEq, Repr

/-- The register block (10_state.md R24). ID is a constant, CTRL and the reserved offsets hold nothing. -/
structure Regs where
  cmd          : Word
  status       : Status
  arg0         : Word
  res0         : Word
  res1         : Word
  res2         : Word
  brBase       : Word
  brLen        : Length
  brPos        : Word
  bwBase       : Word
  bwCap        : Length
  bwPos        : Word
  bwAcc        : Byte
  srcBase      : Word
  srcLen       : Length
  dstBase      : Word
  dstCap       : Length
  locCursor    : Length
  spsOvr       : SpsOvr
  spsFpsNum    : Word
  spsFpsDen    : Word
  profileAllow : Vector Word 8
  dca          : Dca
  deriving DecidableEq, Repr

/-- The engine (40_command_protocol.md R130, R131; 20_memory.md R78). -/
inductive Engine where
  /-- No command is pending. -/
  | idle
  /-- A launched command waits for its step (10_state.md R49). -/
  | pending (w : Word)
  /-- The command met an address that is not admitted: no further step until a reset (60_exceptions.md R334). -/
  | stuck (w : Word)
  deriving DecidableEq, Repr

/-- A range of host addresses the engine may not access. -/
structure Hole where
  base : Nat
  size : Nat
  deriving DecidableEq, Repr

/-- The parameters of 00_scope.md R7: `MMIO_BASE`, `MEM_ADMIT` as the list of the ranges where it is false (any set of the 2^32
addresses is such a list), and those with a default. No step changes them. DESIGN CHOICE, log entries 3, 4 and 16. -/
structure Platform where
  mmioBase : Word
  holes    : List Hole
  params   : Params
  deriving DecidableEq, Repr

/-- What the host, or the platform around the block, does (30_encoding.md R108, 70_reset_and_hazards.md R350, R368). -/
inductive HostAction where
  /-- SET: a bus write of `width` bytes at a host address. -/
  | regWrite (addr : Word) (width : Nat) (value : Word)
  /-- GET: a bus read of `width` bytes at a host address. -/
  | regRead (addr : Word) (width : Nat)
  /-- POKE: host writes of bytes to host memory. -/
  | poke (addr : Word) (bytes : List Byte)
  /-- PEEK: host reads of `n` bytes of host memory. -/
  | peek (addr : Word) (n : Nat)
  /-- Hardware reset, from the platform (R350). -/
  | hardwareReset
  deriving DecidableEq, Repr

/-- One move of a run: the host acts, the engine takes its turn (R131: the step may come at any point after the launch), or the host
waits until STATUS.BUSY = 0 (30_encoding.md R108 `WAIT`). -/
inductive Move where
  | host (a : HostAction)
  | engine
  | wait
  deriving DecidableEq, Repr

/-- Host memory: address and byte pairs in one canonical form, `Memory.wf` (20_memory.md R70). -/
abbrev Memory := List Host.Cell

/-- The machine. `regs` and `engine` are the block's state (10_state.md R49); `mem` is host memory; `refusedMark` is the mark of
20_memory.md R77; `platform`, `program`, `observed` and `freeCount` are the model's own (log entries 1, 3, 4, 6, 10, 16). -/
structure State where
  regs        : Regs
  engine      : Engine
  mem         : Memory
  platform    : Platform
  program     : List Move
  observed    : List Word
  refusedMark : Bool
  freeCount   : Nat
  deriving DecidableEq, Repr

/-- The machine stops. The block itself has no traps (60_exceptions.md R330): both reasons are moves the host does not have. -/
inductive Fault where
  /-- Raised by a host POKE or PEEK of a byte in a range of the command in progress while BUSY = 1: "A model gives the host no such
  move" (70_reset_and_hazards.md R362). Safe: the machine stops where hardware would go on with unspecified values. -/
  | bufferRace
  /-- Raised by a host POKE or PEEK that runs past the last address, 2^32 − 1: host memory has 32-bit addresses (20_memory.md R70).
  Safe: there is no such byte. -/
  | outsideAddressSpace
  deriving DecidableEq, Repr

/-- No meaning for an instruction. -/
inductive Refusal where
  /-- Raised by an arm of the dispatcher whose instruction has no meaning yet. No arm of this model does. Safe: the machine stops. -/
  | notModelled (mnemonic : String)
  deriving DecidableEq, Repr

/-- The DCA registers after reset, and after DCA_RESET (46_dca_scanner.md R297). -/
def Dca.reset : Dca := ⟨0, 0, 0, 0, 0, 0⟩

/-- SPS_OVR after reset: every override unset (70_reset_and_hazards.md R353). -/
def SpsOvr.reset : SpsOvr := ⟨false, false, false, false, 0⟩

/-- The registers after hardware reset or soft reset (10_state.md R24, 70_reset_and_hazards.md R350, R351). -/
def Regs.reset : Regs where
  cmd          := 0x00000000
  status       := ⟨false, false, .ok⟩
  arg0         := 0
  res0         := 0
  res1         := 0
  res2         := 0
  brBase       := 0
  brLen        := 0
  brPos        := 0
  bwBase       := 0
  bwCap        := 0
  bwPos        := 0
  bwAcc        := 0
  srcBase      := 0
  srcLen       := 0
  dstBase      := 0
  dstCap       := 0
  locCursor    := 0
  spsOvr       := SpsOvr.reset
  spsFpsNum    := 0
  spsFpsDen    := 0
  profileAllow := Vector.replicate 8 0xFFFFFFFF
  dca          := Dca.reset

/-- The machine right after hardware reset: the block as R350 says, nothing listed in memory, the parameters at the values of
00_scope.md R7, and what R7 leaves open and the program as the model chooses (log entries 1, 3, 4, 5, 6, 9, 10, 16). -/
def State.reset : State where
  regs        := Regs.reset
  engine      := .idle
  mem         := []
  platform    := ⟨0, [], Params.spec⟩
  program     := []
  observed    := []
  refusedMark := false
  freeCount   := 0

end Sys2Proof.Machine
end

