-- ==== Sys2Proof/Machine/Ops.lean ====
section
/-! DEFINITION. The shared operations: bytes of host memory, the bit cursor of 00_scope.md R11, how a command ends
(40_command_protocol.md R135, R136), unspecified bytes, and the launch of a command. -/

namespace Sys2Proof.Machine

/-! ### Bytes of host memory -/

/-- What an unlisted address of host memory reads as. The spec gives host memory no contents; DESIGN CHOICE, log entry 5. -/
def unlistedByte : Byte := 0

/-- The number of host addresses (20_memory.md R70: addresses of 32 bits). -/
def addressSpace : Nat := 4294967296

/-- `MemRead(a, 1)` (20_memory.md R74). -/
def Memory.read : Memory → Nat → Byte
  | [], _ => unlistedByte
  | (k, v) :: m, a => if k = a then v else Memory.read m a

/-- Puts a byte at its place in the sorted list; writing what an unlisted address reads as removes the entry. -/
def Memory.put : Memory → Nat → Byte → Memory
  | [], a, v => if v = unlistedByte then [] else [(a, v)]
  | (k, w) :: m, a, v =>
    if a < k then (if v = unlistedByte then (k, w) :: m else (a, v) :: (k, w) :: m)
    else if a = k then (if v = unlistedByte then m else (a, v) :: m)
    else (k, w) :: Memory.put m a v

/-- `MemWrite(a, 1, v)` (20_memory.md R74). An address past the 32-bit space has no byte, so a write there changes nothing; no command
makes one (R72). -/
def Memory.write (m : Memory) (a : Nat) (v : Byte) : Memory :=
  if a < addressSpace then Memory.put m a v else m

/-- The canonical form above an address: keys strictly rising, inside the address space, no entry equal to what an unlisted address
reads as. -/
def Memory.wfFrom : Nat → Memory → Bool
  | _, [] => true
  | lo, (k, v) :: m => decide (lo ≤ k) && decide (k < addressSpace) && decide (v ≠ unlistedByte) && Memory.wfFrom (k + 1) m

/-- The canonical form of host memory. -/
def Memory.wf (m : Memory) : Bool := Memory.wfFrom 0 m

/-- The bytes of a list written from an address on. -/
def Memory.writeList (m : Memory) (a : Nat) : List Byte → Memory
  | [] => m
  | b :: bs => Memory.writeList (m.write a b) (a + 1) bs

/-- The `n` bytes from an address on. -/
def Memory.readList (m : Memory) (a : Nat) : Nat → List Byte
  | 0 => []
  | n + 1 => m.read a :: Memory.readList m (a + 1) n

/-! ### Engine accesses -/

/-- How a command ends early: `raise CODE` (00_scope.md R10), or at an address that is not admitted (20_memory.md R78). -/
inductive Halt where
  | raise (c : Code)
  | stuck
  deriving DecidableEq, Repr

/-- A piece of a command's rule. -/
abbrev Cmd (α : Type) := Except Halt α

/-- `if ¬ b: raise c`. -/
def require (b : Bool) (c : Code) : Cmd Unit := if b then .ok () else .error (.raise c)

/-- `MEM_ADMIT(a)` (20_memory.md R78). -/
def admits (p : Platform) (a : Nat) : Bool := p.holes.all fun h => decide (a < h.base) || decide (h.base + h.size ≤ a)

/-- An engine read of one byte (20_memory.md R74, R78). -/
def fetchByte (p : Platform) (m : Memory) (a : Nat) : Cmd Byte := if admits p a then .ok (m.read a) else .error .stuck

/-- An engine write of one byte (20_memory.md R74, R78). -/
def storeByte (p : Platform) (m : Memory) (a : Nat) (v : Byte) : Cmd Memory :=
  if admits p a then .ok (m.write a v) else .error .stuck

/-! ### The bit cursor -/

/-- `Bit(base, p)` (00_scope.md R11): stream bit p is bit 7 − (p mod 8) of byte p div 8 (R8). -/
def bitAt (m : Memory) (base p : Nat) : Bool := (m.read (base + p / 8)).getLsbD (7 - p % 8)

/-- `Bits(base, p, n)` (00_scope.md R11): n stream bits as an unsigned number, the first most significant. -/
def bitsAt (m : Memory) (base p : Nat) : Nat → Nat
  | 0 => 0
  | n + 1 => 2 * bitsAt m base p n + (bitAt m base (p + n)).toNat

/-- Every byte that holds one of the n stream bits from p on is admitted. -/
def admitsBits (pl : Platform) (base p : Nat) : Nat → Bool
  | 0 => true
  | n + 1 => admitsBits pl base p n && admits pl (base + (p + n) / 8)

/-- The engine reads one stream bit. -/
def readBit (pl : Platform) (m : Memory) (base p : Nat) : Cmd Bool :=
  if admits pl (base + p / 8) then .ok (bitAt m base p) else .error .stuck

/-- The engine reads n stream bits. -/
def readBits (pl : Platform) (m : Memory) (base p n : Nat) : Cmd Nat :=
  if admitsBits pl base p n then .ok (bitsAt m base p n) else .error .stuck

/-! ### The end of a command -/

/-- A code is an error: `ERR` is 1 for codes 1, 2, 3, 4 and 6 (10_state.md R28, 60_exceptions.md R320). -/
def codeIsError : Code → Bool
  | .ok => false
  | .outOfRange => true
  | .malformedSps => true
  | .malformedFrameHeader => true
  | .unsupportedConfiguration => true
  | .notYetComplete => false
  | .illegalCommand => true
  | .noneFound => false

/-- The commit (40_command_protocol.md R135, R136): the given registers and memory, STATUS set, no command pending. -/
def commit (s : State) (r : Regs) (m : Memory) (c : Code) : State :=
  { s with regs := { r with status := ⟨false, codeIsError c, c⟩ }, mem := m, engine := .idle }

/-- The failure commit, THE one shared operation for every error the block reports: no register but STATUS changes
(40_command_protocol.md R136, 60_exceptions.md R330). The block has no trap entry and no trap return (R330, R331). -/
def failWith (s : State) (c : Code) : State := commit s s.regs s.mem c

/-- The engine is stuck: STATUS.BUSY stays 1 and nothing is committed (20_memory.md R78, 60_exceptions.md R334). The word of the
command stays in CMD (10_state.md R27). DEDUCED that memory shows none of the command's bytes, log entry 7. -/
def stick (s : State) : State := { s with engine := .stuck s.regs.cmd }

/-- Writes free bytes to the n addresses from `a` on, taking the free bytes from index `c` on. -/
def scramble : Memory → Nat → Nat → Nat → Memory
  | m, _, _, 0 => m
  | m, a, c, n + 1 => scramble (m.write a (Config.freeByte c)) (a + 1) (c + 1) n

/-- The bytes of [a, a + n) become unspecified (93_implementation_defined.md U1, U2): each takes a free byte. -/
def unspecify (s : State) (a n : Nat) : State :=
  { s with mem := scramble s.mem a s.freeCount n, freeCount := s.freeCount + n }

/-- What a command's rule gives when it reaches `finish CODE`: its register assignments, memory, and the code. -/
structure Done where
  regs : Regs
  mem  : Memory
  code : Code
  deriving DecidableEq, Repr

/-- The end of a command that leaves memory alone when it fails (40_command_protocol.md R136: reader, writer, locator and DCA
commands). -/
def conclude (s : State) (r : Cmd Done) : Host.Outcome State Fault Refusal :=
  match r with
  | .ok d => .next (commit s d.regs d.mem d.code)
  | .error (.raise c) => .next (failWith s c)
  | .error .stuck => .next (stick s)

/-- The end of NAL_UNESCAPE, NAL_ESCAPE and SPS_REWRITE: after a failure every byte of [DST_BASE, DST_BASE + DST_CAP) is unspecified
(40_command_protocol.md R136). -/
def concludeDst (s : State) (r : Cmd Done) : Host.Outcome State Fault Refusal :=
  match r with
  | .ok d => .next (commit s d.regs d.mem d.code)
  | .error (.raise c) => .next (failWith (unspecify s s.regs.dstBase.toNat s.regs.dstCap.toNat) c)
  | .error .stuck => .next (stick s)

/-- The step of a word that is no command: ILLEGAL_COMMAND, nothing but STATUS changes (30_encoding.md R104). -/
def execIllegal (s : State) : Host.Outcome State Fault Refusal := .next (failWith s .illegalCommand)

/-! ### Launch and fetch -/

/-- Launch (40_command_protocol.md R130): CMD and the pending command take the word, BUSY becomes 1, ERR and CODE stay. -/
def launch (s : State) (w : Word) : State :=
  { s with regs := { s.regs with cmd := w, status := { s.regs.status with busy := true } }, engine := .pending w }

/-- The word the engine's next step runs, if it has one: an idle or a stuck engine takes no step (40_command_protocol.md R131,
60_exceptions.md R334). -/
def pendingWord : Engine → Option Word
  | .idle => none
  | .pending w => some w
  | .stuck _ => none

/-- The word the host's launch left in the engine, also when it is stuck: the command in progress while BUSY = 1. -/
def wordInProgress : Engine → Option Word
  | .idle => none
  | .pending w => some w
  | .stuck w => some w

end Sys2Proof.Machine
end

