-- ==== Sys2Proof/WellFormed.lean ====
section
/-! DEFINITION. Which terms of `Instr` are commands the block has: the bit count of RD_BITS and WR_BITS is 0 to 32. -/

namespace Sys2Proof

/-- A legal command: N ≤ 32 for RD_BITS and WR_BITS (30_encoding.md R102, R104 (d)); the other commands take no operand that could be
out of range. -/
def Instr.wellFormed : Instr → Bool
  | .rdBits n => decide (n ≤ 32)
  | .wrBits n => decide (n ≤ 32)
  | .rdBit => true
  | .rdUe => true
  | .rdSe => true
  | .wrBit => true
  | .wrUe => true
  | .wrSe => true
  | .wrAlignFlush => true
  | .nalUnescape => true
  | .nalEscape => true
  | .nalLocateAb => true
  | .nalLocateLp => true
  | .spsRewrite => true
  | .dcaScan _ => true
  | .dcaReset => true

end Sys2Proof
end

