-- ==== Sys2Proof/Machine/Operands.lean ====
section
/-! DEFINITION. The operands of the commands: their buffer ranges (20_memory.md R71, R72, R82), the common checks
(40_command_protocol.md R134), the register numbers as naturals, and the values the spec reads them as. -/

namespace Sys2Proof.Machine

/-- A byte range [base, base + len) of host memory (20_memory.md R71). -/
structure Range where
  base : Nat
  len  : Nat
  deriving DecidableEq, Repr

/-- `b + n ≤ 2^32`, without wrap-around (20_memory.md R72). -/
def Range.wellFormed (r : Range) : Bool := decide (r.base + r.len ≤ addressSpace)

/-- The byte at an address is in the range. -/
def Range.holds (r : Range) (a : Nat) : Bool := decide (r.base ≤ a) && decide (a < r.base + r.len)

/-- Two ranges, neither empty, share a byte (20_memory.md R82). -/
def Range.overlaps (r q : Range) : Bool :=
  decide (0 < r.len) && decide (0 < q.len) && decide (r.base < q.base + q.len) && decide (q.base < r.base + r.len)

/-- [BR_BASE, BR_BASE + BR_LEN). -/
def readerRange (r : Regs) : Range := ⟨r.brBase.toNat, r.brLen.toNat⟩

/-- [BW_BASE, BW_BASE + BW_CAP). -/
def writerRange (r : Regs) : Range := ⟨r.bwBase.toNat, r.bwCap.toNat⟩

/-- [SRC_BASE, SRC_BASE + SRC_LEN). -/
def sourceRange (r : Regs) : Range := ⟨r.srcBase.toNat, r.srcLen.toNat⟩

/-- [DST_BASE, DST_BASE + DST_CAP). -/
def destRange (r : Regs) : Range := ⟨r.dstBase.toNat, r.dstCap.toNat⟩

/-- The range a command may read (20_memory.md R71). -/
def readRange (r : Regs) : Instr → Option Range
  | .rdBits _ => some (readerRange r)
  | .rdBit => some (readerRange r)
  | .rdUe => some (readerRange r)
  | .rdSe => some (readerRange r)
  | .wrBits _ => none
  | .wrBit => none
  | .wrUe => none
  | .wrSe => none
  | .wrAlignFlush => none
  | .nalUnescape => some (sourceRange r)
  | .nalEscape => some (sourceRange r)
  | .nalLocateAb => some (sourceRange r)
  | .nalLocateLp => some (sourceRange r)
  | .spsRewrite => some (sourceRange r)
  | .dcaScan _ => some (sourceRange r)
  | .dcaReset => none

/-- The range a command may write (20_memory.md R71). -/
def writeRange (r : Regs) : Instr → Option Range
  | .rdBits _ => none
  | .rdBit => none
  | .rdUe => none
  | .rdSe => none
  | .wrBits _ => some (writerRange r)
  | .wrBit => some (writerRange r)
  | .wrUe => some (writerRange r)
  | .wrSe => some (writerRange r)
  | .wrAlignFlush => some (writerRange r)
  | .nalUnescape => some (destRange r)
  | .nalEscape => some (destRange r)
  | .nalLocateAb => none
  | .nalLocateLp => none
  | .spsRewrite => some (destRange r)
  | .dcaScan _ => none
  | .dcaReset => none

/-- A range that is absent is no obstacle. -/
def rangeOk : Option Range → Bool
  | none => true
  | some r => r.wellFormed

/-- Source and destination, where a command has both, do not overlap (20_memory.md R82: only NAL_UNESCAPE, NAL_ESCAPE and SPS_REWRITE
have both). -/
def disjointRanges : Option Range → Option Range → Bool
  | some r, some q => !r.overlaps q
  | _, _ => true

/-- The common checks (40_command_protocol.md R134). -/
def rangesOk (r : Regs) (i : Instr) : Bool :=
  rangeOk (readRange r i) && rangeOk (writeRange r i) && disjointRanges (readRange r i) (writeRange r i)

/-- Decode's last check and the common checks, and then the command's own rule (40_command_protocol.md R132 check 4, R134). Every word
the decoder accepts passes the first; log entry 15. -/
def guarded (i : Instr) (s : State) (body : Host.Outcome State Fault Refusal) : Host.Outcome State Fault Refusal :=
  if i.wellFormed && rangesOk s.regs i then body else .next (failWith s .illegalCommand)

/-- The byte at an address belongs to a range of the command (20_memory.md R71). -/
def touches (r : Regs) (i : Instr) (a : Nat) : Bool :=
  (match readRange r i with | some q => q.holds a | none => false) ||
  (match writeRange r i with | some q => q.holds a | none => false)

/-- `8 · BR_LEN` (10_state.md R32). -/
def readerLimit (r : Regs) : Nat := 8 * r.brLen.toNat

/-- `8 · BW_CAP` (10_state.md R33). -/
def writerLimit (r : Regs) : Nat := 8 * r.bwCap.toNat

/-- Bit i of a list of bits, most significant first: the n low bits of v in stream order (42_bitwriter.md R173). -/
def bitsMsb : Nat → Nat → List Bool
  | 0, _ => []
  | n + 1, v => v.testBit n :: bitsMsb n v

/-- The bits of the unsigned Exp-Golomb code of code number c: k zeros, then the k + 1 bits of c + 1, with k = floor(log2(c + 1))
(42_bitwriter.md R176, R177). -/
def ueBits (c : Nat) : List Bool :=
  List.replicate (Nat.log2 (c + 1)) false ++ bitsMsb (Nat.log2 (c + 1) + 1) (c + 1)

/-- The signed value of code number c (41_bitreader.md R157, 90_conflicts.md C2). -/
def seValue (c : Nat) : Int := if c % 2 = 1 then ((c + 1) / 2 : Nat) else -((c / 2 : Nat) : Int)

/-- The code number of a signed value (42_bitwriter.md R178). -/
def seCode (v : Int) : Nat := if 0 < v then (2 * v - 1).toNat else (-2 * v).toNat

end Sys2Proof.Machine
end

