-- ==== Sys2Proof/Machine/BitReader.lean ====
section
/-! DEFINITION. The BitReader commands: RD_BITS, RD_BIT, RD_UE, RD_SE (41_bitreader.md). -/

namespace Sys2Proof.Machine

/-- A fixed-width read at a cursor (41_bitreader.md R151, R152). -/
def readFixed (pl : Platform) (m : Memory) (base limit pos n : Nat) : Cmd Nat := do
  require (decide (pos ≤ limit)) .outOfRange
  require (decide (n ≤ limit - pos)) .outOfRange
  readBits pl m base pos n

/-- The zero run of an Exp-Golomb code (41_bitreader.md R155): the number of zero bits before the first one bit, counting on from `k`
and reading at most `fuel` bits. "The loop reads at most 32 bits before it stops"; log entry 13. -/
def zeroRun (pl : Platform) (m : Memory) (base limit pos : Nat) : Nat → Nat → Cmd Nat
  | 0, k => .ok k
  | fuel + 1, k => do
    require (decide (pos + k < limit)) .outOfRange
    let b ← readBit pl m base (pos + k)
    if b then .ok k else zeroRun pl m base limit pos fuel (k + 1)

/-- An unsigned Exp-Golomb read at a cursor: the code number and the position after the code (41_bitreader.md R155, R156). -/
def readUe (pl : Platform) (m : Memory) (base limit pos : Nat) : Cmd (Nat × Nat) := do
  require (decide (pos ≤ limit)) .outOfRange
  let k ← zeroRun pl m base limit pos 32 0
  require (decide (k < 32)) .outOfRange
  require (decide (pos + 2 * k + 1 ≤ limit)) .outOfRange
  let suffix ← readBits pl m base (pos + k + 1) k
  .ok (2 ^ k - 1 + suffix, pos + 2 * k + 1)

/-- What a reader command commits (41_bitreader.md R150): RES0 and BR_POS, nothing else. -/
def readerDone (s : State) (res0 : Word) (pos : Nat) : Done :=
  ⟨{ s.regs with res0 := res0, brPos := BitVec.ofNat 32 pos }, s.mem, .ok⟩

/-- RD_BITS and RD_BIT: a fixed-width read at the reader's cursor. -/
def readerFixed (n : Nat) (s : State) : Cmd Done := do
  let v ← readFixed s.platform s.mem s.regs.brBase.toNat (readerLimit s.regs) s.regs.brPos.toNat n
  .ok (readerDone s (BitVec.ofNat 32 v) (s.regs.brPos.toNat + n))

/-- RD_UE and RD_SE: an Exp-Golomb read at the reader's cursor, its code number stored as `value` says. -/
def readerGolomb (value : Nat → Word) (s : State) : Cmd Done := do
  let (c, pos) ← readUe s.platform s.mem s.regs.brBase.toNat (readerLimit s.regs) s.regs.brPos.toNat
  .ok (readerDone s (value c) pos)

/-- RD_BITS n (41_bitreader.md R152). -/
def execRdBits (n : Nat) (s : State) : Host.Outcome State Fault Refusal :=
  guarded (.rdBits n) s (conclude s (readerFixed n s))

/-- RD_BIT (R153): exactly RD_BITS with n = 1. -/
def execRdBit (s : State) : Host.Outcome State Fault Refusal :=
  guarded .rdBit s (conclude s (readerFixed 1 s))

/-- RD_UE (R155). -/
def execRdUe (s : State) : Host.Outcome State Fault Refusal :=
  guarded .rdUe s (conclude s (readerGolomb (fun c => BitVec.ofNat 32 c) s))

/-- RD_SE (R157): the signed value in two's complement. -/
def execRdSe (s : State) : Host.Outcome State Fault Refusal :=
  guarded .rdSe s (conclude s (readerGolomb (fun c => BitVec.ofInt 32 (seValue c)) s))

end Sys2Proof.Machine
end

