-- ==== Sys2Proof/Machine/BitWriter.lean ====
section
/-! DEFINITION. The BitWriter commands: WR_BITS, WR_BIT, WR_UE, WR_SE, WR_ALIGN_FLUSH (42_bitwriter.md). -/

namespace Sys2Proof.Machine

/-- A writer cursor with the memory it writes (42_bitwriter.md R170): `acc` is the partial byte. -/
structure WCursor where
  base  : Nat
  limit : Nat
  pos   : Nat
  acc   : Byte
  mem   : Memory
  deriving DecidableEq, Repr

/-- Bit 7 − (p mod 8) of a byte, set to b (00_scope.md R8). -/
def streamBit (b : Bool) (p : Nat) : Byte := if b then 1 <<< (7 - p % 8) else 0

/-- The loop of `Emit` and its last store (42_bitwriter.md R171): a completed byte is stored and `acc` cleared; the partial byte is
stored at the end, zero-filled. -/
def emitLoop (pl : Platform) : List Bool → WCursor → Cmd WCursor
  | [], w =>
    if w.pos % 8 = 0 then .ok w
    else do
      let m ← storeByte pl w.mem (w.base + w.pos / 8) w.acc
      .ok { w with mem := m }
  | b :: bs, w =>
    if (w.pos + 1) % 8 = 0 then do
      let m ← storeByte pl w.mem (w.base + (w.pos + 1) / 8 - 1) (w.acc ||| streamBit b w.pos)
      emitLoop pl bs { w with pos := w.pos + 1, acc := 0, mem := m }
    else emitLoop pl bs { w with pos := w.pos + 1, acc := w.acc ||| streamBit b w.pos }

/-- `Emit(b_0 … b_{m−1})` (42_bitwriter.md R171, R172). -/
def emit (pl : Platform) (bits : List Bool) (w : WCursor) : Cmd WCursor :=
  if w.pos ≤ w.limit ∧ bits.length ≤ w.limit - w.pos then
    (if bits = [] then .ok w else emitLoop pl bits w)
  else .error (.raise .outOfRange)

/-- `8 − pos mod 8` zero bits and the partial byte, as WR_ALIGN_FLUSH does (42_bitwriter.md R179). -/
def flush (pl : Platform) (w : WCursor) : Cmd WCursor :=
  if w.pos ≤ w.limit then
    (if w.pos % 8 = 0 then .ok { w with acc := 0 }
     else do
      let m ← storeByte pl w.mem (w.base + w.pos / 8) w.acc
      .ok { w with pos := w.pos + (8 - w.pos % 8), acc := 0, mem := m })
  else .error (.raise .outOfRange)

/-- The writer's cursor (42_bitwriter.md R170). -/
def writerCursor (s : State) : WCursor :=
  ⟨s.regs.bwBase.toNat, writerLimit s.regs, s.regs.bwPos.toNat, s.regs.bwAcc, s.mem⟩

/-- What an emitting command commits (R170): BW_POS, BW_ACC and memory. -/
def writerDone (s : State) (w : WCursor) : Done :=
  ⟨{ s.regs with bwPos := BitVec.ofNat 32 w.pos, bwAcc := w.acc }, w.mem, .ok⟩

/-- A writer command: the operand check first, then the emit (42_bitwriter.md R175). -/
def writerEmit (operandOk : Bool) (bits : List Bool) (s : State) : Cmd Done := do
  require operandOk .illegalCommand
  let w ← emit s.platform bits (writerCursor s)
  .ok (writerDone s w)

/-- WR_BITS n (42_bitwriter.md R173). -/
def execWrBits (n : Nat) (s : State) : Host.Outcome State Fault Refusal :=
  guarded (.wrBits n) s
    (conclude s (writerEmit (decide (s.regs.arg0.toNat < 2 ^ n)) (bitsMsb n s.regs.arg0.toNat) s))

/-- WR_BIT (R174). -/
def execWrBit (s : State) : Host.Outcome State Fault Refusal :=
  guarded .wrBit s
    (conclude s (writerEmit (decide (s.regs.arg0.toNat ≤ 1)) [s.regs.arg0.getLsbD 0] s))

/-- WR_UE (R177). -/
def execWrUe (s : State) : Host.Outcome State Fault Refusal :=
  guarded .wrUe s
    (conclude s (writerEmit (decide (s.regs.arg0 ≠ 0xFFFFFFFF)) (ueBits s.regs.arg0.toNat) s))

/-- WR_SE (R178): the code of the code number of s32(ARG0). -/
def execWrSe (s : State) : Host.Outcome State Fault Refusal :=
  guarded .wrSe s
    (conclude s (writerEmit (decide (s.regs.arg0 ≠ 0x80000000)) (ueBits (seCode s.regs.arg0.toInt)) s))

/-- What WR_ALIGN_FLUSH commits (R179): BW_POS, BW_ACC, RES0 and memory. -/
def writerFlush (s : State) : Cmd Done := do
  let w ← flush s.platform (writerCursor s)
  .ok ⟨{ s.regs with bwPos := BitVec.ofNat 32 w.pos, bwAcc := w.acc, res0 := BitVec.ofNat 32 (w.pos / 8) }, w.mem, .ok⟩

/-- WR_ALIGN_FLUSH (R179). -/
def execWrAlignFlush (s : State) : Host.Outcome State Fault Refusal :=
  guarded .wrAlignFlush s (conclude s (writerFlush s))

end Sys2Proof.Machine
end

