-- ==== Sys2Proof/Machine/DcaScanner.lean ====
section
/-! DEFINITION. The DCA frame-boundary scanner: DCA_SCAN and DCA_RESET (46_dca_scanner.md), with the parameters
`DCA_PAT`, `DCA_SIZE`, `EXSS_AFTER_CORE` and `CORE14_SCALE` of 00_scope.md R7 (log entries 16 and 22). -/

namespace Sys2Proof.Machine

/-- The number of a family in DCA_LOCK (10_state.md R42). -/
def familyNumber : Family → BitVec 3
  | .coreBe => 1
  | .coreLe => 2
  | .core14Be => 3
  | .core14Le => 4
  | .exss => 5

/-- The family DCA_LOCK names; none for 0 (no family locked) and for 6 and 7, which DCA_SCAN refuses (R290). -/
def familyOf (lock : BitVec 3) : Option Family :=
  if lock = 1 then some .coreBe
  else if lock = 2 then some .coreLe
  else if lock = 3 then some .core14Be
  else if lock = 4 then some .core14Le
  else if lock = 5 then some .exss
  else none

/-- `MLEN_f`, the marker length in bytes (46_dca_scanner.md R282). -/
def markerLen : Family → Nat
  | .coreBe => 6
  | .coreLe => 6
  | .core14Be => 6
  | .core14Le => 6
  | .exss => 4

/-- `SIZE_AT_f` (46_dca_scanner.md R283), a part of the parameter `DCA_SIZE`. -/
def sizeAt (p : Params) (f : Family) : Nat := (p.dcaSize.get f).sizeAt

/-- The size function of a family applied to WIN (46_dca_scanner.md R283, R284), the parameter `DCA_SIZE`. -/
def frameSize (p : Params) (f : Family) (w : Window) : Nat := (p.dcaSize.get f).size.eval p.core14Scale w.toNat

/-- `f ∈ EXSS_AFTER_CORE` (46_dca_scanner.md R286); the parameter lists core families only (00_scope.md R7; log
entry 22). -/
def exssAfter (p : Params) (f : Family) : Bool := decide (f ≠ .exss) && decide (f ∈ p.exssAfterCore)

/-- `Match(f, w)`: on the low 48 bits of the window (46_dca_scanner.md R281), with the parameter `DCA_PAT`. -/
def matchesSync (p : Params) (f : Family) (w : Window) : Bool :=
  w.setWidth 48 &&& (p.dcaPat.get f).mask == (p.dcaPat.get f).value

/-- The families in the order of 46_dca_scanner.md R281. -/
def families : List Family := [.coreBe, .coreLe, .core14Be, .core14Le, .exss]

/-- `Select(w)` (46_dca_scanner.md R281): the locked family only, once one is locked. -/
def selectFamily (p : Params) (lock : BitVec 3) (w : Window) : Option Family :=
  if lock = 0 then families.find? (fun f => matchesSync p f w)
  else (familyOf lock).filter (fun f => matchesSync p f w)

/-- The marker of the locked family ends at this byte and the frame is complete (46_dca_scanner.md R287, R289). -/
def endsFrame (p : Params) (d : Dca) : Bool :=
  decide (d.fsize.toNat ≤ d.count.toNat) && (match familyOf d.lock with | some f => matchesSync p f d.win | none => false)

/-- The update before the phase acts: COUNT and WIN take the byte (46_dca_scanner.md, the per-byte step). -/
def takeByte (d : Dca) (b : Byte) : Dca :=
  { d with count := d.count + 1, win := (d.win <<< 8) ||| b.zeroExtend 64 }

/-- Phase 0, no start found (46_dca_scanner.md R285). -/
def phaseNoStart (p : Params) (d : Dca) : Dca :=
  match selectFamily p d.lock d.win with
  | none => d
  | some f =>
    if d.lock = 0 then
      { d with start := d.count - BitVec.ofNat 32 (markerLen f), lock := familyNumber f, phase := 1, count := 0 }
    else { d with phase := 1, count := 0 }

/-- Phase 1, start found, awaiting the size (46_dca_scanner.md R286). -/
def phaseAwaitSize (p : Params) (d : Dca) : Dca :=
  match familyOf d.lock with
  | none => d
  | some f =>
    if d.count.toNat = sizeAt p f then
      { d with fsize := BitVec.ofNat 32 (frameSize p f d.win), phase := if exssAfter p f then 2 else 4 }
    else d

/-- Phase 2 when the byte ends no frame: an adjacent extension substream (46_dca_scanner.md R287). -/
def phaseAdjacent (p : Params) (d : Dca) : Dca :=
  if matchesSync p .exss d.win ∧ d.fsize.toNat ≤ d.count.toNat + 2 then
    { d with fsize := BitVec.ofNat 32 (d.count.toNat + 2), phase := 3 }
  else d

/-- Phase 3, adjacent substream found, awaiting its size (46_dca_scanner.md R288; the sum `FSIZE + 4` is not reduced, R295). `ExssSize` is
the size function of EXSS, log entry 22. -/
def phaseExssSize (p : Params) (d : Dca) : Dca :=
  if d.count.toNat = d.fsize.toNat + 4 then
    { d with fsize := BitVec.ofNat 32 (d.fsize.toNat + frameSize p .exss d.win), phase := 4 }
  else d

/-- The boundary (46_dca_scanner.md R292): LOCK, FSIZE and START keep their values. -/
def boundary (d : Dca) : Dca := { d with phase := 0, win := 0, count := 0 }

/-- One input byte (46_dca_scanner.md R285 to R289): the new state, and whether the byte confirmed a boundary. -/
def dcaByte (p : Params) (d0 : Dca) (b : Byte) : Dca × Bool :=
  let d := takeByte d0 b
  if d.phase = 0 then (phaseNoStart p d, false)
  else if d.phase = 1 then (phaseAwaitSize p d, false)
  else if d.phase = 2 then (if endsFrame p d then (boundary d, true) else (phaseAdjacent p d, false))
  else if d.phase = 3 then (phaseExssSize p d, false)
  else if d.phase = 4 then (if endsFrame p d then (boundary d, true) else (d, false))
  else (d, false)

/-- The chunk loop of DCA_SCAN (46_dca_scanner.md R291) over the last n bytes, from byte i on: the state at the end, and the chunk
index of the byte that confirmed a boundary, if one did. -/
def scanLoop (pl : Platform) (m : Memory) (base : Nat) : (n i : Nat) → Dca → Cmd (Dca × Option Nat)
  | 0, _, d => .ok (d, none)
  | n + 1, i, d => do
    let b ← fetchByte pl m (base + i)
    match dcaByte pl.params d b with
    | (d', true) => .ok (d', some i)
    | (d', false) => scanLoop pl m base n (i + 1) d'

/-- The state a scan may start from (46_dca_scanner.md R290). -/
def dcaStateOk (d : Dca) : Bool :=
  decide (d.phase.toNat ≤ 4) && decide (d.lock.toNat ≤ 5) && (decide (d.phase = 0) || decide (d.lock ≠ 0))

/-- The marker length of the family a state has locked. -/
def lockedMarkerLen (d : Dca) : Nat := match familyOf d.lock with | some f => markerLen f | none => 0

/-- `u32(i − (MLEN_LOCK − 1))` (46_dca_scanner.md R292): the boundary's offset, in two's complement when it lies before the chunk. -/
def boundaryOffset (d : Dca) (i : Nat) : Word := BitVec.ofInt 32 ((i : Int) - ((lockedMarkerLen d : Int) - 1))

/-- The rule of DCA_SCAN (46_dca_scanner.md R291, R294). -/
def dcaScanRule (f : Bool) (s : State) : Cmd Done :=
  if f then .ok ⟨{ s.regs with res0 := s.regs.srcLen.zeroExtend 32 }, s.mem, .ok⟩
  else do
    require (dcaStateOk s.regs.dca) .illegalCommand
    let r ← scanLoop s.platform s.mem s.regs.srcBase.toNat s.regs.srcLen.toNat 0 s.regs.dca
    match r with
    | (d, some i) => .ok ⟨{ s.regs with res0 := boundaryOffset d i, dca := d }, s.mem, .ok⟩
    | (d, none) => .ok ⟨{ s.regs with dca := d }, s.mem, .notYetComplete⟩

/-- DCA_SCAN (46_dca_scanner.md R291). -/
def execDcaScan (f : Bool) (s : State) : Host.Outcome State Fault Refusal :=
  guarded (.dcaScan f) s (conclude s (dcaScanRule f s))

/-- DCA_RESET (46_dca_scanner.md R297): the seven DCA registers take 0. -/
def execDcaReset (s : State) : Host.Outcome State Fault Refusal :=
  guarded .dcaReset s (conclude s (.ok ⟨{ s.regs with dca := Dca.reset }, s.mem, .ok⟩))

end Sys2Proof.Machine
end

