-- ==== Sys2Proof/Machine/NalCodec.lean ====
section
/-! DEFINITION. The NAL codec: NAL_UNESCAPE and NAL_ESCAPE (43_nal_codec.md). Input bytes are read from memory as it was at the launch:
"No command reads a byte it has written" (20_memory.md R84 (c)); log entry 17. -/

namespace Sys2Proof.Machine

/-- The buffers of a codec command: where it reads, where it writes, and the destination's capacity (43_nal_codec.md R190). -/
structure CodecIO where
  platform : Platform
  input    : Memory
  srcBase  : Nat
  dstBase  : Nat
  cap      : Nat
  deriving DecidableEq, Repr

/-- The count of consecutive zero bytes after a byte, saturating at 2 (43_nal_codec.md R191). -/
def zerosAfter (z : Nat) (b : Byte) : Nat := if b = 0 then min (z + 1) 2 else 0

/-- `if o ≥ DST_CAP: raise OUT_OF_RANGE`, then the store of output byte o. -/
def putOut (io : CodecIO) (o : Nat) (m : Memory) (b : Byte) : Cmd Memory := do
  require (decide (o < io.cap)) .outOfRange
  storeByte io.platform m (io.dstBase + o) b

/-- The loop of NAL_UNESCAPE (43_nal_codec.md R191) over the last n source bytes, from byte i on. -/
def unescapeLoop (io : CodecIO) : (n i z o : Nat) → Memory → Cmd (Nat × Memory)
  | 0, _, _, o, m => .ok (o, m)
  | n + 1, i, z, o, m => do
    let b ← fetchByte io.platform io.input (io.srcBase + i)
    if 2 ≤ z ∧ b = 0x03 then unescapeLoop io n (i + 1) 0 o m
    else do
      let m' ← putOut io o m b
      unescapeLoop io n (i + 1) (zerosAfter z b) (o + 1) m'

/-- The loop of NAL_ESCAPE (43_nal_codec.md R194) over the last n source bytes, from byte i on. -/
def escapeLoop (io : CodecIO) : (n i z o : Nat) → Memory → Cmd (Nat × Memory)
  | 0, _, _, o, m => .ok (o, m)
  | n + 1, i, z, o, m => do
    let b ← fetchByte io.platform io.input (io.srcBase + i)
    if 2 ≤ z ∧ b.toNat ≤ 3 then do
      let m' ← putOut io o m 0x03
      let m'' ← putOut io (o + 1) m' b
      escapeLoop io n (i + 1) (zerosAfter 0 b) (o + 2) m''
    else do
      let m' ← putOut io o m b
      escapeLoop io n (i + 1) (zerosAfter z b) (o + 1) m'

/-- The buffers of the command as the registers give them. -/
def codecIO (s : State) : CodecIO :=
  ⟨s.platform, s.mem, s.regs.srcBase.toNat, s.regs.dstBase.toNat, s.regs.dstCap.toNat⟩

/-- What a codec command commits: RES0, the output length, and the output bytes (43_nal_codec.md R190). -/
def codecDone (s : State) (r : Nat × Memory) : Done := ⟨{ s.regs with res0 := BitVec.ofNat 32 r.1 }, r.2, .ok⟩

/-- NAL_UNESCAPE (43_nal_codec.md R191). -/
def execNalUnescape (s : State) : Host.Outcome State Fault Refusal :=
  guarded .nalUnescape s
    (concludeDst s (codecDone s <$> unescapeLoop (codecIO s) s.regs.srcLen.toNat 0 0 0 s.mem))

/-- NAL_ESCAPE (43_nal_codec.md R194). -/
def execNalEscape (s : State) : Host.Outcome State Fault Refusal :=
  guarded .nalEscape s
    (concludeDst s (codecDone s <$> escapeLoop (codecIO s) s.regs.srcLen.toNat 0 0 0 s.mem))

end Sys2Proof.Machine
end

