-- ==== Sys2Proof/Machine/NalLocator.lean ====
section
/-! DEFINITION. The NAL locator: NAL_LOCATE_AB and NAL_LOCATE_LP (44_nal_locator.md). -/

namespace Sys2Proof.Machine

/-- `buf[i]` = M[SRC_BASE + i] (44_nal_locator.md R210). -/
def sourceByte (s : State) (i : Nat) : Cmd Byte := fetchByte s.platform s.mem (s.regs.srcBase.toNat + i)

/-- The search of NAL_LOCATE_AB (44_nal_locator.md R211): the first offset i, from `i` on and at most `fuel` offsets, with
`buf[i .. i+2] = 00 00 01` and a header byte `buf[i + 3]` inside the buffer. All three bytes are read at each offset; log entry 12. -/
def findStartCode (s : State) : (fuel i : Nat) → Cmd (Option Nat)
  | 0, _ => .ok none
  | fuel + 1, i =>
    if i + 3 < s.regs.srcLen.toNat then do
      let b0 ← sourceByte s i
      let b1 ← sourceByte s (i + 1)
      let b2 ← sourceByte s (i + 2)
      if b0 = 0x00 ∧ b1 = 0x00 ∧ b2 = 0x01 then .ok (some i) else findStartCode s fuel (i + 1)
    else .ok none

/-- The NAL type: the low 5 bits of the header byte (44_nal_locator.md R210, R213). -/
def nalType (header : Byte) : Word := (header &&& 0x1F).zeroExtend 32

/-- A unit was found (44_nal_locator.md R210): its type, the offset of its header byte, its length field and the next cursor. -/
def located (s : State) (header : Byte) (offset len cursor : Nat) : Done :=
  ⟨{ s.regs with res0 := nalType header, res1 := BitVec.ofNat 32 offset, res2 := BitVec.ofNat 32 len,
                 locCursor := BitVec.ofNat 29 cursor }, s.mem, .ok⟩

/-- No unit was found: `finish NONE`, no register is written (44_nal_locator.md R210). -/
def notLocated (s : State) : Done := ⟨s.regs, s.mem, .noneFound⟩

/-- The rule of NAL_LOCATE_AB (44_nal_locator.md R211). -/
def locateAb (s : State) : Cmd Done := do
  require (decide (s.regs.locCursor.toNat ≤ s.regs.srcLen.toNat)) .outOfRange
  match ← findStartCode s s.regs.srcLen.toNat s.regs.locCursor.toNat with
  | none => .ok (notLocated s)
  | some i => do
    let header ← sourceByte s (i + 3)
    .ok (located s header (i + 3) 0 (i + 4))

/-- The 4-byte big-endian size field at an offset (44_nal_locator.md R215). -/
def sizeField (s : State) (c : Nat) : Cmd Nat := do
  let b0 ← sourceByte s c
  let b1 ← sourceByte s (c + 1)
  let b2 ← sourceByte s (c + 2)
  let b3 ← sourceByte s (c + 3)
  .ok (b0.toNat * 2 ^ 24 + b1.toNat * 2 ^ 16 + b2.toNat * 2 ^ 8 + b3.toNat)

/-- The rule of NAL_LOCATE_LP (44_nal_locator.md R215), with n = SRC_LEN and c = LOC_CURSOR. -/
def locateLp (s : State) (n c : Nat) : Cmd Done := do
  require (decide (c ≤ n)) .outOfRange
  if c = n then .ok (notLocated s)
  else do
    require (decide (4 ≤ n - c)) .outOfRange
    let size ← sizeField s c
    require (decide (size ≠ 0 ∧ size ≤ n - c - 4)) .outOfRange
    let header ← sourceByte s (c + 4)
    .ok (located s header (c + 4) size (c + 4 + size))

/-- NAL_LOCATE_AB (44_nal_locator.md R211). -/
def execNalLocateAb (s : State) : Host.Outcome State Fault Refusal :=
  guarded .nalLocateAb s (conclude s (locateAb s))

/-- NAL_LOCATE_LP (44_nal_locator.md R215). -/
def execNalLocateLp (s : State) : Host.Outcome State Fault Refusal :=
  guarded .nalLocateLp s (conclude s (locateLp s s.regs.srcLen.toNat s.regs.locCursor.toNat))

end Sys2Proof.Machine
end

