-- ==== Sys2Proof/Machine/SpsRewriter.lean ====
section
/-! DEFINITION. The SPS field rewriter: SPS_REWRITE (45_sps_rewriter.md), with the parameters `HIGH_PROFILE`, `SL_COUNT` and `SL_SIZE` of
00_scope.md R7 (log entry 16). Input bits are read from memory as it was at the launch (20_memory.md R84 (c); log entry 17). -/

namespace Sys2Proof.Machine

/-- `HIGH_PROFILE(profile)` (00_scope.md R7). -/
def highProfile (p : Params) (profile : Nat) : Bool := p.highProfiles.any fun q => decide (q.1 ≤ profile) && decide (profile ≤ q.2)

/-- `SL_COUNT(cfi)` (00_scope.md R7). -/
def slCount (p : Params) (cfi : Nat) : Nat := p.slCount.get cfi

/-- `SL_SIZE(i)` (00_scope.md R7). -/
def slSize (p : Params) (i : Nat) : Nat := p.slSize.get i

/-- What the walk reads but never changes: the platform, the input, and the override registers (45_sps_rewriter.md R230). -/
structure SpsInput where
  platform : Platform
  input    : Memory
  base     : Nat
  limit    : Nat
  ovr      : SpsOvr
  fpsNum   : Word
  fpsDen   : Word
  allow    : Vector Word 8
  deriving DecidableEq, Repr

/-- The private cursors (45_sps_rewriter.md R232): the reader's position and the writer. -/
structure SpsCursors where
  rpos : Nat
  w    : WCursor
  deriving DecidableEq, Repr

/-- A part of the walk. -/
abbrev Walk (α : Type) := StateT SpsCursors Cmd α

/-- "any reader failure (OUT_OF_RANGE in 41) becomes: raise MALFORMED_SPS" (45_sps_rewriter.md R233); a stuck engine stays stuck. -/
def asMalformed {α : Type} : Cmd α → Cmd α
  | .ok a => .ok a
  | .error (.raise _) => .error (.raise .malformedSps)
  | .error .stuck => .error .stuck

/-- `rd_u(n)` (45_sps_rewriter.md R233). -/
def rdU (x : SpsInput) (n : Nat) : Walk Nat := fun c => do
  let v ← asMalformed (readFixed x.platform x.input x.base x.limit c.rpos n)
  .ok (v, { c with rpos := c.rpos + n })

/-- `rd_ue()` (45_sps_rewriter.md R233). -/
def rdUe (x : SpsInput) : Walk Nat := fun c => do
  let (v, pos) ← asMalformed (readUe x.platform x.input x.base x.limit c.rpos)
  .ok (v, { c with rpos := pos })

/-- `rd_se()` (45_sps_rewriter.md R233). -/
def rdSe (x : SpsInput) : Walk Int := do
  let v ← rdUe x
  pure (seValue v)

/-- An emit on the private writer; a capacity failure stays OUT_OF_RANGE (45_sps_rewriter.md R233). -/
def wrList (x : SpsInput) (bits : List Bool) : Walk Unit := fun c => do
  let w ← emit x.platform bits c.w
  .ok ((), { c with w := w })

/-- `wr_u(n, v)`. -/
def wrU (x : SpsInput) (n v : Nat) : Walk Unit := wrList x (bitsMsb n v)

/-- `wr_ue(v)`. -/
def wrUe (x : SpsInput) (v : Nat) : Walk Unit := wrList x (ueBits v)

/-- `wr_se(v)`. -/
def wrSe (x : SpsInput) (v : Int) : Walk Unit := wrList x (ueBits (seCode v))

/-- `cp_u(n)`. -/
def cpU (x : SpsInput) (n : Nat) : Walk Nat := do
  let v ← rdU x n
  wrU x n v
  pure v

/-- `cp_ue()`. -/
def cpUe (x : SpsInput) : Walk Nat := do
  let v ← rdUe x
  wrUe x v
  pure v

/-- `cp_se()`. -/
def cpSe (x : SpsInput) : Walk Int := do
  let v ← rdSe x
  wrSe x v
  pure v

/-- A part that is present only when a condition holds. -/
def onlyIf (b : Bool) (part : Walk Unit) : Walk Unit := if b then part else pure ()

/-- A part repeated n times. -/
def times : Nat → Walk Unit → Walk Unit
  | 0, _ => pure ()
  | n + 1, part => do
    part
    times n part

/-- `cp_u(n)` of a field whose value the walk does not use. -/
def keepU (x : SpsInput) (n : Nat) : Walk Unit := do
  let _ ← cpU x n
  pure ()

/-- `cp_ue()` of a field whose value the walk does not use. -/
def keepUe (x : SpsInput) : Walk Unit := do
  let _ ← cpUe x
  pure ()

/-- `cp_se()` of a field whose value the walk does not use. -/
def keepSe (x : SpsInput) : Walk Unit := do
  let _ ← cpSe x
  pure ()

/-- The chunks of `CopyBits(L)`: at most 24 bits at a time (45_sps_rewriter.md R234). -/
def copyChunks (x : SpsInput) : Nat → Nat → Walk Unit
  | 0, _ => pure ()
  | fuel + 1, len =>
    if len = 0 then pure ()
    else do
      keepU x (min 24 len)
      copyChunks x fuel (len - min 24 len)

/-- `CopyBits(L)` (45_sps_rewriter.md R234). -/
def copyBits (x : SpsInput) (len : Nat) : Walk Unit := copyChunks x (len / 24 + 1) len

/-- Row 1: `profile_idc`, read, checked against PROFILE_ALLOW, written (45_sps_rewriter.md R241). -/
def walkProfile (x : SpsInput) : Walk Nat := do
  let p ← rdU x 8
  (if (x.allow.toList.getD (p / 32) 0).getLsbD (p % 32) then pure () else throw (.raise .malformedSps) : Walk Unit)
  wrU x 8 p
  pure p

/-- Row 3: `level_idc` and its override (45_sps_rewriter.md R240). -/
def walkLevel (x : SpsInput) : Walk Unit := do
  let lv ← rdU x 8
  wrU x 8 (if x.ovr.levelSet then x.ovr.level.toNat else lv)

/-- `scaling_list(size)` (45_sps_rewriter.md R238), with `last` and `next` after the entries before. -/
def scalingEntries (x : SpsInput) : Nat → Int → Int → Walk Unit
  | 0, _, _ => pure ()
  | n + 1, last, next =>
    if next ≠ 0 then do
      let d ← cpSe x
      let next' := (last + d + 256) % 256
      scalingEntries x n (if next' ≠ 0 then next' else last) next'
    else scalingEntries x n last next

/-- Row 5g: the scaling lists i, i + 1, … (45_sps_rewriter.md R237). -/
def scalingLists (x : SpsInput) : Nat → Nat → Walk Unit
  | 0, _ => pure ()
  | n + 1, i => do
    let present ← cpU x 1
    onlyIf (present == 1) (scalingEntries x (slSize x.platform.params i) 8 8)
    scalingLists x n (i + 1)

/-- Row 5: the High-profile block (45_sps_rewriter.md R237). -/
def walkHigh (x : SpsInput) : Walk Unit := do
  let cfi ← cpUe x
  onlyIf (cfi == 3) (keepU x 1)
  keepUe x
  keepUe x
  keepU x 1
  let matrix ← cpU x 1
  onlyIf (matrix == 1) (scalingLists x (slCount x.platform.params cfi) 0)

/-- Picture order count of type 1 (45_sps_rewriter.md R239). -/
def walkPocCycle (x : SpsInput) : Walk Unit := do
  keepU x 1
  keepSe x
  keepSe x
  let m ← cpUe x
  times m (keepSe x)

/-- Row 7: picture order count (45_sps_rewriter.md R239). -/
def walkPoc (x : SpsInput) : Walk Unit := do
  let t ← cpUe x
  onlyIf (t == 0) (keepUe x)
  onlyIf (t == 1) (walkPocCycle x)

/-- Row V2, V3: aspect ratio (45_sps_rewriter.md R242). -/
def walkAspect (x : SpsInput) : Walk Unit := do
  let idc ← cpU x 8
  onlyIf (idc == 255) (do keepU x 16; keepU x 16)

/-- Rows V7, V8: video signal type (45_sps_rewriter.md R242). -/
def walkSignal (x : SpsInput) : Walk Unit := do
  keepU x 3
  keepU x 1
  let colour ← cpU x 1
  onlyIf (colour == 1) (do keepU x 8; keepU x 8; keepU x 8)

/-- Row V12: the timing fields and their overrides (45_sps_rewriter.md R243, 90_conflicts.md C3). -/
def walkTiming (x : SpsInput) : Walk Unit := do
  let nu ← rdU x 32
  wrU x 32 (if x.ovr.fpsSet then x.fpsDen.toNat else nu)
  let ts ← rdU x 32
  wrU x 32 (if x.ovr.fpsSet then 2 * x.fpsNum.toNat else ts)
  let ff ← rdU x 1
  wrU x 1 (if x.ovr.ffrSet then x.ovr.ffrValue.toNat else ff)

/-- Row H4, once (45_sps_rewriter.md R249): read only. -/
def hrdEntry (x : SpsInput) : Walk Unit := do
  let _ ← rdUe x
  let _ ← rdUe x
  let _ ← rdU x 1
  pure ()

/-- `hrd_parameters()` parsed on a look-ahead cursor (45_sps_rewriter.md R249): read only. -/
def hrdParse (x : SpsInput) : Walk Unit := do
  let cc ← rdUe x
  let _ ← rdU x 4
  let _ ← rdU x 4
  times (cc + 1) (hrdEntry x)
  let _ ← rdU x 5
  let _ ← rdU x 5
  let _ ← rdU x 5
  let _ ← rdU x 5
  pure ()

/-- Rows V14, V16: the look-ahead finds the length of the HRD block, and then its bits are copied (45_sps_rewriter.md R250). -/
def walkHrd (x : SpsInput) : Walk Unit := fun c => do
  let (_, la) ← hrdParse x c
  copyBits x (la.rpos - c.rpos) c

/-- Row V20: bitstream restriction (45_sps_rewriter.md R251). -/
def walkRestriction (x : SpsInput) : Walk Unit := do
  keepU x 1
  times 6 (keepUe x)

/-- Rows V1 to V10 of `vui_parameters()` (45_sps_rewriter.md R242). -/
def walkVuiDisplay (x : SpsInput) : Walk Unit := do
  let aspect ← cpU x 1
  onlyIf (aspect == 1) (walkAspect x)
  let overscan ← cpU x 1
  onlyIf (overscan == 1) (keepU x 1)
  let signal ← cpU x 1
  onlyIf (signal == 1) (walkSignal x)
  let chroma ← cpU x 1
  onlyIf (chroma == 1) (do keepUe x; keepUe x)

/-- Rows V13 to V17 of `vui_parameters()` (45_sps_rewriter.md R242, R248). -/
def walkVuiHrd (x : SpsInput) : Walk Unit := do
  let nh ← cpU x 1
  onlyIf (nh == 1) (walkHrd x)
  let vh ← cpU x 1
  onlyIf (vh == 1) (walkHrd x)
  onlyIf (nh == 1 || vh == 1) (keepU x 1)

/-- `vui_parameters()` (45_sps_rewriter.md R242). -/
def walkVui (x : SpsInput) : Walk Unit := do
  walkVuiDisplay x
  let timing ← cpU x 1
  onlyIf (timing == 1) (walkTiming x)
  walkVuiHrd x
  keepU x 1
  let restriction ← cpU x 1
  onlyIf (restriction == 1) (walkRestriction x)

/-- Rows 8 to 16 of `seq_parameter_set_data()` (45_sps_rewriter.md R236). -/
def walkFrame (x : SpsInput) : Walk Unit := do
  keepUe x
  keepU x 1
  keepUe x
  keepUe x
  let mbsOnly ← cpU x 1
  onlyIf (mbsOnly == 0) (keepU x 1)
  keepU x 1
  let cropping ← cpU x 1
  onlyIf (cropping == 1) (times 4 (keepUe x))

/-- `seq_parameter_set_data()` (45_sps_rewriter.md R236). -/
def walkSps (x : SpsInput) : Walk Unit := do
  let p ← walkProfile x
  keepU x 8
  walkLevel x
  keepUe x
  onlyIf (highProfile x.platform.params p) (walkHigh x)
  keepUe x
  walkPoc x
  walkFrame x
  let vui ← cpU x 1
  onlyIf (vui == 1) (walkVui x)

/-- The trailing copy: every input bit from the reader's position to the end (45_sps_rewriter.md R252). -/
def walkTail (x : SpsInput) : Walk Unit := fun c => copyBits x (x.limit - c.rpos) c

/-- The input of the command as the registers give it (45_sps_rewriter.md R230). -/
def spsInput (s : State) : SpsInput :=
  ⟨s.platform, s.mem, s.regs.srcBase.toNat, 8 * s.regs.srcLen.toNat, s.regs.spsOvr, s.regs.spsFpsNum, s.regs.spsFpsDen,
   s.regs.profileAllow⟩

/-- The private cursors at the start (45_sps_rewriter.md R232). -/
def spsCursors (s : State) : SpsCursors := ⟨0, ⟨s.regs.dstBase.toNat, 8 * s.regs.dstCap.toNat, 0, 0, s.mem⟩⟩

/-- The walk, the trailing copy and the flush (45_sps_rewriter.md R235, R253): RES0 takes the byte count. -/
def spsBody (s : State) : Cmd Done := do
  let (_, c) ← (do walkSps (spsInput s); walkTail (spsInput s) : Walk Unit) (spsCursors s)
  let w ← flush s.platform c.w
  .ok ⟨{ s.regs with res0 := BitVec.ofNat 32 (w.pos / 8) }, w.mem, .ok⟩

/-- The frame-rate numerator does not fit `time_scale` (45_sps_rewriter.md R231). -/
def fpsUnsupported (r : Regs) : Bool := r.spsOvr.fpsSet && decide (2 ^ 31 ≤ r.spsFpsNum.toNat)

/-- SPS_REWRITE (45_sps_rewriter.md R235). The frame-rate check precedes every access, so its failure leaves memory alone (R231). -/
def execSpsRewrite (s : State) : Host.Outcome State Fault Refusal :=
  guarded .spsRewrite s
    (if fpsUnsupported s.regs then .next (failWith s .unsupportedConfiguration) else concludeDst s (spsBody s))

end Sys2Proof.Machine
end

