-- ==== Sys2Proof/Machine/Dispatch.lean ====
section
/-! DEFINITION. The meaning of every command, one arm per constructor of Instr (30_encoding.md R103). -/

namespace Sys2Proof.Machine

/-- The effect of a command, decode and launch apart (40_command_protocol.md R131). -/
def exec (i : Instr) (s : State) : Host.Outcome State Fault Refusal :=
  match i with
  -- BitReader, 41_bitreader.md
  | .rdBits n => Sys2Proof.Machine.execRdBits n s
  | .rdBit => Sys2Proof.Machine.execRdBit s
  | .rdUe => Sys2Proof.Machine.execRdUe s
  | .rdSe => Sys2Proof.Machine.execRdSe s
  -- BitWriter, 42_bitwriter.md
  | .wrBits n => Sys2Proof.Machine.execWrBits n s
  | .wrBit => Sys2Proof.Machine.execWrBit s
  | .wrUe => Sys2Proof.Machine.execWrUe s
  | .wrSe => Sys2Proof.Machine.execWrSe s
  | .wrAlignFlush => Sys2Proof.Machine.execWrAlignFlush s
  -- NAL codec, 43_nal_codec.md
  | .nalUnescape => Sys2Proof.Machine.execNalUnescape s
  | .nalEscape => Sys2Proof.Machine.execNalEscape s
  -- NAL locator, 44_nal_locator.md
  | .nalLocateAb => Sys2Proof.Machine.execNalLocateAb s
  | .nalLocateLp => Sys2Proof.Machine.execNalLocateLp s
  -- SPS rewriter, 45_sps_rewriter.md
  | .spsRewrite => Sys2Proof.Machine.execSpsRewrite s
  -- DCA scanner, 46_dca_scanner.md
  | .dcaScan f => Sys2Proof.Machine.execDcaScan f s
  | .dcaReset => Sys2Proof.Machine.execDcaReset s

end Sys2Proof.Machine
end

