-- ==== Sys2Proof/Decode.lean ====
section
/-! DEFINITION. Decoding a command word (30_encoding.md R100 to R105, 40_command_protocol.md R132), total on every 32-bit word, and
the encoder. -/

namespace Sys2Proof

/-- Why a word is no command, in the order of 40_command_protocol.md R132. All four end with ILLEGAL_COMMAND. -/
inductive DecodeError where
  /-- RSV = w[31:15] is not 0 (30_encoding.md R104 (a)). -/
  | reservedBits
  /-- OPC is not in the map (R104 (b)). -/
  | unknownOpcode
  /-- A field the row does not use is not 0 (R104 (c)). -/
  | unusedField
  /-- N > 32 for RD_BITS or WR_BITS (R104 (d)). -/
  | countTooLarge
  deriving DecidableEq, Repr

/-- The command a row of the opcode map gives, with the fields the row uses. -/
inductive RowShape where
  /-- The row uses neither N nor F. -/
  | plain (i : Instr)
  /-- The row uses N: RD_BITS when `write` is false, WR_BITS when it is true. -/
  | counted (write : Bool)
  /-- The row uses F: DCA_SCAN. -/
  | flagged
  deriving DecidableEq, Repr

/-- `OPC` = w[7:0] (R100). -/
def opcField (w : Word) : BitVec 8 := w.extractLsb' 0 8

/-- `N` = w[13:8], zero-extended (R102). -/
def nField (w : Word) : Nat := (w.extractLsb' 8 6).toNat

/-- `F` = w[14] (R102). -/
def fField (w : Word) : Bool := w.getLsbD 14

/-- `RSV` = w[31:15] (R100). -/
def rsvField (w : Word) : BitVec 17 := w.extractLsb' 15 17

/-- The opcode map of 30_encoding.md R103. -/
def opcodeMap : List (BitVec 8 × RowShape) :=
  [(0x01, .counted false), (0x02, .plain .rdBit), (0x03, .plain .rdUe), (0x04, .plain .rdSe),
   (0x11, .counted true), (0x12, .plain .wrBit), (0x13, .plain .wrUe), (0x14, .plain .wrSe),
   (0x15, .plain .wrAlignFlush), (0x21, .plain .nalUnescape), (0x22, .plain .nalEscape),
   (0x31, .plain .nalLocateAb), (0x32, .plain .nalLocateLp), (0x41, .plain .spsRewrite),
   (0x51, .flagged), (0x52, .plain .dcaReset)]

/-- The row of an opcode, if the map has one. -/
def rowOf (opc : BitVec 8) : Option RowShape := opcodeMap.lookup opc

/-- Checks 3 and 4 of R132 for a row, and the command it then gives. -/
def buildRow (row : RowShape) (n : Nat) (f : Bool) : Except DecodeError Instr :=
  match row with
  | .plain i => if n ≠ 0 ∨ f = true then .error .unusedField else .ok i
  | .counted write =>
    if f = true then .error .unusedField
    else if n > 32 then .error .countTooLarge
    else .ok (if write then .wrBits n else .rdBits n)
  | .flagged => if n ≠ 0 then .error .unusedField else .ok (.dcaScan f)

/-- The decoder, in the order of 40_command_protocol.md R132. -/
def decode (w : Word) : Except DecodeError Instr :=
  if rsvField w ≠ 0 then .error .reservedBits
  else match rowOf (opcField w) with
    | none => .error .unknownOpcode
    | some row => buildRow row (nField w) (fField w)

/-- The word of a command (30_encoding.md R107). -/
def encode : Instr → Word
  | .rdBits n => 0x01 ||| (BitVec.ofNat 32 n <<< 8)
  | .rdBit => 0x02
  | .rdUe => 0x03
  | .rdSe => 0x04
  | .wrBits n => 0x11 ||| (BitVec.ofNat 32 n <<< 8)
  | .wrBit => 0x12
  | .wrUe => 0x13
  | .wrSe => 0x14
  | .wrAlignFlush => 0x15
  | .nalUnescape => 0x21
  | .nalEscape => 0x22
  | .nalLocateAb => 0x31
  | .nalLocateLp => 0x32
  | .spsRewrite => 0x41
  | .dcaScan f => if f then 0x4051 else 0x51
  | .dcaReset => 0x52

/-- The (match, mask) columns of 30_encoding.md R103, in the table's order: "A word selects the command of a row when
`(word & mask) = match`". The decoder does not use this table; the claim `Obligations.DecoderFollowsMatchMaskTable` compares them. -/
def matchMaskTable : List (Word × Word) :=
  [(0x00000001, 0xFFFFC0FF), (0x00000002, 0xFFFFFFFF), (0x00000003, 0xFFFFFFFF), (0x00000004, 0xFFFFFFFF),
   (0x00000011, 0xFFFFC0FF), (0x00000012, 0xFFFFFFFF), (0x00000013, 0xFFFFFFFF), (0x00000014, 0xFFFFFFFF),
   (0x00000015, 0xFFFFFFFF), (0x00000021, 0xFFFFFFFF), (0x00000022, 0xFFFFFFFF), (0x00000031, 0xFFFFFFFF),
   (0x00000032, 0xFFFFFFFF), (0x00000041, 0xFFFFFFFF), (0x00000051, 0xFFFFBFFF), (0x00000052, 0xFFFFFFFF)]

/-- What the decoder reads from a table row's bits: one command word, whose bits above `nbits` are 0 (30_encoding.md R101: the unit of
decoding is the whole 32-bit word). -/
def decodeTableWord (nbits w : Nat) : Option Instr :=
  match decode (BitVec.ofNat 32 (w % 2 ^ nbits)) with
  | .ok i => some i
  | .error _ => none

end Sys2Proof
end

