-- ==== Sys2Proof/Machine/Flags.lean ====
section
/-! DEFINITION. The status words as software reads them. The block has no condition codes beyond STATUS (10_state.md R47); the ERR rule
is `codeIsError` in Ops. -/

namespace Sys2Proof.Machine

/-- The number of a completion code (60_exceptions.md R320). -/
def codeByte : Code → Byte
  | .ok => 0
  | .outOfRange => 1
  | .malformedSps => 2
  | .malformedFrameHeader => 3
  | .unsupportedConfiguration => 4
  | .notYetComplete => 5
  | .illegalCommand => 6
  | .noneFound => 7

/-- A flag as a bit of a word. -/
def flagBit (b : Bool) (i : Nat) : Word := if b then 1 <<< i else 0

/-- STATUS as a word (10_state.md R28): BUSY bit 0, ERR bit 1, CODE bits 15:8. -/
def statusWord (st : Status) : Word :=
  flagBit st.busy 0 ||| flagBit st.err 1 ||| ((codeByte st.code).zeroExtend 32 <<< 8)

/-- SPS_OVR as a word (10_state.md R37). -/
def spsOvrWord (o : SpsOvr) : Word :=
  flagBit o.levelSet 0 ||| flagBit o.fpsSet 1 ||| flagBit o.ffrSet 2 ||| flagBit o.ffrValue 3 ||| (o.level.zeroExtend 32 <<< 8)

/-- The fields of SPS_OVR a host write stores: bits 3:0 and 15:8 (10_state.md R37, R46). -/
def spsOvrOfWord (v : Word) : SpsOvr :=
  ⟨v.getLsbD 0, v.getLsbD 1, v.getLsbD 2, v.getLsbD 3, v.extractLsb' 8 8⟩

end Sys2Proof.Machine
end

