-- ==== Sys2Proof/Machine/HostPort.lean ====
section
/-! DEFINITION. The register block as the host sees it (10_state.md R23 to R46), the resets (70_reset_and_hazards.md R350, R351) and the
host's actions (30_encoding.md R108). -/

namespace Sys2Proof.Machine

/-- The registers of 10_state.md R24. -/
inductive Reg where
  | id
  | cmd
  | status
  | ctrl
  | arg0
  | res0
  | res1
  | res2
  | brBase
  | brLen
  | brPos
  | bwBase
  | bwCap
  | bwPos
  | bwAcc
  | srcBase
  | srcLen
  | dstBase
  | dstCap
  | locCursor
  | spsOvr
  | spsFpsNum
  | spsFpsDen
  | profileAllow (i : Fin 8)
  | dcaWinLo
  | dcaWinHi
  | dcaPhase
  | dcaLock
  | dcaCount
  | dcaFsize
  | dcaStart
  deriving DecidableEq, Repr

/-- The register map (10_state.md R24): offset and register. -/
def registerMap : List (Nat × Reg) :=
  [(0x000, .id), (0x004, .cmd), (0x008, .status), (0x00C, .ctrl), (0x010, .arg0), (0x014, .res0), (0x018, .res1), (0x01C, .res2),
   (0x020, .brBase), (0x024, .brLen), (0x028, .brPos), (0x030, .bwBase), (0x034, .bwCap), (0x038, .bwPos), (0x03C, .bwAcc),
   (0x040, .srcBase), (0x044, .srcLen), (0x048, .dstBase), (0x04C, .dstCap), (0x050, .locCursor),
   (0x060, .spsOvr), (0x064, .spsFpsNum), (0x068, .spsFpsDen)] ++
  [(0x080, .profileAllow 0), (0x084, .profileAllow 1), (0x088, .profileAllow 2), (0x08C, .profileAllow 3),
   (0x090, .profileAllow 4), (0x094, .profileAllow 5), (0x098, .profileAllow 6), (0x09C, .profileAllow 7),
   (0x0A0, .dcaWinLo), (0x0A4, .dcaWinHi), (0x0A8, .dcaPhase), (0x0AC, .dcaLock), (0x0B0, .dcaCount), (0x0B4, .dcaFsize),
   (0x0B8, .dcaStart)]

/-- The register at an offset; none at a reserved offset (10_state.md R25). -/
def regAt (offset : Nat) : Option Reg := registerMap.lookup offset

/-- The constant of ID (10_state.md R26). -/
def idWord : Word := 0x434F5245

/-- What a read of a register gives (10_state.md R24 to R46). -/
def readReg (r : Regs) : Reg → Word
  | .id => idWord
  | .cmd => r.cmd
  | .status => statusWord r.status
  | .ctrl => 0
  | .arg0 => r.arg0
  | .res0 => r.res0
  | .res1 => r.res1
  | .res2 => r.res2
  | .brBase => r.brBase
  | .brLen => r.brLen.zeroExtend 32
  | .brPos => r.brPos
  | .bwBase => r.bwBase
  | .bwCap => r.bwCap.zeroExtend 32
  | .bwPos => r.bwPos
  | .bwAcc => r.bwAcc.zeroExtend 32
  | .srcBase => r.srcBase
  | .srcLen => r.srcLen.zeroExtend 32
  | .dstBase => r.dstBase
  | .dstCap => r.dstCap.zeroExtend 32
  | .locCursor => r.locCursor.zeroExtend 32
  | .spsOvr => spsOvrWord r.spsOvr
  | .spsFpsNum => r.spsFpsNum
  | .spsFpsDen => r.spsFpsDen
  | .profileAllow i => r.profileAllow[i]
  | .dcaWinLo => r.dca.win.extractLsb' 0 32
  | .dcaWinHi => r.dca.win.extractLsb' 32 32
  | .dcaPhase => r.dca.phase.zeroExtend 32
  | .dcaLock => r.dca.lock.zeroExtend 32
  | .dcaCount => r.dca.count
  | .dcaFsize => r.dca.fsize
  | .dcaStart => r.dca.start

/-- What a write stores in a register that only stores (10_state.md R30 to R46): the read-only registers ignore it (R24), a write of
BW_POS clears BW_ACC (R33), narrow registers truncate (R46). CMD and CTRL act and are not here. -/
def storeReg (r : Regs) (v : Word) : Reg → Regs
  | .id => r
  | .cmd => r
  | .status => r
  | .ctrl => r
  | .arg0 => { r with arg0 := v }
  | .res0 => r
  | .res1 => r
  | .res2 => r
  | .brBase => { r with brBase := v }
  | .brLen => { r with brLen := v.setWidth 29 }
  | .brPos => { r with brPos := v }
  | .bwBase => { r with bwBase := v }
  | .bwCap => { r with bwCap := v.setWidth 29 }
  | .bwPos => { r with bwPos := v, bwAcc := 0 }
  | .bwAcc => r
  | .srcBase => { r with srcBase := v }
  | .srcLen => { r with srcLen := v.setWidth 29 }
  | .dstBase => { r with dstBase := v }
  | .dstCap => { r with dstCap := v.setWidth 29 }
  | .locCursor => { r with locCursor := v.setWidth 29 }
  | .spsOvr => { r with spsOvr := spsOvrOfWord v }
  | .spsFpsNum => { r with spsFpsNum := v }
  | .spsFpsDen => { r with spsFpsDen := v }
  | .profileAllow i => { r with profileAllow := r.profileAllow.set i v }
  | .dcaWinLo => { r with dca := { r.dca with win := r.dca.win.extractLsb' 32 32 ++ v } }
  | .dcaWinHi => { r with dca := { r.dca with win := v ++ r.dca.win.extractLsb' 0 32 } }
  | .dcaPhase => { r with dca := { r.dca with phase := v.setWidth 3 } }
  | .dcaLock => { r with dca := { r.dca with lock := v.setWidth 3 } }
  | .dcaCount => { r with dca := { r.dca with count := v } }
  | .dcaFsize => { r with dca := { r.dca with fsize := v } }
  | .dcaStart => { r with dca := { r.dca with start := v } }

/-- Hardware reset (70_reset_and_hazards.md R350): every register at its reset value, a pending command discarded, host memory as it
is, the refused mark as it is. -/
def hardReset (s : State) : State := { s with regs := Regs.reset, engine := .idle }

/-- The write range of the command in progress, if there is one (20_memory.md R71); an illegal word has none (log entry 14). -/
def abandonedRange (s : State) : Option Range :=
  match wordInProgress s.engine with
  | none => none
  | some w => match decode w with
    | .error _ => none
    | .ok i => writeRange s.regs i

/-- Soft reset (70_reset_and_hazards.md R351): as hardware reset, and the write range of a command in progress becomes unspecified. -/
def softReset (s : State) : State :=
  match abandonedRange s with
  | none => hardReset s
  | some q => hardReset (unspecify s q.base q.len)

/-- The refused mark is set and the access has no effect (20_memory.md R77, 40_command_protocol.md R133). -/
def refuse (s : State) : State := { s with refusedMark := true }

/-- A write of CTRL (10_state.md R29): bit 0 is SOFT_RESET. -/
def writeCtrl (s : State) (v : Word) : State := if v.getLsbD 0 then softReset s else s

/-- A register write while idle (10_state.md R24, R25, R27): CMD launches, a reserved offset ignores the write. -/
def writeIdle (s : State) (v : Word) : Option Reg → State
  | some .cmd => launch s v
  | some r => { s with regs := storeReg s.regs v r }
  | none => s

/-- An aligned 32-bit register write at an offset (10_state.md R29, 40_command_protocol.md R130, R133): CTRL is always accepted, any
other offset is refused while BUSY = 1 (reserved offsets too: log entry 8). -/
def writeOffset (s : State) (offset : Nat) (v : Word) : State :=
  if regAt offset = some .ctrl then writeCtrl s v
  else if s.regs.status.busy then refuse s
  else writeIdle s v (regAt offset)

/-- What an aligned 32-bit read at an offset gives (10_state.md R24, R25): 0 at a reserved offset. -/
def readOffset (r : Regs) (offset : Nat) : Word := match regAt offset with | some x => readReg r x | none => 0

/-- The offset of a host address from `MMIO_BASE` (10_state.md R23). -/
def offsetOf (p : Platform) (addr : Word) : Nat := (addr - p.mmioBase).toNat

/-- Where a bus access of `width` bytes at an address goes (10_state.md R23, 20_memory.md R77). -/
inductive Target where
  /-- An aligned 32-bit access at an offset of the register block. -/
  | register (offset : Nat)
  /-- An access that touches the register block and is not an aligned 32-bit word: refused. -/
  | misfit
  /-- No byte of the access lies in the register block: it is no access of this block (log entry 4). -/
  | elsewhere
  deriving DecidableEq, Repr

/-- The number of bytes of the register block (10_state.md R23). -/
def blockSize : Nat := 256

/-- Where a bus access goes. -/
def target (p : Platform) (addr : Word) (width : Nat) : Target :=
  if offsetOf p addr < blockSize ∧ width = 4 ∧ offsetOf p addr % 4 = 0 then .register (offsetOf p addr)
  else if (List.range width).any (fun k => decide (offsetOf p (addr + BitVec.ofNat 32 k) < blockSize)) then .misfit
  else .elsewhere

/-- SET (30_encoding.md R108). -/
def hostWrite (s : State) (addr : Word) (width : Nat) (v : Word) : State :=
  match target s.platform addr width with
  | .register offset => writeOffset s offset v
  | .misfit => refuse s
  | .elsewhere => s

/-- GET (30_encoding.md R108): the value joins what the host has observed; a refused read returns nothing (log entry 10). -/
def hostRead (s : State) (addr : Word) (width : Nat) : State :=
  match target s.platform addr width with
  | .register offset => { s with observed := readOffset s.regs offset :: s.observed }
  | .misfit => refuse s
  | .elsewhere => s

/-- A byte of the command in progress lies in [a, a + n) (70_reset_and_hazards.md R362). -/
def racesCommand (s : State) (a n : Nat) : Bool :=
  s.regs.status.busy &&
  (match wordInProgress s.engine with
   | none => false
   | some w => match decode w with
     | .error _ => false
     | .ok i => (List.range n).any fun k => touches s.regs i (a + k))

/-- A host access of n bytes of host memory at a: past the last address there is no byte, and a byte of the command in progress is no
move of the host's (20_memory.md R70, 70_reset_and_hazards.md R362; log entries 11 and 19). `MEM_ADMIT` is not consulted: R78 speaks of
the engine's accesses only. DESIGN CHOICE, log entry 21. -/
def hostMemory (s : State) (a n : Nat) (t : State) : Host.Outcome State Fault Refusal :=
  if addressSpace < a + n then .fault .outsideAddressSpace
  else if racesCommand s a n then .fault .bufferRace
  else .next t

/-- A host action (30_encoding.md R108). -/
def hostMove (a : HostAction) (s : State) : Host.Outcome State Fault Refusal :=
  match a with
  | .regWrite addr width v => .next (hostWrite s addr width v)
  | .regRead addr width => .next (hostRead s addr width)
  | .poke addr bytes => hostMemory s addr.toNat bytes.length { s with mem := s.mem.writeList addr.toNat bytes }
  | .peek addr n =>
    hostMemory s addr.toNat n
      { s with observed := ((s.mem.readList addr.toNat n).map fun b => b.zeroExtend 32).reverse ++ s.observed }
  | .hardwareReset => .next (hardReset s)

/-! ### The host's pseudo-instructions -/

/-- `SET REG, v`, the register named by its offset (30_encoding.md R108). -/
def setReg (p : Platform) (offset : Nat) (v : Word) : List Move :=
  [.host (.regWrite (p.mmioBase + BitVec.ofNat 32 offset) 4 v)]

/-- `GET REG`, the register named by its offset (30_encoding.md R108). -/
def getReg (p : Platform) (offset : Nat) : List Move := [.host (.regRead (p.mmioBase + BitVec.ofNat 32 offset) 4)]

/-- `DO cmd`: the write of CMD, and then WAIT (30_encoding.md R108). -/
def doCommand (p : Platform) (w : Word) : List Move := setReg p 0x004 w ++ [.wait]

end Sys2Proof.Machine
end

