-- ==== Sys2Proof/Machine/Step.lean ====
section
/-! DEFINITION. One step of the machine: the next move of the host's program, or the engine's turn when the program has no more moves
(40_command_protocol.md R131, 70_reset_and_hazards.md R367, R369). -/

namespace Sys2Proof.Machine

/-- The engine's turn (40_command_protocol.md R131): a pending word is decoded and run; an idle or stuck engine does nothing
(60_exceptions.md R334, R340). -/
def engineTurn (s : State) : Host.Outcome State Fault Refusal :=
  match pendingWord s.engine with
  | none => .next s
  | some w => match decode w with
    | .ok i => exec i s
    | .error _ => execIllegal s

/-- One step: the program's next move; when no move is left, the engine's turn, so that a pending command is run in the end (R367, weak
fairness; log entries 1 and 2). While BUSY = 1 a waiting host lets the engine take its turn and goes on waiting (30_encoding.md R108). -/
def step (s : State) : Host.Outcome State Fault Refusal :=
  match s.program with
  | [] => engineTurn s
  | .engine :: rest => engineTurn { s with program := rest }
  | .wait :: rest => if s.regs.status.busy then engineTurn s else .next { s with program := rest }
  | .host a :: rest => hostMove a { s with program := rest }

/-- The state in which the next step runs a command word: the word has just been launched by a write of CMD
(40_command_protocol.md R130), and the engine's turn is the next move of the program. -/
def State.withFetchWord (s : State) (nbits w : Nat) : State :=
  { launch s (BitVec.ofNat 32 (w % 2 ^ nbits)) with
    program := match s.program with
      | [] => []
      | m :: ms => .engine :: m :: ms }

end Sys2Proof.Machine
end

