-- ==== Sys2Proof/Safety.lean ====
section
/-! DEFINITION. What holds of every state a run reaches, and when a run has ended: the terms claims are stated in. -/

namespace Sys2Proof.Machine

/-- BW_ACC holds the bits already written and zeros after them (10_state.md R34): its bits `7 − (BW_POS mod 8)` down to 0 are 0, all
eight of them at a byte boundary. -/
def accOk (r : Regs) : Bool := decide (r.bwAcc.toNat % 2 ^ (8 - r.bwPos.toNat % 8) = 0)

/-- STATUS is one the command protocol leaves (10_state.md R28, 60_exceptions.md R320, R324): ERR says that CODE is an error, and code 3
is never produced. -/
def statusOk (st : Status) : Bool := (st.err == codeIsError st.code) && decide (st.code ≠ .malformedFrameHeader)

/-- BUSY is 1 exactly while a command is in progress, and its word is in CMD (10_state.md R27, R28, R49). -/
def engineOk (s : State) : Bool :=
  match wordInProgress s.engine with
  | none => !s.regs.status.busy
  | some w => s.regs.status.busy && decide (s.regs.cmd = w)

/-- The invariant of the machine: canonical memory, a partial byte of the writer's that is zero-filled, a STATUS the protocol leaves,
and BUSY as the engine says. -/
def State.inv (s : State) : Bool := s.mem.wf && accOk s.regs && statusOk s.regs.status && engineOk s

/-- The run is over: no move is left and STATUS.BUSY = 0 (70_reset_and_hazards.md R369). A run with the refused mark set has no end
state. -/
def State.ended (s : State) : Bool := s.program.isEmpty && !s.regs.status.busy && !s.refusedMark

end Sys2Proof.Machine
end

