-- ==== Sys2Proof/Certificates/Slice0/Claims.lean ====
section
/-! DEFINITION. The terms of the statements: the spec's formulas written a second time, apart from the model's own functions, on natural
numbers wherever the spec's arithmetic is on mathematical integers (00_scope.md R9). -/

namespace Sys2Proof.Claims

open Sys2Proof.Machine

/-! ### Bits, ranges, ends of commands -/

/-- `Bit(base, p) = (M[base + p div 8] >> (7 − p mod 8)) & 1` (00_scope.md R11). -/
def specBit (m : Memory) (base p : Nat) : Nat := ((m.read (base + p / 8)).toNat >>> (7 - p % 8)) &&& 1

/-- `Bits(base, p, n) = Σ Bit(base, p + i) · 2^(n−1−i)` (00_scope.md R11). -/
def specBits (m : Memory) (base p n : Nat) : Nat := ∑ i ∈ Finset.range n, specBit m base (p + i) * 2 ^ (n - 1 - i)

/-- The range [a, a + n) is well-formed: a + n ≤ 2^32 (20_memory.md R72). -/
def inSpace (a n : Nat) : Prop := a + n ≤ 2 ^ 32

/-- The platform admits every byte of [a, a + n) (20_memory.md R78). -/
def admitted (s : State) (a n : Nat) : Prop := ∀ k < n, admits s.platform (a + k) = true

/-- `s` after a success commit with code OK (40_command_protocol.md R135) that leaves the registers `r` and the memory `m`. -/
def okState (s : State) (r : Regs) (m : Memory) : State :=
  { s with regs := { r with status := ⟨false, false, .ok⟩ }, mem := m, engine := .idle }

/-- `s` after a success commit with an information code, NOT_YET_COMPLETE or NONE (40_command_protocol.md R135). -/
def infoState (s : State) (r : Regs) (c : Code) : State :=
  { s with regs := { r with status := ⟨false, false, c⟩ }, engine := .idle }

/-- `s` after a failure commit: nothing but STATUS changes, and no command is pending (40_command_protocol.md R136). -/
def errorState (s : State) (c : Code) : State :=
  { s with regs := { s.regs with status := ⟨false, true, c⟩ }, engine := .idle }

/-- `t` is `s` after a failure commit that leaves the bytes of [a, a + n) unspecified and every other byte as it was
(40_command_protocol.md R136). -/
def FailedDst (s t : State) (c : Code) (a n : Nat) : Prop :=
  t = { errorState s c with mem := t.mem, freeCount := t.freeCount } ∧
  ∀ b, b < a ∨ a + n ≤ b → t.mem.read b = s.mem.read b

/-- Source and destination are well-formed and share no byte (20_memory.md R72, R82). -/
def UsableBuffers (r : Regs) : Prop :=
  inSpace r.srcBase.toNat r.srcLen.toNat ∧ inSpace r.dstBase.toNat r.dstCap.toNat ∧
  (r.srcLen.toNat = 0 ∨ r.dstCap.toNat = 0 ∨ r.srcBase.toNat + r.srcLen.toNat ≤ r.dstBase.toNat ∨
    r.dstBase.toNat + r.dstCap.toNat ≤ r.srcBase.toNat)

/-- A byte that holds one of the m stream bits from bit p of the buffer at base on is not admitted (00_scope.md R11, 20_memory.md R78). -/
def BitsBlocked (s : State) (base p m : Nat) : Prop := ∃ i < m, admits s.platform (base + (p + i) / 8) = false

/-- `s` with the engine stuck (20_memory.md R78, 60_exceptions.md R334). -/
def stuckState (s : State) : State := { s with engine := .stuck s.regs.cmd }

/-- The command can write the byte at `a` (20_memory.md R71, the column "writes"). -/
def MayWrite (r : Regs) (a : Nat) : Instr → Prop
  | .wrBits _ | .wrBit | .wrUe | .wrSe | .wrAlignFlush => r.bwBase.toNat ≤ a ∧ a < r.bwBase.toNat + r.bwCap.toNat
  | .nalUnescape | .nalEscape | .spsRewrite => r.dstBase.toNat ≤ a ∧ a < r.dstBase.toNat + r.dstCap.toNat
  | .rdBits _ | .rdBit | .rdUe | .rdSe | .nalLocateAb | .nalLocateLp | .dcaScan _ | .dcaReset => False

/-- The command can read the byte at `a` (20_memory.md R71, the column "reads"). -/
def MayRead (r : Regs) (a : Nat) : Instr → Prop
  | .rdBits _ | .rdBit | .rdUe | .rdSe => r.brBase.toNat ≤ a ∧ a < r.brBase.toNat + r.brLen.toNat
  | .nalUnescape | .nalEscape | .spsRewrite | .nalLocateAb | .nalLocateLp | .dcaScan _ =>
    r.srcBase.toNat ≤ a ∧ a < r.srcBase.toNat + r.srcLen.toNat
  | .wrBits _ | .wrBit | .wrUe | .wrSe | .wrAlignFlush | .dcaReset => False

/-- A host access of the n bytes from a on ends by 2^32, and while BUSY = 1 touches no byte of the command in progress (20_memory.md R70,
70_reset_and_hazards.md R362). -/
def HostMayAccess (s : State) (a n : Nat) : Prop :=
  inSpace a n ∧
  (s.regs.status.busy = false ∨ ∀ w i, s.engine = .pending w ∨ s.engine = .stuck w → decode w = .ok i →
    ∀ k < n, ¬ MayRead s.regs (a + k) i ∧ ¬ MayWrite s.regs (a + k) i)

/-- The buffer ranges of a command, as base and length (40_command_protocol.md R134). -/
def bufferRanges (r : Regs) : Instr → List (Nat × Nat)
  | .rdBits _ | .rdBit | .rdUe | .rdSe => [(r.brBase.toNat, r.brLen.toNat)]
  | .wrBits _ | .wrBit | .wrUe | .wrSe | .wrAlignFlush => [(r.bwBase.toNat, r.bwCap.toNat)]
  | .nalUnescape | .nalEscape | .spsRewrite => [(r.srcBase.toNat, r.srcLen.toNat), (r.dstBase.toNat, r.dstCap.toNat)]
  | .nalLocateAb | .nalLocateLp | .dcaScan _ => [(r.srcBase.toNat, r.srcLen.toNat)]
  | .dcaReset => []

/-- Commands that leave memory alone when they fail (40_command_protocol.md R136): all but NAL_UNESCAPE, NAL_ESCAPE and SPS_REWRITE. -/
def keepsMemoryOnFailure : Instr → Bool
  | .nalUnescape | .nalEscape | .spsRewrite => false
  | .rdBits _ | .rdBit | .rdUe | .rdSe | .wrBits _ | .wrBit | .wrUe | .wrSe | .wrAlignFlush | .nalLocateAb | .nalLocateLp
  | .dcaScan _ | .dcaReset => true

/-! ### Decoding -/

/-- A word selects a row of the opcode map, and N ≤ 32 when the row is RD_BITS or WR_BITS (30_encoding.md R103, R104). -/
def legalWord (w : Word) : Prop :=
  (∃ row ∈ matchMaskTable, w &&& row.2 = row.1) ∧
  (w &&& 0xFF = 0x01 ∨ w &&& 0xFF = 0x11 → ((w >>> 8) &&& 0x3F).toNat ≤ 32)

/-- The word meets one of (a) to (d) of 30_encoding.md R104, with OPC = w mod 2^8, N = w div 2^8 mod 2^6, F = w div 2^14 mod 2 and
RSV = w div 2^15. -/
def IllegalWord (w : Word) : Prop :=
  w.toNat / 2 ^ 15 ≠ 0 ∨
  w.toNat % 2 ^ 8 ∉ [0x01, 0x02, 0x03, 0x04, 0x11, 0x12, 0x13, 0x14, 0x15, 0x21, 0x22, 0x31, 0x32, 0x41, 0x51, 0x52] ∨
  (w.toNat / 2 ^ 8 % 2 ^ 6 ≠ 0 ∧ w.toNat % 2 ^ 8 ∉ [0x01, 0x11]) ∨
  (w.toNat / 2 ^ 14 % 2 ≠ 0 ∧ w.toNat % 2 ^ 8 ≠ 0x51) ∨
  (w.toNat % 2 ^ 8 ∈ [0x01, 0x11] ∧ 32 < w.toNat / 2 ^ 8 % 2 ^ 6)

/-! ### BitReader -/

/-- The reader's buffer is well-formed and admitted, and its position is not past its end (41_bitreader.md R150, R151). -/
def ReaderReady (s : State) : Prop :=
  inSpace s.regs.brBase.toNat s.regs.brLen.toNat ∧ s.regs.brPos.toNat ≤ 8 * s.regs.brLen.toNat ∧
  admitted s s.regs.brBase.toNat s.regs.brLen.toNat

/-- `s` after a reader command that read `v` and moved to `pos` (41_bitreader.md R150). -/
def readState (s : State) (v : Word) (pos : Nat) : State :=
  okState s { s.regs with res0 := v, brPos := BitVec.ofNat 32 pos } s.mem

/-- A whole Exp-Golomb code with prefix length k ≤ 31 stands at the reader's position (41_bitreader.md R155). -/
def GolombAt (s : State) (k : Nat) : Prop :=
  k ≤ 31 ∧ s.regs.brPos.toNat + 2 * k + 1 ≤ 8 * s.regs.brLen.toNat ∧
  (∀ i < k, specBit s.mem s.regs.brBase.toNat (s.regs.brPos.toNat + i) = 0) ∧
  specBit s.mem s.regs.brBase.toNat (s.regs.brPos.toNat + k) = 1

/-- The code number of that code: 2^k − 1 + s (00_scope.md R12). -/
def golombNumber (s : State) (k : Nat) : Nat :=
  2 ^ k - 1 + specBits s.mem s.regs.brBase.toNat (s.regs.brPos.toNat + k + 1) k

/-- The signed value of code number c: (−1)^(c+1) · ceil(c/2) (00_scope.md R12). -/
def signedOf (c : Nat) : Int := (-1) ^ (c + 1) * (((c + 1) / 2 : Nat) : Int)

/-- No whole code with a prefix of at most 31 zeros stands at the reader's position: the zero run reaches the end, or has 32 zeros, or
fewer than k suffix bits remain (41_bitreader.md R155). -/
def GolombFails (s : State) : Prop :=
  (∀ p, s.regs.brPos.toNat ≤ p → p < 8 * s.regs.brLen.toNat → specBit s.mem s.regs.brBase.toNat p = 0) ∨
  (s.regs.brPos.toNat + 32 ≤ 8 * s.regs.brLen.toNat ∧
    ∀ i < 32, specBit s.mem s.regs.brBase.toNat (s.regs.brPos.toNat + i) = 0) ∨
  (∃ k ≤ 31, (∀ i < k, specBit s.mem s.regs.brBase.toNat (s.regs.brPos.toNat + i) = 0) ∧
    s.regs.brPos.toNat + k < 8 * s.regs.brLen.toNat ∧
    specBit s.mem s.regs.brBase.toNat (s.regs.brPos.toNat + k) = 1 ∧
    8 * s.regs.brLen.toNat < s.regs.brPos.toNat + 2 * k + 1)

/-! ### BitWriter -/

/-- The writer's buffer is well-formed and admitted; memory and the partial byte are as the machine's invariant says
(42_bitwriter.md R170, 10_state.md R34). -/
def WriterReady (s : State) : Prop :=
  inSpace s.regs.bwBase.toNat s.regs.bwCap.toNat ∧ admitted s s.regs.bwBase.toNat s.regs.bwCap.toNat ∧
  accOk s.regs = true ∧ s.mem.wf = true

/-- The writer has room for m more bits (42_bitwriter.md R172). -/
def HasRoom (s : State) (m : Nat) : Prop := s.regs.bwPos.toNat + m ≤ 8 * s.regs.bwCap.toNat

/-- `t` is `s` after the emit of m stream bits b 0, b 1, … (42_bitwriter.md R171): BW_POS advances by m; the bytes that hold an emitted
bit hold the earlier bits of the partial byte, then the emitted bits, then zeros; no other byte changes; BW_ACC is the partial byte. -/
def Emitted (s t : State) (m : Nat) (b : Nat → Bool) : Prop :=
  t = okState s { s.regs with bwPos := BitVec.ofNat 32 (s.regs.bwPos.toNat + m), bwAcc := t.regs.bwAcc } t.mem ∧
  (m ≠ 0 → ∀ p, 8 * (s.regs.bwPos.toNat / 8) ≤ p → p < 8 * ((s.regs.bwPos.toNat + m + 7) / 8) →
    specBit t.mem s.regs.bwBase.toNat p =
      if p < s.regs.bwPos.toNat then (s.regs.bwAcc.getLsbD (7 - p % 8)).toNat
      else if p < s.regs.bwPos.toNat + m then (b (p - s.regs.bwPos.toNat)).toNat
      else 0) ∧
  (∀ a, m = 0 ∨ a < s.regs.bwBase.toNat + s.regs.bwPos.toNat / 8 ∨
      s.regs.bwBase.toNat + (s.regs.bwPos.toNat + m + 7) / 8 ≤ a → t.mem.read a = s.mem.read a) ∧
  t.regs.bwAcc =
    (if (s.regs.bwPos.toNat + m) % 8 = 0 then 0
     else if m = 0 then s.regs.bwAcc
     else t.mem.read (s.regs.bwBase.toNat + (s.regs.bwPos.toNat + m) / 8))

/-- Bit i of the code of code number c with prefix length k: k zeros, then x[k], …, x[0] of x = c + 1 (42_bitwriter.md R177). -/
def golombBit (c k i : Nat) : Bool := decide (k ≤ i) && (c + 1).testBit (2 * k - i)

/-- k = floor(log2(c + 1)) (42_bitwriter.md R176). -/
def IsPrefix (c k : Nat) : Prop := 2 ^ k ≤ c + 1 ∧ c + 1 < 2 ^ (k + 1)

/-- The code number WR_SE writes for a signed value: 2v − 1 or −2v (42_bitwriter.md R178). -/
def codeOf (v : Int) : Nat := if v > 0 then (2 * v - 1).toNat else (-(2 * v)).toNat

/-! ### NAL codec -/

/-- NAL_UNESCAPE as a function of the input bytes, with z zero bytes just emitted (43_nal_codec.md R191). -/
def unescapeFrom : Nat → List Byte → List Byte
  | _, [] => []
  | z, b :: bs =>
    if z ≥ 2 ∧ b = 0x03 then unescapeFrom 0 bs
    else b :: unescapeFrom (if b = 0x00 then min (z + 1) 2 else 0) bs

/-- NAL_ESCAPE as a function of the input bytes, with z zero bytes just emitted (43_nal_codec.md R194). -/
def escapeFrom : Nat → List Byte → List Byte
  | _, [] => []
  | z, b :: bs =>
    if z ≥ 2 ∧ b.toNat ≤ 3 then 0x03 :: b :: escapeFrom (if b = 0x00 then 1 else 0) bs
    else b :: escapeFrom (if b = 0x00 then min (z + 1) 2 else 0) bs

/-- The input bytes (43_nal_codec.md R190). -/
def sourceBytes (s : State) : List Byte := (List.range s.regs.srcLen.toNat).map fun i => s.mem.read (s.regs.srcBase.toNat + i)

/-- Source and destination are well-formed, admitted and do not overlap; memory is canonical (43_nal_codec.md R190). -/
def CodecReady (s : State) : Prop :=
  UsableBuffers s.regs ∧
  admitted s s.regs.srcBase.toNat s.regs.srcLen.toNat ∧ admitted s s.regs.dstBase.toNat s.regs.dstCap.toNat ∧
  s.mem.wf = true

/-- `t` is `s` after a codec command with this output: RES0 is its length, its bytes stand at DST_BASE, no other byte changes
(43_nal_codec.md R190). -/
def Wrote (s t : State) (out : List Byte) : Prop :=
  t = okState s { s.regs with res0 := BitVec.ofNat 32 out.length } t.mem ∧
  (∀ j (h : j < out.length), t.mem.read (s.regs.dstBase.toNat + j) = out[j]) ∧
  ∀ a, a < s.regs.dstBase.toNat ∨ s.regs.dstBase.toNat + out.length ≤ a → t.mem.read a = s.mem.read a

/-! ### NAL locator -/

/-- `buf[i]` (44_nal_locator.md R210). -/
def buf (s : State) (i : Nat) : Nat := (s.mem.read (s.regs.srcBase.toNat + i)).toNat

/-- The source is well-formed and admitted (44_nal_locator.md R210). -/
def SourceReady (s : State) : Prop :=
  inSpace s.regs.srcBase.toNat s.regs.srcLen.toNat ∧ admitted s s.regs.srcBase.toNat s.regs.srcLen.toNat

/-- A start code 00 00 01 stands at offset i (44_nal_locator.md R211). -/
def StartCodeAt (s : State) (i : Nat) : Prop := buf s i = 0 ∧ buf s (i + 1) = 0 ∧ buf s (i + 2) = 1

/-- The 4-byte big-endian size field at offset c (44_nal_locator.md R215). -/
def sizeAtCursor (s : State) (c : Nat) : Nat :=
  buf s c * 2 ^ 24 + buf s (c + 1) * 2 ^ 16 + buf s (c + 2) * 2 ^ 8 + buf s (c + 3)

/-- `s` after a locator command that found a unit whose header byte is at offset h (44_nal_locator.md R210). -/
def foundState (s : State) (h size next : Nat) : State :=
  okState s { s.regs with res0 := BitVec.ofNat 32 (buf s h % 32), res1 := BitVec.ofNat 32 h, res2 := BitVec.ofNat 32 size,
                          locCursor := BitVec.ofNat 29 next } s.mem

/-! ### SPS grammar, read only -/

/-- A bit string in memory (45_sps_rewriter.md R232), with the parameters `HIGH_PROFILE`, `SL_COUNT` and `SL_SIZE` (00_scope.md R7). -/
structure BitInput where
  mem         : Memory
  base        : Nat
  limit       : Nat
  highProfile : Nat → Bool
  slCount     : Nat → Nat
  slSize      : Nat → Nat

/-- Reading fields one after another: the position, or nothing when the input runs out. -/
abbrev Parse (α : Type) := StateT Nat Option α

/-- A field u(n) (41_bitreader.md R152). -/
def pU (x : BitInput) (n : Nat) : Parse Nat := fun p =>
  if p + n ≤ x.limit then some (specBits x.mem x.base p n, p + n) else none

/-- A field ue (41_bitreader.md R155): k is the number of zeros before the first one bit, at most 31. -/
def pUe (x : BitInput) : Parse Nat := fun p =>
  match (List.range 32).find? (fun k => decide (p + k < x.limit) && (specBit x.mem x.base (p + k) == 1)) with
  | none => none
  | some k =>
    if p + 2 * k + 1 ≤ x.limit then some (2 ^ k - 1 + specBits x.mem x.base (p + k + 1) k, p + 2 * k + 1) else none

/-- A field se (41_bitreader.md R157). -/
def pSe (x : BitInput) : Parse Int := do
  let c ← pUe x
  pure (signedOf c)

/-- Fields that are present only when a condition holds. -/
def pIf (b : Bool) (part : Parse Unit) : Parse Unit := if b then part else pure ()

/-- Fields repeated n times. -/
def pTimes : Nat → Parse Unit → Parse Unit
  | 0, _ => pure ()
  | n + 1, part => do
    part
    pTimes n part

/-- Fields u(n) one after another, by their widths. -/
def pSkip (x : BitInput) : List Nat → Parse Unit
  | [] => pure ()
  | n :: ns => do
    let _ ← pU x n
    pSkip x ns

/-- n fields ue one after another. -/
def pSkipUe (x : BitInput) (n : Nat) : Parse Unit := pTimes n (do let _ ← pUe x; pure ())

/-- The deltas of one scaling list (45_sps_rewriter.md R238). -/
def pScaling (x : BitInput) : Nat → Int → Int → Parse Unit
  | 0, _, _ => pure ()
  | n + 1, last, next =>
    if next = 0 then pScaling x n last 0
    else do
      let d ← pSe x
      let next' := (last + d + 256) % 256
      pScaling x n (if next' = 0 then last else next') next'

/-- The scaling lists i to i + n − 1 (45_sps_rewriter.md R237). -/
def pScalingLists (x : BitInput) : Nat → Nat → Parse Unit
  | 0, _ => pure ()
  | n + 1, i => do
    let present ← pU x 1
    pIf (present == 1) (pScaling x (x.slSize i) 8 8)
    pScalingLists x n (i + 1)

/-- The High-profile block (45_sps_rewriter.md R237). -/
def pHigh (x : BitInput) : Parse Unit := do
  let cfi ← pUe x
  pIf (cfi == 3) (pSkip x [1])
  pSkipUe x 2
  pSkip x [1]
  let matrix ← pU x 1
  pIf (matrix == 1) (pScalingLists x (x.slCount cfi) 0)

/-- Picture order count (45_sps_rewriter.md R239). -/
def pPoc (x : BitInput) : Parse Unit := do
  let t ← pUe x
  pIf (t == 0) (pSkipUe x 1)
  pIf (t == 1) (do
    pSkip x [1]
    pSkipUe x 2
    let m ← pUe x
    pSkipUe x m)

/-- `hrd_parameters()` (45_sps_rewriter.md R249). -/
def pHrd (x : BitInput) : Parse Unit := do
  let cc ← pUe x
  pSkip x [4, 4]
  pTimes (cc + 1) (do pSkipUe x 2; pSkip x [1])
  pSkip x [5, 5, 5, 5]

/-- Rows V1 to V10 of `vui_parameters()` (45_sps_rewriter.md R242). -/
def pVuiDisplay (x : BitInput) : Parse Unit := do
  let aspect ← pU x 1
  pIf (aspect == 1) (do let idc ← pU x 8; pIf (idc == 255) (pSkip x [16, 16]))
  let overscan ← pU x 1
  pIf (overscan == 1) (pSkip x [1])
  let signal ← pU x 1
  pIf (signal == 1) (do pSkip x [3, 1]; let colour ← pU x 1; pIf (colour == 1) (pSkip x [8, 8, 8]))
  let chroma ← pU x 1
  pIf (chroma == 1) (pSkipUe x 2)

/-- `vui_parameters()` (45_sps_rewriter.md R242): the bit position of `num_units_in_tick`, if the timing fields are present. -/
def pVui (x : BitInput) : Parse (Option Nat) := do
  pVuiDisplay x
  let timing ← pU x 1
  let here ← get
  pIf (timing == 1) (pSkip x [32, 32, 1])
  let nh ← pU x 1
  pIf (nh == 1) (pHrd x)
  let vh ← pU x 1
  pIf (vh == 1) (pHrd x)
  pIf (nh == 1 || vh == 1) (pSkip x [1])
  pSkip x [1]
  let restriction ← pU x 1
  pIf (restriction == 1) (do pSkip x [1]; pSkipUe x 6)
  pure (if timing = 1 then some here else none)

/-- `seq_parameter_set_data()` (45_sps_rewriter.md R236): the bit position of `num_units_in_tick`, if the timing fields are present. -/
def pSps (x : BitInput) : Parse (Option Nat) := do
  let profile ← pU x 8
  pSkip x [8, 8]
  pSkipUe x 1
  pIf (x.highProfile profile) (pHigh x)
  pSkipUe x 1
  pPoc x
  pSkipUe x 1
  pSkip x [1]
  pSkipUe x 2
  let mbsOnly ← pU x 1
  pIf (mbsOnly == 0) (pSkip x [1])
  pSkip x [1]
  let cropping ← pU x 1
  pIf (cropping == 1) (pSkipUe x 4)
  let vui ← pU x 1
  if vui = 1 then pVui x else pure none

/-- The input of SPS_REWRITE (45_sps_rewriter.md R230). -/
def spsBits (s : State) : BitInput where
  mem         := s.mem
  base        := s.regs.srcBase.toNat
  limit       := 8 * s.regs.srcLen.toNat
  highProfile := highProfile s.platform.params
  slCount     := slCount s.platform.params
  slSize      := slSize s.platform.params

/-- PROFILE_ALLOW admits the first byte of the input (45_sps_rewriter.md R241, 10_state.md R39). -/
def profileAllowed (s : State) : Bool :=
  (s.regs.profileAllow.toList.getD (buf s 0 / 32) 0).getLsbD (buf s 0 % 32)

/-- The frame-rate numerator fits (45_sps_rewriter.md R231). -/
def FpsFits (s : State) : Prop := s.regs.spsOvr.fpsSet = true → s.regs.spsFpsNum.toNat < 2 ^ 31

/-- Bit p of the output: the input's, but for the overridden fields (45_sps_rewriter.md R240, R243, R255). `timing` is the bit position
of `num_units_in_tick`, if the input has timing fields. -/
def rewrittenBit (s : State) (timing : Option Nat) (p : Nat) : Nat :=
  if s.regs.spsOvr.levelSet = true ∧ 16 ≤ p ∧ p < 24 then (s.regs.spsOvr.level.getLsbD (23 - p)).toNat
  else match timing with
    | none => specBit s.mem s.regs.srcBase.toNat p
    | some q =>
      if s.regs.spsOvr.fpsSet = true ∧ q ≤ p ∧ p < q + 32 then (s.regs.spsFpsDen.getLsbD (q + 31 - p)).toNat
      else if s.regs.spsOvr.fpsSet = true ∧ q + 32 ≤ p ∧ p < q + 64 then
        ((2 * s.regs.spsFpsNum.toNat).testBit (q + 63 - p)).toNat
      else if s.regs.spsOvr.ffrSet = true ∧ p = q + 64 then s.regs.spsOvr.ffrValue.toNat
      else specBit s.mem s.regs.srcBase.toNat p

/-! ### DCA scanner -/

/-- A row of the sync table (46_dca_scanner.md R281 to R283): family, mask, value, MLEN, SIZE_AT, the size function, and whether the
family is in `EXSS_AFTER_CORE`. -/
structure SyncRow where
  family    : Nat
  mask      : Nat
  value     : Nat
  mlen      : Nat
  sizeAt    : Nat
  size      : Nat → Nat
  exssAfter : Bool

/-- `Match(f, w)` (46_dca_scanner.md R281). -/
def SyncMatch (row : SyncRow) (w : Nat) : Prop := (w % 2 ^ 48) &&& row.mask = row.value

/-- `CoreSize` (46_dca_scanner.md R284). -/
def coreSizeN (x : Nat) : Nat := ((x >>> 4) &&& 0x3FFF) + 1

/-- `SwapLE` (46_dca_scanner.md R284). -/
def swapLeN (x : Nat) : Nat := ((x &&& 0xFF00FF00) >>> 8) ||| ((x &&& 0x00FF00FF) <<< 8)

/-- `Pack14` (46_dca_scanner.md R284). -/
def pack14N (x : Nat) : Nat := ((x &&& 0x3FFF0000) >>> 8) ||| ((x &&& 0x3FFF) >>> 6)

/-- `ExssSize` (46_dca_scanner.md R284). -/
def exssSizeN (x : Nat) : Nat :=
  if x.testBit 37 then ((x >>> 5) &&& 0xFFFFF) + 1 else ((x >>> 13) &&& 0xFFFF) + 1

/-- The sync table at the values of 00_scope.md R7 (46_dca_scanner.md R282 to R284, R286). -/
def syncTable : List SyncRow :=
  [⟨1, 0xFFFFFFFFFC00, 0x7FFE8001FC00, 6, 2, fun w => coreSizeN w, true⟩,
   ⟨2, 0xFFFFFFFF00FC, 0xFE7F018000FC, 6, 2, fun w => coreSizeN (swapLeN w), true⟩,
   ⟨3, 0xFFFFFFFFFFF0, 0x1FFFE80007F0, 6, 4, fun w => coreSizeN (pack14N w) * 8 / 7, true⟩,
   ⟨4, 0xFFFFFFFFF0FF, 0xFF1F00E8F007, 6, 4, fun w => coreSizeN (pack14N (swapLeN w)) * 8 / 7, true⟩,
   ⟨5, 0x0000FFFFFFFF, 0x000064582025, 4, 6, fun w => exssSizeN w, false⟩]

/-- The row of a core family f, with the parameters of a state. -/
def coreRowOf (s : State) (f : Family) (number : Nat) : SyncRow :=
  let p := s.platform.params
  ⟨number, (p.dcaPat.get f).mask.toNat, (p.dcaPat.get f).value.toNat, 6, (p.dcaSize.get f).sizeAt,
   (p.dcaSize.get f).size.eval p.core14Scale, decide (f ∈ p.exssAfterCore)⟩

/-- The row of EXSS, with the parameters of a state. -/
def exssRowOf (s : State) : SyncRow :=
  let p := s.platform.params
  ⟨5, p.dcaPat.exss.mask.toNat, p.dcaPat.exss.value.toNat, 4, p.dcaSize.exss.sizeAt, p.dcaSize.exss.size.eval p.core14Scale, false⟩

/-- The sync table with the parameters of a state, in the order of 46_dca_scanner.md R281. -/
def syncRows (s : State) : List SyncRow :=
  [coreRowOf s .coreBe 1, coreRowOf s .coreLe 2, coreRowOf s .core14Be 3, coreRowOf s .core14Le 4, exssRowOf s]

/-- A state a scan may start from: none of the three a scan refuses (46_dca_scanner.md R290). -/
def ScanAccepts (d : Dca) : Prop := d.phase.toNat ≤ 4 ∧ d.lock.toNat ≤ 5 ∧ (d.phase.toNat = 0 ∨ d.lock.toNat ≠ 0)

/-- A DCA_SCAN of one byte b can run: a chunk of length 1 that is admitted, in a state a scan may start from
(46_dca_scanner.md R290, R291). -/
def OneByteScan (s : State) (b : Byte) : Prop :=
  SourceReady s ∧ s.regs.srcLen.toNat = 1 ∧ s.mem.read s.regs.srcBase.toNat = b ∧ ScanAccepts s.regs.dca

/-- WIN after the byte: u64(WIN · 256 + b) (46_dca_scanner.md, the per-byte step). -/
def winAfter (s : State) (b : Byte) : Nat := (s.regs.dca.win.toNat * 256 + b.toNat) % 2 ^ 64

/-- COUNT after the byte: u32(COUNT + 1). -/
def countAfter (s : State) : Nat := (s.regs.dca.count.toNat + 1) % 2 ^ 32

/-- `s` after a scan that ended the chunk without a boundary, with these DCA registers (46_dca_scanner.md R291). -/
def scannedState (s : State) (d : Dca) : State := infoState s { s.regs with dca := d } .notYetComplete

/-- The DCA registers with WIN and COUNT updated for the byte, and nothing else. -/
def byteTaken (s : State) (b : Byte) : Dca :=
  { s.regs.dca with win := BitVec.ofNat 64 (winAfter s b), count := BitVec.ofNat 32 (countAfter s) }

/-- The locked family's marker ends at the byte (46_dca_scanner.md R287, R289). -/
def LockedMarker (s : State) (b : Byte) (row : SyncRow) : Prop :=
  row ∈ syncRows s ∧ s.regs.dca.lock.toNat = row.family ∧ SyncMatch row (winAfter s b)

/-- `s` after a boundary at chunk index 0 (46_dca_scanner.md R292): RES0 = u32(0 − (MLEN − 1)). -/
def boundaryState (s : State) (row : SyncRow) : State :=
  okState s { s.regs with res0 := BitVec.ofInt 32 (1 - (row.mlen : Int)),
                          dca := { s.regs.dca with win := 0, phase := 0, count := 0 } } s.mem

/-! ### Registers -/

/-- The readable and writable registers that only store: offset and the bits a write keeps (10_state.md R24, R37, R46). -/
def rwTable : List (Nat × Word) :=
  [(0x010, 0xFFFFFFFF), (0x020, 0xFFFFFFFF), (0x024, 0x1FFFFFFF), (0x028, 0xFFFFFFFF), (0x030, 0xFFFFFFFF), (0x034, 0x1FFFFFFF),
   (0x038, 0xFFFFFFFF), (0x040, 0xFFFFFFFF), (0x044, 0x1FFFFFFF), (0x048, 0xFFFFFFFF), (0x04C, 0x1FFFFFFF), (0x050, 0x1FFFFFFF),
   (0x060, 0x0000FF0F), (0x064, 0xFFFFFFFF), (0x068, 0xFFFFFFFF), (0x080, 0xFFFFFFFF), (0x084, 0xFFFFFFFF), (0x088, 0xFFFFFFFF),
   (0x08C, 0xFFFFFFFF), (0x090, 0xFFFFFFFF), (0x094, 0xFFFFFFFF), (0x098, 0xFFFFFFFF), (0x09C, 0xFFFFFFFF), (0x0A0, 0xFFFFFFFF),
   (0x0A4, 0xFFFFFFFF), (0x0A8, 0x00000007), (0x0AC, 0x00000007), (0x0B0, 0xFFFFFFFF), (0x0B4, 0xFFFFFFFF), (0x0B8, 0xFFFFFFFF)]

/-- The register map (10_state.md R24): the number each register reads as, by offset. STATUS is in StatusWordHasItsFields. -/
def registerNumbers (r : Regs) : List (Nat × Nat) :=
  [(0x000, 0x434F5245), (0x004, r.cmd.toNat), (0x00C, 0), (0x010, r.arg0.toNat), (0x014, r.res0.toNat), (0x018, r.res1.toNat),
   (0x01C, r.res2.toNat), (0x020, r.brBase.toNat), (0x024, r.brLen.toNat), (0x028, r.brPos.toNat), (0x030, r.bwBase.toNat),
   (0x034, r.bwCap.toNat), (0x038, r.bwPos.toNat), (0x03C, r.bwAcc.toNat), (0x040, r.srcBase.toNat), (0x044, r.srcLen.toNat),
   (0x048, r.dstBase.toNat), (0x04C, r.dstCap.toNat), (0x050, r.locCursor.toNat),
   (0x060, r.spsOvr.levelSet.toNat + 2 * r.spsOvr.fpsSet.toNat + 4 * r.spsOvr.ffrSet.toNat + 8 * r.spsOvr.ffrValue.toNat +
      256 * r.spsOvr.level.toNat),
   (0x064, r.spsFpsNum.toNat), (0x068, r.spsFpsDen.toNat), (0x080, r.profileAllow[0].toNat), (0x084, r.profileAllow[1].toNat),
   (0x088, r.profileAllow[2].toNat), (0x08C, r.profileAllow[3].toNat), (0x090, r.profileAllow[4].toNat),
   (0x094, r.profileAllow[5].toNat), (0x098, r.profileAllow[6].toNat), (0x09C, r.profileAllow[7].toNat),
   (0x0A0, r.dca.win.toNat % 2 ^ 32), (0x0A4, r.dca.win.toNat / 2 ^ 32), (0x0A8, r.dca.phase.toNat), (0x0AC, r.dca.lock.toNat),
   (0x0B0, r.dca.count.toNat), (0x0B4, r.dca.fsize.toNat), (0x0B8, r.dca.start.toNat)]

/-- The registers after an idle write of v, by the offset written: the register that stores, and of BW_POS the clearing of BW_ACC too
(10_state.md R24, R33, R37, R40, R46). -/
def storedRegs (r : Regs) (v : Word) : List (Nat × Regs) :=
  [(0x010, { r with arg0 := v }), (0x020, { r with brBase := v }), (0x024, { r with brLen := BitVec.ofNat 29 v.toNat }),
   (0x028, { r with brPos := v }), (0x030, { r with bwBase := v }), (0x034, { r with bwCap := BitVec.ofNat 29 v.toNat }),
   (0x038, { r with bwPos := v, bwAcc := 0 }), (0x040, { r with srcBase := v }),
   (0x044, { r with srcLen := BitVec.ofNat 29 v.toNat }), (0x048, { r with dstBase := v }),
   (0x04C, { r with dstCap := BitVec.ofNat 29 v.toNat }), (0x050, { r with locCursor := BitVec.ofNat 29 v.toNat }),
   (0x060, { r with spsOvr := ⟨v.toNat.testBit 0, v.toNat.testBit 1, v.toNat.testBit 2, v.toNat.testBit 3,
                               BitVec.ofNat 8 (v.toNat / 2 ^ 8)⟩ }),
   (0x064, { r with spsFpsNum := v }), (0x068, { r with spsFpsDen := v })] ++
  (List.finRange 8).map (fun i => (0x080 + 4 * i.val, { r with profileAllow := r.profileAllow.set i v })) ++
  [(0x0A0, { r with dca := { r.dca with win := BitVec.ofNat 64 (r.dca.win.toNat / 2 ^ 32 * 2 ^ 32 + v.toNat) } }),
   (0x0A4, { r with dca := { r.dca with win := BitVec.ofNat 64 (v.toNat * 2 ^ 32 + r.dca.win.toNat % 2 ^ 32) } }),
   (0x0A8, { r with dca := { r.dca with phase := BitVec.ofNat 3 v.toNat } }),
   (0x0AC, { r with dca := { r.dca with lock := BitVec.ofNat 3 v.toNat } }),
   (0x0B0, { r with dca := { r.dca with count := v } }), (0x0B4, { r with dca := { r.dca with fsize := v } }),
   (0x0B8, { r with dca := { r.dca with start := v } })]

/-- The read-only registers (10_state.md R24): ID, STATUS, RES0, RES1, RES2, BW_ACC. -/
def roOffsets : List Nat := [0x000, 0x008, 0x014, 0x018, 0x01C, 0x03C]

/-- The reserved offsets of the block (10_state.md R24, R25). -/
def reservedOffsets : List Nat :=
  [0x02C, 0x054, 0x058, 0x05C, 0x06C, 0x070, 0x074, 0x078, 0x07C, 0x0BC, 0x0C0, 0x0C4, 0x0C8, 0x0CC, 0x0D0, 0x0D4, 0x0D8, 0x0DC,
   0x0E0, 0x0E4, 0x0E8, 0x0EC, 0x0F0, 0x0F4, 0x0F8, 0x0FC]

/-- The reset values of 10_state.md R24. -/
def resetTable : List (Nat × Word) :=
  [(0x000, 0x434F5245), (0x004, 0), (0x008, 0), (0x00C, 0), (0x010, 0), (0x014, 0), (0x018, 0), (0x01C, 0), (0x020, 0), (0x024, 0),
   (0x028, 0), (0x030, 0), (0x034, 0), (0x038, 0), (0x03C, 0), (0x040, 0), (0x044, 0), (0x048, 0), (0x04C, 0), (0x050, 0), (0x060, 0),
   (0x064, 0), (0x068, 0), (0x080, 0xFFFFFFFF), (0x084, 0xFFFFFFFF), (0x088, 0xFFFFFFFF), (0x08C, 0xFFFFFFFF), (0x090, 0xFFFFFFFF),
   (0x094, 0xFFFFFFFF), (0x098, 0xFFFFFFFF), (0x09C, 0xFFFFFFFF), (0x0A0, 0), (0x0A4, 0), (0x0A8, 0), (0x0AC, 0), (0x0B0, 0),
   (0x0B4, 0), (0x0B8, 0)]

/-- The host address of a register offset (10_state.md R23). -/
def regAddr (s : State) (offset : Nat) : Word := s.platform.mmioBase + BitVec.ofNat 32 offset

end Sys2Proof.Claims
end

