-- ==== Sys2Proof/Certificates/Slice0/Obligations.lean ====
section
/-! DEFINITION. The statements for the provers. Each docstring names the rules it formalises. A `readState`, `okState`, `infoState` or
`errorState` on the right of an equation is a whole state, so it says what the command leaves unchanged as well. That a run is a program of
moves, and that the engine's turn is one of them, is the model's form of R131 and R369 (log entries 1 and 2). -/

open Sys2Proof Sys2Proof.Machine Sys2Proof.Claims

/-! ### The step, decoding, launch -/

/-- 40_command_protocol.md R131: a pending word that decodes is run as `exec` of its command, whether the program gives the engine its
turn, the host waits, or no move is left. What the step adds around `exec` is the program: an engine turn is consumed, a wait is not (log
entry 2). -/
def Obligations.StepRunsDecodedCommand : Prop :=
  ∀ (s : State) (w : Word) (i : Instr), s.engine = .pending w → decode w = .ok i →
    (s.program = [] → step s = exec i s) ∧
    (∀ rest, s.program = .engine :: rest → step s = exec i { s with program := rest }) ∧
    (∀ rest, s.program = .wait :: rest → s.regs.status.busy = true → step s = exec i s)

/-- 30_encoding.md R103, R107: decoding the word of a legal command gives the command back. -/
def Obligations.DecodeOfEncodeIsTheCommand : Prop :=
  ∀ i : Instr, i.wellFormed = true → decode (encode i) = .ok i

/-- 30_encoding.md R103, R104: a word the decoder accepts is the encoding of a legal command, so no bit of a word is ignored and no two
words give one command. -/
def Obligations.DecodedWordIsItsEncoding : Prop :=
  ∀ (w : Word) (i : Instr), decode w = .ok i → encode i = w ∧ i.wellFormed = true

/-- 30_encoding.md R103, R104: the decoder accepts exactly the words that select a row of the (match, mask) table and have N ≤ 32. -/
def Obligations.DecoderFollowsMatchMaskTable : Prop :=
  ∀ w : Word, (∃ i, decode w = .ok i) ↔ legalWord w

/-- 30_encoding.md R109, with some words of R107: the worked encodings, written out, and the words that are illegal. -/
def Obligations.WorkedEncodingsDecode : Prop :=
  decode 0x00000401 = .ok (.rdBits 4) ∧ decode 0x00002001 = .ok (.rdBits 32) ∧ decode 0x00002011 = .ok (.wrBits 32) ∧
  decode 0x00000011 = .ok (.wrBits 0) ∧ decode 0x00000021 = .ok .nalUnescape ∧ decode 0x00000031 = .ok .nalLocateAb ∧
  decode 0x00000041 = .ok .spsRewrite ∧ decode 0x00004051 = .ok (.dcaScan true) ∧ decode 0x00000052 = .ok .dcaReset ∧
  ∀ w ∈ ([0x00002101, 0x00000102, 0x00008001, 0x00004052, 0x00000000] : List Word), ∀ i, decode w ≠ .ok i

/-- 30_encoding.md R104: a pending word that meets (a), (b), (c) or (d) ends with ILLEGAL_COMMAND after changing nothing but STATUS,
whether the program gives the engine its turn, the host waits, or no move is left (log entry 2). -/
def Obligations.IllegalWordChangesOnlyStatus : Prop :=
  ∀ (s : State) (w : Word), s.engine = .pending w → IllegalWord w →
    (s.program = [] → step s = .next (errorState s .illegalCommand)) ∧
    (∀ rest, s.program = .engine :: rest → step s = .next (errorState { s with program := rest } .illegalCommand)) ∧
    (∀ rest, s.program = .wait :: rest → s.regs.status.busy = true → step s = .next (errorState s .illegalCommand))

/-- 40_command_protocol.md R130: a write of CMD while BUSY = 0 stores the word, sets BUSY, leaves ERR and CODE, and makes the word
pending; nothing else changes. No other move makes a command pending: no reset, no write of another register. -/
def Obligations.CmdWriteLaunches : Prop :=
  (∀ (s : State) (w : Word) (rest : List Move), s.program = .host (.regWrite (regAddr s 0x004) 4 w) :: rest →
    s.regs.status.busy = false →
    step s = .next { s with program := rest, engine := .pending w,
                            regs := { s.regs with cmd := w, status := { s.regs.status with busy := true } } }) ∧
  ∀ (s t : State) (w : Word), step s = .next t → t.engine = .pending w →
    s.engine = .pending w ∨
      (s.regs.status.busy = false ∧ ∃ rest, s.program = .host (.regWrite (regAddr s 0x004) 4 w) :: rest)

/-! ### The host and the registers -/

/-- 20_memory.md R77, 40_command_protocol.md R133: a refused access sets the refused mark and has no effect: while BUSY = 1 an aligned
write of any register but CTRL, and at any time a read or write of the register block that is not an aligned 32-bit word.
That a reserved offset counts among the registers here is the model's reading (log entry 8). -/
def Obligations.RefusedAccessOnlySetsTheMark : Prop :=
  ∀ (s : State) (offset width : Nat) (v : Word) (rest : List Move), offset < 256 →
    (offset % 4 = 0 → offset ≠ 0x00C → s.regs.status.busy = true → s.program = .host (.regWrite (regAddr s offset) 4 v) :: rest →
      step s = .next { s with program := rest, refusedMark := true }) ∧
    (0 < width → (width ≠ 4 ∨ offset % 4 ≠ 0) → s.program = .host (.regWrite (regAddr s offset) width v) :: rest →
      step s = .next { s with program := rest, refusedMark := true }) ∧
    (0 < width → (width ≠ 4 ∨ offset % 4 ≠ 0) → s.program = .host (.regRead (regAddr s offset) width) :: rest →
      step s = .next { s with program := rest, refusedMark := true })

/-- 40_command_protocol.md R131, R133: an aligned register read changes nothing and gives the host the register's value; between the
launch and the step that is its value at the launch, with BUSY = 1, since no register changes in between.
The list `observed` is the model's (log entry 10). 10_state.md R24: the offset of each register. -/
def Obligations.RegisterReadChangesNothing : Prop :=
  (∀ (s : State) (offset : Nat) (rest : List Move), offset < 256 → offset % 4 = 0 →
    s.program = .host (.regRead (regAddr s offset) 4) :: rest →
    step s = .next { s with program := rest, observed := readOffset s.regs offset :: s.observed }) ∧
  ∀ r : Regs, ∀ row ∈ registerNumbers r, (readOffset r row.1).toNat = row.2

/-- 10_state.md R24, R37, R46: what a read gives after an idle write of a readable and writable register: the bits the register stores,
and 0 in the others; and the register such a write stores in, by its offset, also as the step of a host's write takes it. -/
def Obligations.WrittenRegisterReadsBack : Prop :=
  (∀ row ∈ rwTable, ∀ (s : State) (v : Word), s.regs.status.busy = false →
    readOffset (writeOffset s row.1 v).regs row.1 = v &&& row.2) ∧
  ∀ (s : State) (v : Word), s.regs.status.busy = false →
    ∀ row ∈ storedRegs s.regs v, writeOffset s row.1 v = { s with regs := row.2 } ∧
      ∀ rest, s.program = .host (.regWrite (regAddr s row.1) 4 v) :: rest → step s = .next { s with program := rest, regs := row.2 }

/-- 10_state.md R24, R33: an idle write of a storing register leaves the value of every other register, but that a write of BW_POS sets
BW_ACC to 0. -/
def Obligations.RegisterWriteTouchesNoOtherRegister : Prop :=
  ∀ row ∈ rwTable, ∀ (s : State) (v : Word) (other : Nat), s.regs.status.busy = false → other ≠ row.1 →
    readOffset (writeOffset s row.1 v).regs other =
      (if row.1 = 0x038 ∧ other = 0x03C then 0 else readOffset s.regs other) ∧
    writeOffset s row.1 v = { s with regs := (writeOffset s row.1 v).regs }

/-- 10_state.md R24, R25, R26: while idle, writes of a read-only register or a reserved offset are ignored, also as the step of a host's
write takes them; in every state, idle or busy, a reserved offset and CTRL read 0 and ID reads its constant. -/
def Obligations.ReadOnlyAndReservedIgnoreWrites : Prop :=
  ∀ s : State,
    (s.regs.status.busy = false → ∀ offset ∈ roOffsets ++ reservedOffsets, ∀ v : Word, writeOffset s offset v = s ∧
      ∀ rest, s.program = .host (.regWrite (regAddr s offset) 4 v) :: rest → step s = .next { s with program := rest }) ∧
    (∀ offset ∈ reservedOffsets, readOffset s.regs offset = 0) ∧
    readOffset s.regs 0x00C = 0 ∧ readOffset s.regs 0x000 = 0x434F5245

/-- 10_state.md R28, 60_exceptions.md R320: STATUS as the host reads it: BUSY bit 0, ERR bit 1, CODE bits 15:8, the other bits 0. -/
def Obligations.StatusWordHasItsFields : Prop :=
  ∀ s : State, (readOffset s.regs 0x008).toNat =
    s.regs.status.busy.toNat + 2 * s.regs.status.err.toNat +
      256 * (match s.regs.status.code with
        | .ok => 0 | .outOfRange => 1 | .malformedSps => 2 | .malformedFrameHeader => 3 | .unsupportedConfiguration => 4
        | .notYetComplete => 5 | .illegalCommand => 6 | .noneFound => 7)

/-- 70_reset_and_hazards.md R362: a POKE or PEEK of a byte the command in progress may read or write, while BUSY = 1, is no move of the
host's: the machine has no next state. The fault that says so is the model's (log entry 11). 30_encoding.md R108: any other POKE or PEEK
that ends by 2^32, admitted or not (log entry 21), writes exactly the listed bytes, or only adds what it reads to `observed` (log entry
10). -/
def Obligations.BufferAccessWhileBusyIsNoMove : Prop :=
  (∀ (s : State) (w : Word) (i : Instr) (addr : Word) (bytes : List Byte) (n k : Nat) (rest : List Move),
    s.engine = .pending w ∨ s.engine = .stuck w → decode w = .ok i → s.regs.status.busy = true →
    MayRead s.regs (addr.toNat + k) i ∨ MayWrite s.regs (addr.toNat + k) i →
    (k < bytes.length → addr.toNat + bytes.length ≤ 2 ^ 32 → s.program = .host (.poke addr bytes) :: rest →
      step s = .fault .bufferRace) ∧
    (k < n → addr.toNat + n ≤ 2 ^ 32 → s.program = .host (.peek addr n) :: rest → step s = .fault .bufferRace)) ∧
  (∀ (s : State) (addr : Word) (bytes : List Byte) (rest : List Move), s.mem.wf = true →
    HostMayAccess s addr.toNat bytes.length → s.program = .host (.poke addr bytes) :: rest →
    ∃ t, step s = .next t ∧ t = { s with program := rest, mem := t.mem } ∧
      (∀ j (h : j < bytes.length), t.mem.read (addr.toNat + j) = bytes[j]) ∧
      ∀ a, a < addr.toNat ∨ addr.toNat + bytes.length ≤ a → t.mem.read a = s.mem.read a) ∧
  ∀ (s : State) (addr : Word) (n : Nat) (rest : List Move), HostMayAccess s addr.toNat n → s.program = .host (.peek addr n) :: rest →
    step s = .next { s with program := rest, observed :=
      ((List.range n).map fun j => BitVec.ofNat 32 (s.mem.read (addr.toNat + j)).toNat).reverse ++ s.observed }

/-! ### Reset -/

/-- 70_reset_and_hazards.md R350, 10_state.md R24: hardware reset gives every register its reset value, discards a pending command, and
changes neither host memory nor the refused mark. -/
def Obligations.HardwareResetGivesResetValues : Prop :=
  (∀ row ∈ resetTable, readOffset Regs.reset row.1 = row.2) ∧
  ∀ (s : State) (rest : List Move), s.program = .host .hardwareReset :: rest →
    step s = .next { s with program := rest, regs := Regs.reset, engine := .idle }

/-- 70_reset_and_hazards.md R351, 10_state.md R29: a write of 1 to CTRL.SOFT_RESET is accepted whatever BUSY is and gives the reset
state of the registers at once; with a command in progress the command is discarded and only bytes of its write range can change; with
none, memory does not change, nor with a word in progress that is no command (that such a word has no write range is log entry 14). A
write of 0 to the bit has no effect, whatever BUSY is. -/
def Obligations.SoftResetAppliesWhateverBusyIs : Prop :=
  ∀ (s : State) (v : Word) (rest : List Move), s.program = .host (.regWrite (regAddr s 0x00C) 4 v) :: rest →
    (v.getLsbD 0 = true → ∃ t, step s = .next t ∧
      t = { s with program := rest, regs := Regs.reset, engine := .idle, mem := t.mem, freeCount := t.freeCount } ∧
      (s.engine = .idle → t.mem = s.mem) ∧
      (∀ w, s.engine = .pending w ∨ s.engine = .stuck w →
        ((∀ i, decode w ≠ .ok i) → t.mem = s.mem) ∧
        ∀ i, decode w = .ok i → ∀ a, ¬ MayWrite s.regs a i → t.mem.read a = s.mem.read a)) ∧
    (v.getLsbD 0 = false → step s = .next { s with program := rest })

/-- 70_reset_and_hazards.md R353: what the reset state means to each unit: RD_BITS 0, WR_BITS 0 and WR_ALIGN_FLUSH succeed, every other
read or write gives OUT_OF_RANGE, the codec gives RES0 = 0, the locators NONE, SPS_REWRITE MALFORMED_SPS, DCA_SCAN NOT_YET_COMPLETE; no
override is set, every profile is allowed, and DCA_RESET finds the scanner as it leaves it. For every host memory and platform. -/
def Obligations.ResetStateOfEachUnit : Prop :=
  ∀ s : State, s.regs = Regs.reset →
    exec (.rdBits 0) s = .next (okState s s.regs s.mem) ∧
    (∀ n, 0 < n → n ≤ 32 → exec (.rdBits n) s = .next (errorState s .outOfRange)) ∧
    exec .rdBit s = .next (errorState s .outOfRange) ∧ exec .rdUe s = .next (errorState s .outOfRange) ∧
    exec .rdSe s = .next (errorState s .outOfRange) ∧
    exec (.wrBits 0) s = .next (okState s s.regs s.mem) ∧ exec .wrAlignFlush s = .next (okState s s.regs s.mem) ∧
    (∀ n, 0 < n → n ≤ 32 → exec (.wrBits n) s = .next (errorState s .outOfRange)) ∧
    exec .wrBit s = .next (errorState s .outOfRange) ∧ exec .wrUe s = .next (errorState s .outOfRange) ∧
    exec .wrSe s = .next (errorState s .outOfRange) ∧
    exec .nalUnescape s = .next (okState s s.regs s.mem) ∧ exec .nalEscape s = .next (okState s s.regs s.mem) ∧
    exec .nalLocateAb s = .next (infoState s s.regs .noneFound) ∧ exec .nalLocateLp s = .next (infoState s s.regs .noneFound) ∧
    exec .spsRewrite s = .next (errorState s .malformedSps) ∧
    exec (.dcaScan false) s = .next (infoState s s.regs .notYetComplete) ∧
    exec .dcaReset s = .next (okState s s.regs s.mem) ∧
    readOffset s.regs 0x060 = 0 ∧
    ∀ p < 256, (readOffset s.regs (0x080 + 4 * (p / 32))).getLsbD (p % 32) = true

/-! ### Every command -/

/-- 40_command_protocol.md R131, R135, R136, R139, 10_state.md R28: every step ends, with BUSY = 0, no command pending, ERR = 1 exactly
for the codes 1, 2, 3, 4 and 6, and a code other than 3; or, where an address of a range of the command (20_memory.md R71) is not admitted,
with the engine stuck and nothing else changed (log entry 7). -/
def Obligations.EveryCommandStepEnds : Prop :=
  ∀ (i : Instr) (s : State), ∃ t, exec i s = .next t ∧
    ((t.engine = .idle ∧ t.regs.status.busy = false ∧ t.regs.status.code ≠ .malformedFrameHeader ∧
        (t.regs.status.err = true ↔
          t.regs.status.code ∈ [Code.outOfRange, .malformedSps, .malformedFrameHeader, .unsupportedConfiguration, .illegalCommand])) ∨
      (t = stuckState s ∧ ∃ a, (MayRead s.regs a i ∨ MayWrite s.regs a i) ∧ admits s.platform a = false))

/-- 40_command_protocol.md R136: a command that fails ends with one of four codes and changes no register but STATUS; only NAL_UNESCAPE,
NAL_ESCAPE and SPS_REWRITE may have changed memory, and only inside the destination range. -/
def Obligations.FailureChangesOnlyStatus : Prop :=
  ∀ (i : Instr) (s t : State), exec i s = .next t → t.engine = .idle → t.regs.status.err = true →
    t.regs.status.code ∈ [Code.outOfRange, .malformedSps, .unsupportedConfiguration, .illegalCommand] ∧
    t.regs = { s.regs with status := ⟨false, true, t.regs.status.code⟩ } ∧ (keepsMemoryOnFailure i = true → t.mem = s.mem) ∧
    ∀ a, ¬ MayWrite s.regs a i → t.mem.read a = s.mem.read a

/-- 60_exceptions.md R320 to R328: each code but OK ends only the commands the spec says: OUT_OF_RANGE no DCA command, MALFORMED_SPS and
UNSUPPORTED_CONFIGURATION only SPS_REWRITE, code 3 none, NOT_YET_COMPLETE only DCA_SCAN with F = 0, ILLEGAL_COMMAND all but DCA_RESET,
NONE only the locators, which then write no register. -/
def Obligations.EachCodeHasItsCommands : Prop :=
  ∀ (i : Instr) (s t : State), exec i s = .next t → t.engine = .idle →
    match t.regs.status.code with
    | .ok => True
    | .outOfRange => ∀ f, i ≠ .dcaScan f ∧ i ≠ .dcaReset
    | .malformedSps => i = .spsRewrite
    | .malformedFrameHeader => False
    | .unsupportedConfiguration => i = .spsRewrite
    | .notYetComplete => i = .dcaScan false
    | .illegalCommand => i ≠ .dcaReset
    | .noneFound => (i = .nalLocateAb ∨ i = .nalLocateLp) ∧ t = infoState s s.regs .noneFound

/-- 20_memory.md R71: no command changes a byte outside the range its row of the table lets it write, whether it succeeds or fails. -/
def Obligations.NoByteOutsideTheWriteRangeChanges : Prop :=
  ∀ (i : Instr) (s t : State), exec i s = .next t → ∀ a, ¬ MayWrite s.regs a i → t.mem.read a = s.mem.read a

/-- 20_memory.md R71: what a command does to the registers, and whether it ends, does not depend on a byte outside the range its row of
the table lets it read. -/
def Obligations.RegistersIndependentOfUnreadMemory : Prop :=
  ∀ (i : Instr) (s t : State) (m : Memory), (∀ a, MayRead s.regs a i → m.read a = s.mem.read a) → exec i s = .next t →
    ∃ t', exec i { s with mem := m } = .next t' ∧ t'.regs = t.regs ∧ t'.engine = t.engine

/-- 40_command_protocol.md R138: no command reads STATUS, so its effect does not depend on the code of the previous command. -/
def Obligations.EffectIndependentOfPreviousCode : Prop :=
  ∀ (i : Instr) (s : State) (st : Status), (∀ a, admits s.platform a = true) →
    exec i { s with regs := { s.regs with status := st } } = exec i s

/-- 40_command_protocol.md R134, 20_memory.md R72, R82: a command with a buffer range that passes 2^32, and a NAL_UNESCAPE, NAL_ESCAPE or
SPS_REWRITE whose source and destination share a byte, end with ILLEGAL_COMMAND and access nothing. -/
def Obligations.UnusableRangesAreIllegal : Prop :=
  ∀ (i : Instr) (s : State),
    ((∃ q ∈ bufferRanges s.regs i, 2 ^ 32 < q.1 + q.2) → exec i s = .next (errorState s .illegalCommand)) ∧
    (i = .nalUnescape ∨ i = .nalEscape ∨ i = .spsRewrite →
      ∀ a, s.regs.srcBase.toNat ≤ a → a < s.regs.srcBase.toNat + s.regs.srcLen.toNat →
        s.regs.dstBase.toNat ≤ a → a < s.regs.dstBase.toNat + s.regs.dstCap.toNat →
        exec i s = .next (errorState s .illegalCommand))

/-- 20_memory.md R78: a command that passes its checks and whose first access, a field or a byte, is at an address that is not admitted
leaves the engine stuck, with every register and byte as it was. That this is a next state with nothing changed is log entry 7. -/
def Obligations.FirstAccessNotAdmittedSticks : Prop :=
  ∀ s : State,
    (inSpace s.regs.brBase.toNat s.regs.brLen.toNat →
      (∀ n ≤ 32, s.regs.brPos.toNat + n ≤ 8 * s.regs.brLen.toNat → BitsBlocked s s.regs.brBase.toNat s.regs.brPos.toNat n →
        exec (.rdBits n) s = .next (stuckState s)) ∧
      (s.regs.brPos.toNat < 8 * s.regs.brLen.toNat → BitsBlocked s s.regs.brBase.toNat s.regs.brPos.toNat 1 →
        exec .rdBit s = .next (stuckState s) ∧ exec .rdUe s = .next (stuckState s) ∧ exec .rdSe s = .next (stuckState s))) ∧
    (inSpace s.regs.bwBase.toNat s.regs.bwCap.toNat →
      (∀ n ≤ 32, s.regs.arg0.toNat < 2 ^ n → HasRoom s n → BitsBlocked s s.regs.bwBase.toNat s.regs.bwPos.toNat n →
        exec (.wrBits n) s = .next (stuckState s)) ∧
      (s.regs.arg0.toNat ≤ 1 → HasRoom s 1 → BitsBlocked s s.regs.bwBase.toNat s.regs.bwPos.toNat 1 →
        exec .wrBit s = .next (stuckState s)) ∧
      (∀ k, s.regs.arg0 ≠ 0xFFFFFFFF → IsPrefix s.regs.arg0.toNat k → HasRoom s (2 * k + 1) →
        BitsBlocked s s.regs.bwBase.toNat s.regs.bwPos.toNat (2 * k + 1) → exec .wrUe s = .next (stuckState s)) ∧
      (∀ k, s.regs.arg0 ≠ 0x80000000 → IsPrefix (codeOf s.regs.arg0.toInt) k → HasRoom s (2 * k + 1) →
        BitsBlocked s s.regs.bwBase.toNat s.regs.bwPos.toNat (2 * k + 1) → exec .wrSe s = .next (stuckState s)) ∧
      (s.regs.bwPos.toNat % 8 ≠ 0 → HasRoom s 0 → BitsBlocked s s.regs.bwBase.toNat s.regs.bwPos.toNat 1 →
        exec .wrAlignFlush s = .next (stuckState s))) ∧
    (inSpace s.regs.srcBase.toNat s.regs.srcLen.toNat →
      (s.regs.locCursor.toNat + 3 < s.regs.srcLen.toNat →
        admits s.platform (s.regs.srcBase.toNat + s.regs.locCursor.toNat) = false → exec .nalLocateAb s = .next (stuckState s)) ∧
      (s.regs.locCursor.toNat + 4 ≤ s.regs.srcLen.toNat →
        (∃ k < 4, admits s.platform (s.regs.srcBase.toNat + s.regs.locCursor.toNat + k) = false) →
        exec .nalLocateLp s = .next (stuckState s)) ∧
      (0 < s.regs.srcLen.toNat → admits s.platform s.regs.srcBase.toNat = false → ScanAccepts s.regs.dca →
        exec (.dcaScan false) s = .next (stuckState s))) ∧
    (UsableBuffers s.regs → 0 < s.regs.srcLen.toNat → admits s.platform s.regs.srcBase.toNat = false →
      exec .nalUnescape s = .next (stuckState s) ∧ exec .nalEscape s = .next (stuckState s) ∧
      (FpsFits s → exec .spsRewrite s = .next (stuckState s)))

/-- 60_exceptions.md R334: a stuck command never completes: every step leaves the engine stuck, every register and so BUSY = 1 as it
was, except a hardware reset and a write of 1 to CTRL.SOFT_RESET, which end the stuck state and give the reset values. -/
def Obligations.StuckEngineWaitsForReset : Prop :=
  ∀ (s : State) (w : Word), s.engine = .stuck w → s.regs.status.busy = true →
    (∀ t, step s = .next t → (t.engine = .stuck w ∧ t.regs = s.regs) ∨
      (∃ rest, s.program = .host .hardwareReset :: rest) ∨
      (∃ rest v, s.program = .host (.regWrite (regAddr s 0x00C) 4 v) :: rest ∧ v.getLsbD 0 = true)) ∧
    (s.program = [] → step s = .next s) ∧
    (∀ rest v, s.program = .host (.regWrite (regAddr s 0x00C) 4 v) :: rest → v.getLsbD 0 = true →
      ∃ t, step s = .next t ∧ t.engine = .idle ∧ t.regs = Regs.reset) ∧
    (∀ rest, s.program = .host .hardwareReset :: rest →
      ∃ t, step s = .next t ∧ t.engine = .idle ∧ t.regs = Regs.reset)

/-- The machine's invariant holds at reset: registers as 10_state.md R24 says, and the model's empty memory (log entry 5). -/
def Obligations.InvariantHoldsAtReset : Prop := State.reset.inv = true

/-- 10_state.md R28, R34, R49, 60_exceptions.md R320, R324: every step keeps the invariant: canonical memory, a zero-filled partial byte,
ERR as CODE says and code 3 never produced, BUSY exactly while a command is in progress, whose word is in CMD. -/
def Obligations.StepKeepsInvariant : Prop :=
  ∀ s t : State, s.inv = true → step s = .next t → t.inv = true

/-! ### BitReader -/

/-- 41_bitreader.md R152: RD_BITS n reads the n bits at BR_POS, the first most significant, and advances BR_POS by n; with fewer than n
bits left it ends with OUT_OF_RANGE, and a word with N > 32 is no command. -/
def Obligations.RdBitsReadsTheField : Prop :=
  ∀ (s : State) (n : Nat),
    (n ≤ 32 → ReaderReady s → s.regs.brPos.toNat + n ≤ 8 * s.regs.brLen.toNat →
      exec (.rdBits n) s =
        .next (readState s (BitVec.ofNat 32 (specBits s.mem s.regs.brBase.toNat s.regs.brPos.toNat n)) (s.regs.brPos.toNat + n))) ∧
    (n ≤ 32 → inSpace s.regs.brBase.toNat s.regs.brLen.toNat → 8 * s.regs.brLen.toNat < s.regs.brPos.toNat + n →
      exec (.rdBits n) s = .next (errorState s .outOfRange)) ∧
    (32 < n → n < 64 → ∀ i, decode (BitVec.ofNat 32 (0x01 + 256 * n)) ≠ .ok i)

/-- 41_bitreader.md R153: RD_BIT reads the bit at BR_POS and advances BR_POS by 1; with no bit left it ends with OUT_OF_RANGE. -/
def Obligations.RdBitReadsTheBit : Prop :=
  ∀ s : State,
    (ReaderReady s → s.regs.brPos.toNat + 1 ≤ 8 * s.regs.brLen.toNat →
      exec .rdBit s =
        .next (readState s (BitVec.ofNat 32 (specBit s.mem s.regs.brBase.toNat s.regs.brPos.toNat)) (s.regs.brPos.toNat + 1))) ∧
    (inSpace s.regs.brBase.toNat s.regs.brLen.toNat → 8 * s.regs.brLen.toNat < s.regs.brPos.toNat + 1 →
      exec .rdBit s = .next (errorState s .outOfRange))

/-- 30_encoding.md R106: RD_BIT and RD_BITS 1 have the same effect, and so do WR_BIT and WR_BITS 1. -/
def Obligations.SingleBitFormsAgree : Prop :=
  ∀ s : State, exec .rdBit s = exec (.rdBits 1) s ∧ exec .wrBit s = exec (.wrBits 1) s

/-- 41_bitreader.md R155: RD_UE reads a whole code with a prefix of k ≤ 31 zeros: RES0 is 2^k − 1 + s and BR_POS advances by 2k + 1.
It ends with OUT_OF_RANGE when BR_POS is past the end, no one bit is found before the end, the prefix has 32 or more zeros, or fewer
than k bits follow the one bit. -/
def Obligations.RdUeReadsTheCode : Prop :=
  ∀ s : State,
    (∀ k, ReaderReady s → GolombAt s k →
      exec .rdUe s = .next (readState s (BitVec.ofNat 32 (golombNumber s k)) (s.regs.brPos.toNat + 2 * k + 1))) ∧
    (ReaderReady s → GolombFails s → exec .rdUe s = .next (errorState s .outOfRange)) ∧
    (inSpace s.regs.brBase.toNat s.regs.brLen.toNat → 8 * s.regs.brLen.toNat < s.regs.brPos.toNat →
      exec .rdUe s = .next (errorState s .outOfRange))

/-- 41_bitreader.md R157: RD_SE reads the code RD_UE would read, with its failures, and RES0 is the signed value of its code number in
two's complement. -/
def Obligations.RdSeReadsTheSignedCode : Prop :=
  ∀ s : State,
    (∀ k, ReaderReady s → GolombAt s k →
      exec .rdSe s = .next (readState s (BitVec.ofInt 32 (signedOf (golombNumber s k))) (s.regs.brPos.toNat + 2 * k + 1))) ∧
    (ReaderReady s → GolombFails s → exec .rdSe s = .next (errorState s .outOfRange)) ∧
    (inSpace s.regs.brBase.toNat s.regs.brLen.toNat → 8 * s.regs.brLen.toNat < s.regs.brPos.toNat →
      exec .rdSe s = .next (errorState s .outOfRange))

/-- 41_bitreader.md R151: every reader command with BR_POS past the end, RD_BITS 0 too, ends with OUT_OF_RANGE before it reads anything,
and the reader commands keep BR_POS ≤ 8 · BR_LEN. -/
def Obligations.ReaderPositionIsChecked : Prop :=
  ∀ (s : State) (i : Instr), (∃ n ≤ 32, i = .rdBits n) ∨ i = .rdBit ∨ i = .rdUe ∨ i = .rdSe →
    inSpace s.regs.brBase.toNat s.regs.brLen.toNat →
    (8 * s.regs.brLen.toNat < s.regs.brPos.toNat → exec i s = .next (errorState s .outOfRange)) ∧
    (s.regs.brPos.toNat ≤ 8 * s.regs.brLen.toNat → ∀ t, exec i s = .next t → t.regs.brPos.toNat ≤ 8 * t.regs.brLen.toNat)

/-! ### BitWriter -/

/-- 42_bitwriter.md R173: WR_BITS n emits the n low bits of ARG0, most significant first (R171). A value that does not fit in n bits
gives ILLEGAL_COMMAND, whatever the capacity; bits that do not fit in the capacity give OUT_OF_RANGE and nothing is written. -/
def Obligations.WrBitsEmitsTheField : Prop :=
  ∀ (s : State) (n : Nat),
    (n ≤ 32 → inSpace s.regs.bwBase.toNat s.regs.bwCap.toNat → 2 ^ n ≤ s.regs.arg0.toNat →
      exec (.wrBits n) s = .next (errorState s .illegalCommand)) ∧
    (n ≤ 32 → inSpace s.regs.bwBase.toNat s.regs.bwCap.toNat → s.regs.arg0.toNat < 2 ^ n → ¬ HasRoom s n →
      exec (.wrBits n) s = .next (errorState s .outOfRange)) ∧
    (n ≤ 32 → WriterReady s → s.regs.arg0.toNat < 2 ^ n → HasRoom s n →
      ∃ t, exec (.wrBits n) s = .next t ∧ Emitted s t n (fun i => s.regs.arg0.toNat.testBit (n - 1 - i))) ∧
    (32 < n → n < 64 → ∀ i, decode (BitVec.ofNat 32 (0x11 + 256 * n)) ≠ .ok i)

/-- 42_bitwriter.md R174: WR_BIT emits the bit ARG0. ARG0 above 1 gives ILLEGAL_COMMAND, no room gives OUT_OF_RANGE. -/
def Obligations.WrBitEmitsTheBit : Prop :=
  ∀ s : State, inSpace s.regs.bwBase.toNat s.regs.bwCap.toNat →
    (1 < s.regs.arg0.toNat → exec .wrBit s = .next (errorState s .illegalCommand)) ∧
    (s.regs.arg0.toNat ≤ 1 → ¬ HasRoom s 1 → exec .wrBit s = .next (errorState s .outOfRange)) ∧
    (s.regs.arg0.toNat ≤ 1 → WriterReady s → HasRoom s 1 →
      ∃ t, exec .wrBit s = .next t ∧ Emitted s t 1 (fun _ => decide (s.regs.arg0.toNat = 1)))

/-- 42_bitwriter.md R177: WR_UE emits the shortest code of ARG0: k = floor(log2(ARG0 + 1)) zeros and the k + 1 bits of ARG0 + 1.
0xFFFFFFFF gives ILLEGAL_COMMAND, no room for the 2k + 1 bits gives OUT_OF_RANGE. -/
def Obligations.WrUeEmitsTheCode : Prop :=
  ∀ s : State, inSpace s.regs.bwBase.toNat s.regs.bwCap.toNat →
    (s.regs.arg0 = 0xFFFFFFFF → exec .wrUe s = .next (errorState s .illegalCommand)) ∧
    ∀ k, s.regs.arg0 ≠ 0xFFFFFFFF → IsPrefix s.regs.arg0.toNat k →
      (¬ HasRoom s (2 * k + 1) → exec .wrUe s = .next (errorState s .outOfRange)) ∧
      (WriterReady s → HasRoom s (2 * k + 1) →
        ∃ t, exec .wrUe s = .next t ∧ Emitted s t (2 * k + 1) (golombBit s.regs.arg0.toNat k))

/-- 42_bitwriter.md R178: WR_SE emits the code of the code number 2v − 1 or −2v of v = s32(ARG0), as WR_UE would. −2^31 gives
ILLEGAL_COMMAND, no room gives OUT_OF_RANGE. -/
def Obligations.WrSeEmitsTheCode : Prop :=
  ∀ s : State, inSpace s.regs.bwBase.toNat s.regs.bwCap.toNat →
    (s.regs.arg0 = 0x80000000 → exec .wrSe s = .next (errorState s .illegalCommand)) ∧
    ∀ k, s.regs.arg0 ≠ 0x80000000 → IsPrefix (codeOf s.regs.arg0.toInt) k →
      (¬ HasRoom s (2 * k + 1) → exec .wrSe s = .next (errorState s .outOfRange)) ∧
      (WriterReady s → HasRoom s (2 * k + 1) →
        ∃ t, exec .wrSe s = .next t ∧ Emitted s t (2 * k + 1) (golombBit (codeOf s.regs.arg0.toInt) k))

/-- 42_bitwriter.md R179: WR_ALIGN_FLUSH stores the partial byte, rounds BW_POS up to a byte boundary, clears BW_ACC and reports
BW_POS div 8 in RES0; at a boundary it writes nothing. With BW_POS past the capacity it ends with OUT_OF_RANGE. -/
def Obligations.WrAlignFlushPadsAndReports : Prop :=
  ∀ s : State, inSpace s.regs.bwBase.toNat s.regs.bwCap.toNat →
    (¬ HasRoom s 0 → exec .wrAlignFlush s = .next (errorState s .outOfRange)) ∧
    (admitted s s.regs.bwBase.toNat s.regs.bwCap.toNat → s.mem.wf = true → HasRoom s 0 →
      ∃ t, exec .wrAlignFlush s = .next t ∧
        t = okState s { s.regs with bwPos := BitVec.ofNat 32 (8 * ((s.regs.bwPos.toNat + 7) / 8)), bwAcc := 0,
                                    res0 := BitVec.ofNat 32 ((s.regs.bwPos.toNat + 7) / 8) } t.mem ∧
        ∀ a, t.mem.read a =
          if s.regs.bwPos.toNat % 8 ≠ 0 ∧ a = s.regs.bwBase.toNat + s.regs.bwPos.toNat / 8 then s.regs.bwAcc else s.mem.read a)

/-- 41_bitreader.md R154: WR_BITS n, WR_ALIGN_FLUSH, then RD_BITS n from the same start position of the written bytes gives the value
back, for every n in [0, 32] and every value below 2^n. -/
def Obligations.FixedWidthRoundTrip : Prop :=
  ∀ (s : State) (n : Nat), n ≤ 32 → WriterReady s → HasRoom s n → s.regs.arg0.toNat < 2 ^ n →
    ∃ t u r, exec (.wrBits n) s = .next t ∧ exec .wrAlignFlush t = .next u ∧
      exec (.rdBits n) { u with regs := { u.regs with brBase := s.regs.bwBase, brLen := s.regs.bwCap, brPos := s.regs.bwPos } } =
        .next r ∧ r.regs.status.code = .ok ∧ r.regs.res0 = s.regs.arg0

/-- 41_bitreader.md R158: WR_UE then RD_UE at the same bit position gives the value back for every v in [0, 2^32 − 2], and WR_SE then
RD_SE for every v in [−(2^31 − 1), 2^31 − 1]. -/
def Obligations.GolombRoundTrip : Prop :=
  ∀ (s : State) (k : Nat), WriterReady s → HasRoom s (2 * k + 1) →
    (s.regs.arg0 ≠ 0xFFFFFFFF → IsPrefix s.regs.arg0.toNat k →
      ∃ t r, exec .wrUe s = .next t ∧
        exec .rdUe { t with regs := { t.regs with brBase := s.regs.bwBase, brLen := s.regs.bwCap, brPos := s.regs.bwPos } } = .next r ∧
        r.regs.status.code = .ok ∧ r.regs.res0 = s.regs.arg0) ∧
    (s.regs.arg0 ≠ 0x80000000 → IsPrefix (codeOf s.regs.arg0.toInt) k →
      ∃ t r, exec .wrSe s = .next t ∧
        exec .rdSe { t with regs := { t.regs with brBase := s.regs.bwBase, brLen := s.regs.bwCap, brPos := s.regs.bwPos } } = .next r ∧
        r.regs.status.code = .ok ∧ r.regs.res0 = s.regs.arg0)

/-! ### NAL codec -/

/-- 43_nal_codec.md R191: NAL_UNESCAPE writes the unescaped input to the destination and its length to RES0, and nothing else; an output
that would pass DST_CAP gives OUT_OF_RANGE, with RES0 unchanged and only destination bytes changed. -/
def Obligations.NalUnescapeWritesTheUnescapedBytes : Prop :=
  ∀ s : State, CodecReady s →
    ((unescapeFrom 0 (sourceBytes s)).length ≤ s.regs.dstCap.toNat →
      ∃ t, exec .nalUnescape s = .next t ∧ Wrote s t (unescapeFrom 0 (sourceBytes s))) ∧
    (s.regs.dstCap.toNat < (unescapeFrom 0 (sourceBytes s)).length →
      ∃ t, exec .nalUnescape s = .next t ∧ FailedDst s t .outOfRange s.regs.dstBase.toNat s.regs.dstCap.toNat)

/-- 43_nal_codec.md R194: NAL_ESCAPE writes the escaped input to the destination and its length to RES0, and nothing else; an output
that would pass DST_CAP gives OUT_OF_RANGE, with RES0 unchanged and only destination bytes changed. -/
def Obligations.NalEscapeWritesTheEscapedBytes : Prop :=
  ∀ s : State, CodecReady s →
    ((escapeFrom 0 (sourceBytes s)).length ≤ s.regs.dstCap.toNat →
      ∃ t, exec .nalEscape s = .next t ∧ Wrote s t (escapeFrom 0 (sourceBytes s))) ∧
    (s.regs.dstCap.toNat < (escapeFrom 0 (sourceBytes s)).length →
      ∃ t, exec .nalEscape s = .next t ∧ FailedDst s t .outOfRange s.regs.dstBase.toNat s.regs.dstCap.toNat)

/-- 43_nal_codec.md R197: with DST_CAP ≥ SRC_LEN + SRC_LEN div 2 NAL_ESCAPE never gives OUT_OF_RANGE; its output is at least as long as
the input, with at most (n − 1) div 2 bytes inserted for n input bytes, and exactly so many when the input is all zero. -/
def Obligations.EscapeFitsInHalfAgain : Prop :=
  ∀ s : State, CodecReady s → s.regs.srcLen.toNat + s.regs.srcLen.toNat / 2 ≤ s.regs.dstCap.toNat →
    ∃ t, exec .nalEscape s = .next t ∧ t.regs.status.code = .ok ∧ s.regs.srcLen.toNat ≤ t.regs.res0.toNat ∧
      t.regs.res0.toNat ≤ s.regs.srcLen.toNat + (s.regs.srcLen.toNat - 1) / 2 ∧
      ((∀ k < s.regs.srcLen.toNat, s.mem.read (s.regs.srcBase.toNat + k) = 0) →
        t.regs.res0.toNat = s.regs.srcLen.toNat + (s.regs.srcLen.toNat - 1) / 2)

/-- 43_nal_codec.md R196: NAL_UNESCAPE of the output of NAL_ESCAPE of x gives exactly x, wherever the host puts the second output; the
other order does not hold: 00 00 03 05 unescapes to 00 00 05, which escapes to itself. -/
def Obligations.UnescapeUndoesEscape : Prop :=
  (∀ (s : State) (b : Word) (c : Length), CodecReady s → s.regs.srcLen.toNat + s.regs.srcLen.toNat / 2 ≤ s.regs.dstCap.toNat →
    inSpace b.toNat c.toNat → admitted s b.toNat c.toNat → s.regs.srcLen.toNat ≤ c.toNat →
    (s.regs.dstBase.toNat + s.regs.dstCap.toNat ≤ b.toNat ∨ b.toNat + c.toNat ≤ s.regs.dstBase.toNat) →
    ∃ t u, exec .nalEscape s = .next t ∧
      exec .nalUnescape { t with regs := { t.regs with srcBase := t.regs.dstBase, srcLen := t.regs.res0.setWidth 29, dstBase := b,
                                                       dstCap := c } } = .next u ∧
      u.regs.status.code = .ok ∧ u.regs.res0.toNat = s.regs.srcLen.toNat ∧
      ∀ j < s.regs.srcLen.toNat, u.mem.read (b.toNat + j) = s.mem.read (s.regs.srcBase.toNat + j)) ∧
  unescapeFrom 0 [0x00, 0x00, 0x03, 0x05] = [0x00, 0x00, 0x05] ∧ escapeFrom 0 [0x00, 0x00, 0x05] = [0x00, 0x00, 0x05]

/-- 43_nal_codec.md R198, its first sentence: an escaped output contains no 00 00 00, 00 00 01 or 00 00 02 anywhere. The rule's sentence
about an input that ends in 00 00 is not claimed: R194 contradicts it (log entry 18). -/
def Obligations.EscapedOutputHasNoStartCode : Prop :=
  ∀ s t : State, CodecReady s → exec .nalEscape s = .next t → t.engine = .idle → t.regs.status.code = .ok →
    ∀ j, j + 2 < t.regs.res0.toNat →
      ¬ (t.mem.read (s.regs.dstBase.toNat + j) = 0 ∧ t.mem.read (s.regs.dstBase.toNat + j + 1) = 0 ∧
         (t.mem.read (s.regs.dstBase.toNat + j + 2)).toNat ≤ 2)

/-! ### NAL locator -/

/-- 44_nal_locator.md R210, R211: NAL_LOCATE_AB reports the first start code at or after the cursor that a header byte follows; without
one it gives NONE and writes no register; with the cursor past the buffer it gives OUT_OF_RANGE. -/
def Obligations.LocateAbFindsTheNextStartCode : Prop :=
  ∀ s : State, SourceReady s →
    (∀ i, s.regs.locCursor.toNat ≤ i → i + 3 < s.regs.srcLen.toNat → StartCodeAt s i →
      (∀ j, s.regs.locCursor.toNat ≤ j → j < i → ¬ StartCodeAt s j) →
      exec .nalLocateAb s = .next (foundState s (i + 3) 0 (i + 4))) ∧
    (s.regs.locCursor.toNat ≤ s.regs.srcLen.toNat →
      (∀ j, s.regs.locCursor.toNat ≤ j → j + 3 < s.regs.srcLen.toNat → ¬ StartCodeAt s j) →
      exec .nalLocateAb s = .next (infoState s s.regs .noneFound)) ∧
    (s.regs.srcLen.toNat < s.regs.locCursor.toNat → exec .nalLocateAb s = .next (errorState s .outOfRange))

/-- 44_nal_locator.md R215: NAL_LOCATE_LP reports the unit the size field at the cursor prefixes, gives NONE at the end of the buffer,
and OUT_OF_RANGE for a cursor past the end, a truncated size field, a zero size or a size past the buffer end. -/
def Obligations.LocateLpReadsTheSizeField : Prop :=
  ∀ (s : State) (c n : Nat), SourceReady s → c = s.regs.locCursor.toNat → n = s.regs.srcLen.toNat →
    (c + 4 ≤ n → 0 < sizeAtCursor s c → sizeAtCursor s c ≤ n - c - 4 →
      exec .nalLocateLp s = .next (foundState s (c + 4) (sizeAtCursor s c) (c + 4 + sizeAtCursor s c))) ∧
    (c = n → exec .nalLocateLp s = .next (infoState s s.regs .noneFound)) ∧
    (n < c ∨ (c < n ∧ n < c + 4) ∨ (c + 4 ≤ n ∧ (sizeAtCursor s c = 0 ∨ n - c - 4 < sizeAtCursor s c)) →
      exec .nalLocateLp s = .next (errorState s .outOfRange))

/-! ### SPS rewriter -/

/-- 45_sps_rewriter.md R255, R256, with R236 to R253: on an input that the SPS grammar reads to the end of its walk, with a profile the
mask allows and DST_CAP ≥ SRC_LEN, SPS_REWRITE succeeds, RES0 = SRC_LEN, and the output is the input bit for bit but for the overridden
fields: `level_idc` at bits 16 to 23, and the timing fields where the input has them. No other byte changes. For every value of the
parameters `HIGH_PROFILE`, `SL_COUNT` and `SL_SIZE`; the first clause says what the values of 00_scope.md R7 are. -/
def Obligations.SpsRewriteChangesOnlyOverriddenFields : Prop :=
  (∀ s : State, s.platform.params = Params.spec →
    (∀ p < 256, (spsBits s).highProfile p = decide (p ≥ 100)) ∧ (∀ cfi, (spsBits s).slCount cfi = 8) ∧
    ∀ i, (spsBits s).slSize i = if i < 6 then 16 else 64) ∧
  ∀ (s : State) (timing : Option Nat) (endPos : Nat), CodecReady s → FpsFits s → s.regs.srcLen.toNat ≤ s.regs.dstCap.toNat →
    pSps (spsBits s) 0 = some (timing, endPos) → profileAllowed s = true →
    ∃ t, exec .spsRewrite s = .next t ∧
      t = okState s { s.regs with res0 := BitVec.ofNat 32 s.regs.srcLen.toNat } t.mem ∧
      (∀ p < 8 * s.regs.srcLen.toNat, specBit t.mem s.regs.dstBase.toNat p = rewrittenBit s timing p) ∧
      ∀ a, a < s.regs.dstBase.toNat ∨ s.regs.dstBase.toNat + s.regs.srcLen.toNat ≤ a → t.mem.read a = s.mem.read a

/-- 45_sps_rewriter.md R254, with R241: with DST_CAP ≥ SRC_LEN, an input that ends inside a field or holds an Exp-Golomb prefix of 32 or
more zeros, and a profile the mask does not allow, give MALFORMED_SPS; a readable input with an allowed profile and DST_CAP < SRC_LEN
gives OUT_OF_RANGE. -/
def Obligations.SpsFailureCodes : Prop :=
  ∀ s : State, CodecReady s → FpsFits s →
    (s.regs.srcLen.toNat ≤ s.regs.dstCap.toNat →
      pSps (spsBits s) 0 = none ∨ (0 < s.regs.srcLen.toNat ∧ profileAllowed s = false) →
      ∃ t, exec .spsRewrite s = .next t ∧ FailedDst s t .malformedSps s.regs.dstBase.toNat s.regs.dstCap.toNat) ∧
    (s.regs.dstCap.toNat < s.regs.srcLen.toNat → pSps (spsBits s) 0 ≠ none → profileAllowed s = true →
      ∃ t, exec .spsRewrite s = .next t ∧ FailedDst s t .outOfRange s.regs.dstBase.toNat s.regs.dstCap.toNat)

/-- 60_exceptions.md R325: UNSUPPORTED_CONFIGURATION comes only from SPS_REWRITE with FPS_SET = 1 and SPS_FPS_NUM ≥ 2^31, which gives it
whenever the common checks pass, before any access (45_sps_rewriter.md R231). -/
def Obligations.LargeFrameRateIsUnsupported : Prop :=
  (∀ s : State, UsableBuffers s.regs → ¬ FpsFits s → exec .spsRewrite s = .next (errorState s .unsupportedConfiguration)) ∧
  ∀ (i : Instr) (s t : State), exec i s = .next t → t.engine = .idle → t.regs.status.code = .unsupportedConfiguration →
    i = .spsRewrite ∧ ¬ FpsFits s

/-! ### DCA scanner -/

/-- 46_dca_scanner.md R281 to R284, R286: with the parameters at the values of 00_scope.md R7 no window matches two of the five patterns,
and the parameters (log entry 16) are the rows of the sync table. For every value of the parameters a window matches a family exactly when its low 48
bits under the family's mask are its value. -/
def Obligations.SyncPatternsAreDisjoint : Prop :=
  (∀ (f g : Family) (w : Window), matchesSync Params.spec f w = true → matchesSync Params.spec g w = true → f = g) ∧
  (∀ s : State, s.platform.params = Params.spec → syncRows s = syncTable) ∧
  ∀ (s : State) (f : Family) (w : Window), matchesSync s.platform.params f w = true ↔
    ∃ row ∈ syncRows s, row.family = (familyNumber f).toNat ∧ SyncMatch row w.toNat

/-- 46_dca_scanner.md R285, with R281: phase 0, one byte. With no family locked a marker locks its family, the first in the order 1 to 5,
and records START, with a family locked only its marker starts a frame, and any other byte only updates WIN and COUNT. -/
def Obligations.ScanPhaseNoStart : Prop :=
  ∀ (s : State) (b : Byte), OneByteScan s b → s.regs.dca.phase = 0 →
    (∀ before row others, syncRows s = before ++ row :: others → s.regs.dca.lock = 0 →
      (∀ x ∈ before, ¬ SyncMatch x (winAfter s b)) → SyncMatch row (winAfter s b) →
      exec (.dcaScan false) s = .next (scannedState s
        { byteTaken s b with phase := 1, lock := BitVec.ofNat 3 row.family, count := 0,
                             start := BitVec.ofInt 32 ((countAfter s : Int) - row.mlen) })) ∧
    (∀ row, LockedMarker s b row →
      exec (.dcaScan false) s = .next (scannedState s { byteTaken s b with phase := 1, count := 0 })) ∧
    ((∀ row ∈ syncRows s, s.regs.dca.lock = 0 ∨ s.regs.dca.lock.toNat = row.family → ¬ SyncMatch row (winAfter s b)) →
      exec (.dcaScan false) s = .next (scannedState s (byteTaken s b)))

/-- 46_dca_scanner.md R283, R284, R286: phase 1, one byte. At the size position FSIZE takes the family's size, and the phase becomes 2
after a core family of `EXSS_AFTER_CORE` and 4 after any other family; at any other count only WIN and COUNT change. -/
def Obligations.ScanPhaseAwaitSize : Prop :=
  ∀ (s : State) (b : Byte), OneByteScan s b → s.regs.dca.phase = 1 → ∀ row ∈ syncRows s, s.regs.dca.lock.toNat = row.family →
    (countAfter s = row.sizeAt →
      exec (.dcaScan false) s = .next (scannedState s
        { byteTaken s b with fsize := BitVec.ofNat 32 (row.size (winAfter s b)),
                             phase := if row.exssAfter then 2 else 4 })) ∧
    (countAfter s ≠ row.sizeAt → exec (.dcaScan false) s = .next (scannedState s (byteTaken s b)))

/-- 46_dca_scanner.md R287, with R292: phase 2, one byte. The locked family's marker at or past the frame size is the boundary. Else an
EXSS marker that began at or after the end of the core frame moves to phase 3 with FSIZE its offset; any other byte only updates WIN and
COUNT. -/
def Obligations.ScanPhaseAdjacent : Prop :=
  ∀ (s : State) (b : Byte), OneByteScan s b → s.regs.dca.phase = 2 →
    (∀ row, LockedMarker s b row → s.regs.dca.fsize.toNat ≤ countAfter s →
      exec (.dcaScan false) s = .next (boundaryState s row)) ∧
    ((∀ row, LockedMarker s b row → countAfter s < s.regs.dca.fsize.toNat) →
      (SyncMatch (exssRowOf s) (winAfter s b) → s.regs.dca.fsize.toNat ≤ countAfter s + 2 →
        exec (.dcaScan false) s = .next (scannedState s
          { byteTaken s b with fsize := BitVec.ofNat 32 (countAfter s + 2), phase := 3 })) ∧
      (¬ SyncMatch (exssRowOf s) (winAfter s b) ∨ countAfter s + 2 < s.regs.dca.fsize.toNat →
        exec (.dcaScan false) s = .next (scannedState s (byteTaken s b))))

/-- 46_dca_scanner.md R288, R295: phase 3, one byte. At the substream's size position FSIZE takes the total size and the phase becomes
4; the sum FSIZE + 4 is not reduced. That ExssSize is the parameter `DCA_SIZE` of EXSS here too is log entry 22. -/
def Obligations.ScanPhaseExssSize : Prop :=
  ∀ (s : State) (b : Byte), OneByteScan s b → s.regs.dca.phase = 3 →
    (countAfter s = s.regs.dca.fsize.toNat + 4 →
      exec (.dcaScan false) s = .next (scannedState s
        { byteTaken s b with fsize := BitVec.ofNat 32 (s.regs.dca.fsize.toNat + (exssRowOf s).size (winAfter s b)), phase := 4 })) ∧
    (countAfter s ≠ s.regs.dca.fsize.toNat + 4 → exec (.dcaScan false) s = .next (scannedState s (byteTaken s b)))

/-- 46_dca_scanner.md R289, with R292: phase 4, one byte. The locked family's marker at or past the frame size is the boundary: OK, RES0
the offset of the frame's first byte, PHASE, WIN and COUNT 0, LOCK, FSIZE and START kept. Any other byte only updates WIN and COUNT. -/
def Obligations.ScanPhaseNextMarker : Prop :=
  ∀ (s : State) (b : Byte), OneByteScan s b → s.regs.dca.phase = 4 →
    (∀ row, LockedMarker s b row → s.regs.dca.fsize.toNat ≤ countAfter s →
      exec (.dcaScan false) s = .next (boundaryState s row)) ∧
    ((∀ row, LockedMarker s b row → countAfter s < s.regs.dca.fsize.toNat) →
      exec (.dcaScan false) s = .next (scannedState s (byteTaken s b)))

/-- 46_dca_scanner.md R296, with R280, R291: a chunk fed whole or split in two passes through the same states: when the first part holds no
boundary, the scan of the whole leaves the state the scan of the second part leaves, but for the source registers, and RES0, which at a
boundary differs by the first part's length and else is unchanged; when it holds one, the whole stops there too, in the same state. -/
def Obligations.ChunkingInvariance : Prop :=
  ∀ (s t : State) (n1 n2 : Nat), SourceReady s → s.regs.srcLen.toNat = n1 + n2 →
    exec (.dcaScan false) { s with regs := { s.regs with srcLen := BitVec.ofNat 29 n1 } } = .next t →
    (t.regs.status.code = .notYetComplete → ∃ u,
      exec (.dcaScan false) { t with regs := { t.regs with srcBase := s.regs.srcBase + BitVec.ofNat 32 n1,
                                                           srcLen := BitVec.ofNat 29 n2 } } = .next u ∧
      exec (.dcaScan false) s = .next { u with regs := { u.regs with
        srcBase := s.regs.srcBase, srcLen := s.regs.srcLen,
        res0 := if u.regs.status.code = .ok then u.regs.res0 + BitVec.ofNat 32 n1 else s.regs.res0 } }) ∧
    (t.regs.status.code = .ok → exec (.dcaScan false) s = .next { t with regs := { t.regs with srcLen := s.regs.srcLen } })

/-- 46_dca_scanner.md R290, R294: with F = 1 DCA_SCAN reports SRC_LEN and reads no byte and no DCA register; with F = 0 a state no scan
produces gives ILLEGAL_COMMAND; an empty chunk gives NOT_YET_COMPLETE. -/
def Obligations.ScanBypassAndStateCheck : Prop :=
  ∀ s : State, inSpace s.regs.srcBase.toNat s.regs.srcLen.toNat →
    exec (.dcaScan true) s = .next (okState s { s.regs with res0 := BitVec.ofNat 32 s.regs.srcLen.toNat } s.mem) ∧
    (4 < s.regs.dca.phase.toNat ∨ 5 < s.regs.dca.lock.toNat ∨ (s.regs.dca.phase ≠ 0 ∧ s.regs.dca.lock = 0) →
      exec (.dcaScan false) s = .next (errorState s .illegalCommand)) ∧
    (s.regs.srcLen = 0 → s.regs.dca.phase.toNat ≤ 4 → s.regs.dca.lock.toNat ≤ 5 → (s.regs.dca.phase = 0 ∨ s.regs.dca.lock ≠ 0) →
      exec (.dcaScan false) s = .next (scannedState s s.regs.dca))

/-- 46_dca_scanner.md R297: DCA_RESET gives the seven DCA registers 0 and changes nothing else. -/
def Obligations.DcaResetClearsTheScanner : Prop :=
  ∀ s : State, exec .dcaReset s = .next (okState s { s.regs with dca := ⟨0, 0, 0, 0, 0, 0⟩ } s.mem)
end

