-- ==== Sys2Proof/Laws/Memory.lean ====
section
/-! SUPPORT. The laws of host memory: a read after a write, and that every memory operation keeps the canonical form. -/

namespace Sys2Proof.Machine

@[simp] theorem Memory.read_nil (a : Nat) : Memory.read [] a = unlistedByte := rfl

theorem Memory.read_cons (k : Nat) (v : Byte) (m : Memory) (a : Nat) :
    Memory.read ((k, v) :: m) a = if k = a then v else Memory.read m a := rfl

@[simp] theorem Memory.wfFrom_nil (lo : Nat) : Memory.wfFrom lo [] = true := rfl

theorem Memory.wfFrom_cons (lo k : Nat) (v : Byte) (m : Memory) :
    Memory.wfFrom lo ((k, v) :: m) = true ↔
      lo ≤ k ∧ k < addressSpace ∧ v ≠ unlistedByte ∧ Memory.wfFrom (k + 1) m = true := by
  simp [Memory.wfFrom, and_assoc]

/-- The canonical form from an address on is the canonical form from any lower one on. -/
theorem Memory.wfFrom_lower {lo lo' : Nat} {m : Memory} (h : lo' ≤ lo) (hm : Memory.wfFrom lo m = true) :
    Memory.wfFrom lo' m = true := by
  cases m with
  | nil => rfl
  | cons c m =>
    obtain ⟨k, v⟩ := c
    rw [Memory.wfFrom_cons] at hm ⊢
    exact ⟨h.trans hm.1, hm.2⟩

/-- Below the canonical form's first address nothing is listed. -/
theorem Memory.read_below {lo a : Nat} {m : Memory} (hm : Memory.wfFrom lo m = true) (h : a < lo) :
    Memory.read m a = unlistedByte := by
  induction m generalizing lo with
  | nil => rfl
  | cons c m ih =>
    obtain ⟨k, v⟩ := c
    rw [Memory.wfFrom_cons] at hm
    rw [Memory.read_cons, if_neg (by omega)]
    exact ih hm.2.2.2 (by omega)

/-- A put keeps the canonical form. -/
theorem Memory.wfFrom_put {lo a : Nat} {v : Byte} {m : Memory} (hm : Memory.wfFrom lo m = true) (hlo : lo ≤ a)
    (ha : a < addressSpace) : Memory.wfFrom lo (Memory.put m a v) = true := by
  induction m generalizing lo with
  | nil =>
    by_cases hv : v = unlistedByte <;> simp [Memory.put, hv, Memory.wfFrom_cons, hlo, ha]
  | cons c m ih =>
    obtain ⟨k, w⟩ := c
    have hc := (Memory.wfFrom_cons lo k w m).mp hm
    simp only [Memory.put]
    split
    · split
      · exact hm
      · rename_i hv
        exact (Memory.wfFrom_cons ..).mpr
          ⟨hlo, ha, hv, (Memory.wfFrom_cons ..).mpr ⟨by omega, hc.2.1, hc.2.2.1, hc.2.2.2⟩⟩
    · split
      · rename_i hk
        subst hk
        split
        · exact Memory.wfFrom_lower (by omega) hc.2.2.2
        · rename_i hv
          exact (Memory.wfFrom_cons ..).mpr ⟨hc.1, hc.2.1, hv, hc.2.2.2⟩
      · exact (Memory.wfFrom_cons ..).mpr ⟨hc.1, hc.2.1, hc.2.2.1, ih hc.2.2.2 (by omega)⟩

/-- A put is read back at its address and nowhere else. -/
theorem Memory.read_put {lo a : Nat} {v : Byte} {m : Memory} (hm : Memory.wfFrom lo m = true) (b : Nat) :
    Memory.read (Memory.put m a v) b = if a = b then v else Memory.read m b := by
  induction m generalizing lo with
  | nil => by_cases hv : v = unlistedByte <;> by_cases hb : a = b <;> simp [Memory.put, hv, hb, Memory.read_cons]
  | cons c m ih =>
    obtain ⟨k, w⟩ := c
    have hc := (Memory.wfFrom_cons lo k w m).mp hm
    simp only [Memory.put]
    split
    · split
      · rename_i hak hv
        by_cases hb : a = b
        · subst hb
          rw [if_pos rfl, hv, Memory.read_cons, if_neg (by omega)]
          exact Memory.read_below hc.2.2.2 (by omega)
        · rw [if_neg hb]
      · rw [Memory.read_cons]
    · split
      · rename_i hk
        subst hk
        split
        · rename_i hv
          by_cases hb : a = b
          · subst hb
            rw [if_pos rfl, hv]
            exact Memory.read_below hc.2.2.2 (by omega)
          · rw [if_neg hb, Memory.read_cons, if_neg hb]
        · rw [Memory.read_cons, Memory.read_cons]
          split <;> rfl
      · rw [Memory.read_cons, Memory.read_cons, ih hc.2.2.2]
        by_cases hb : a = b
        · subst hb
          rw [if_neg (by omega), if_pos rfl, if_pos rfl]
        · simp [hb]

/-! ### read, write -/

/-- A write keeps the canonical form. -/
theorem Memory.wf_write {m : Memory} (hm : m.wf = true) (a : Nat) (v : Byte) : (m.write a v).wf = true := by
  unfold Memory.write
  split
  · exact Memory.wfFrom_put hm (Nat.zero_le a) (by assumption)
  · exact hm

/-- Everything a write does: the byte at its address, if there is one, and no other. -/
theorem Memory.read_write {m : Memory} (hm : m.wf = true) (a : Nat) (v : Byte) (b : Nat) :
    (m.write a v).read b = if a = b ∧ a < addressSpace then v else m.read b := by
  unfold Memory.write
  split
  · rename_i ha
    rw [Memory.read_put hm]
    simp [ha]
  · rename_i ha
    simp [ha]

/-- A write leaves every other address alone, in every memory, canonical or not. -/
theorem Memory.read_put_other (m : Memory) {a b : Nat} (v : Byte) (h : a ≠ b) :
    Memory.read (Memory.put m a v) b = Memory.read m b := by
  induction m with
  | nil => by_cases hv : v = unlistedByte <;> simp [Memory.put, hv, Memory.read_cons, h]
  | cons c m ih =>
    obtain ⟨k, w⟩ := c
    simp only [Memory.put]
    split
    · split
      · rfl
      · rw [Memory.read_cons, if_neg h]
    · split
      · rename_i hk
        subst hk
        split <;> simp [Memory.read_cons, h]
      · rw [Memory.read_cons, Memory.read_cons, ih]

theorem Memory.read_write_other (m : Memory) {a b : Nat} (v : Byte) (h : a ≠ b) : (m.write a v).read b = m.read b := by
  unfold Memory.write
  split
  · exact Memory.read_put_other m v h
  · rfl

theorem Memory.read_write_same {m : Memory} (hm : m.wf = true) {a : Nat} (v : Byte) (ha : a < addressSpace) :
    (m.write a v).read a = v := by
  rw [Memory.read_write hm]
  simp [ha]

/-- Two canonical memories that read the same everywhere are the same list. -/
theorem Memory.wfFrom_ext {lo : Nat} {m m' : Memory} (hm : Memory.wfFrom lo m = true) (hm' : Memory.wfFrom lo m' = true)
    (h : ∀ a, Memory.read m a = Memory.read m' a) : m = m' := by
  induction m generalizing lo m' with
  | nil =>
    cases m' with
    | nil => rfl
    | cons c m' =>
      obtain ⟨k, v⟩ := c
      have hc := (Memory.wfFrom_cons ..).mp hm'
      have := h k
      rw [Memory.read_cons, if_pos rfl] at this
      exact absurd this.symm hc.2.2.1
  | cons c m ih =>
    obtain ⟨k, v⟩ := c
    have hc := (Memory.wfFrom_cons ..).mp hm
    cases m' with
    | nil =>
      have := h k
      rw [Memory.read_cons, if_pos rfl] at this
      exact absurd this hc.2.2.1
    | cons c' m' =>
      obtain ⟨k', v'⟩ := c'
      have hc' := (Memory.wfFrom_cons ..).mp hm'
      have hk : k = k' := by
        rcases Nat.lt_trichotomy k k' with hlt | heq | hgt
        · have := h k
          rw [Memory.read_cons, if_pos rfl, Memory.read_cons, if_neg (by omega),
            Memory.read_below hc'.2.2.2 (by omega)] at this
          exact absurd this hc.2.2.1
        · exact heq
        · have := h k'
          rw [Memory.read_cons, if_neg (by omega), Memory.read_cons, if_pos rfl,
            Memory.read_below hc.2.2.2 (by omega)] at this
          exact absurd this.symm hc'.2.2.1
      subst hk
      have hv : v = v' := by simpa [Memory.read_cons] using h k
      subst hv
      congr 1
      refine ih hc.2.2.2 hc'.2.2.2 fun a => ?_
      by_cases ha : k = a
      · subst ha
        rw [Memory.read_below hc.2.2.2 (by omega), Memory.read_below hc'.2.2.2 (by omega)]
      · simpa [Memory.read_cons, ha] using h a

/-! ### writeList, scramble -/

theorem Memory.wf_writeList {m : Memory} (hm : m.wf = true) (a : Nat) (bs : List Byte) : (m.writeList a bs).wf = true := by
  induction bs generalizing m a with
  | nil => exact hm
  | cons b bs ih => exact ih (Memory.wf_write hm a b) (a + 1)

theorem Memory.read_writeList_outside (m : Memory) (a : Nat) (bs : List Byte) {b : Nat} (h : b < a ∨ a + bs.length ≤ b) :
    (m.writeList a bs).read b = m.read b := by
  induction bs generalizing m a with
  | nil => rfl
  | cons c bs ih =>
    simp only [List.length_cons] at h
    rw [Memory.writeList, ih (m.write a c) (a + 1) (by omega), Memory.read_write_other m c (by omega)]

theorem Memory.read_writeList_inside {m : Memory} (hm : m.wf = true) (a : Nat) (bs : List Byte) (i : Nat) (hi : i < bs.length)
    (ha : a + bs.length ≤ addressSpace) : (m.writeList a bs).read (a + i) = bs[i] := by
  induction bs generalizing m a i with
  | nil => simp at hi
  | cons c bs ih =>
    simp only [List.length_cons] at hi ha
    cases i with
    | zero =>
      rw [Memory.writeList, Memory.read_writeList_outside _ _ _ (by omega)]
      exact Memory.read_write_same hm c (by omega)
    | succ i =>
      have := ih (Memory.wf_write hm a c) (a + 1) i (by omega) (by omega)
      rw [show a + 1 + i = a + (i + 1) by omega] at this
      simpa [Memory.writeList] using this

theorem Memory.wf_scramble {m : Memory} (hm : m.wf = true) (a c n : Nat) : (scramble m a c n).wf = true := by
  induction n generalizing m a c with
  | zero => exact hm
  | succ n ih => exact ih (Memory.wf_write hm a _) (a + 1) (c + 1)

theorem Memory.read_scramble_outside (m : Memory) (a c n : Nat) {b : Nat} (h : b < a ∨ a + n ≤ b) :
    (scramble m a c n).read b = m.read b := by
  induction n generalizing m a c with
  | zero => rfl
  | succ n ih => rw [scramble, ih _ (a + 1) (c + 1) (by omega), Memory.read_write_other m _ (by omega)]

/-- Each byte of the range takes a free byte of its own. -/
theorem Memory.read_scramble_inside {m : Memory} (hm : m.wf = true) (a c n i : Nat) (hi : i < n) (ha : a + n ≤ addressSpace) :
    (scramble m a c n).read (a + i) = Config.freeByte (c + i) := by
  induction n generalizing m a c i with
  | zero => omega
  | succ n ih =>
    cases i with
    | zero =>
      rw [scramble, Memory.read_scramble_outside _ _ _ _ (by omega)]
      exact Memory.read_write_same hm _ (by omega)
    | succ i =>
      have := ih (Memory.wf_write hm a (Config.freeByte c)) (a + 1) (c + 1) i (by omega) (by omega)
      rw [show a + 1 + i = a + (i + 1) by omega, show c + 1 + i = c + (i + 1) by omega] at this
      exact this

end Sys2Proof.Machine
end

