-- ==== Sys2Proof/Laws/State.lean ====
section
/-! SUPPORT. One lemma per field per named update of State, so that no proof unfolds a record update. -/

namespace Sys2Proof.Machine

variable (s : State) (r : Regs) (m : Memory) (c : Code) (w : Word) (a n : Nat)

/-! ### commit -/

@[simp] theorem commit_regs : (commit s r m c).regs = { r with status := ⟨false, codeIsError c, c⟩ } := rfl
@[simp] theorem commit_mem : (commit s r m c).mem = m := rfl
@[simp] theorem commit_engine : (commit s r m c).engine = .idle := rfl
@[simp] theorem commit_platform : (commit s r m c).platform = s.platform := rfl
@[simp] theorem commit_program : (commit s r m c).program = s.program := rfl
@[simp] theorem commit_observed : (commit s r m c).observed = s.observed := rfl
@[simp] theorem commit_refusedMark : (commit s r m c).refusedMark = s.refusedMark := rfl
@[simp] theorem commit_freeCount : (commit s r m c).freeCount = s.freeCount := rfl

/-! ### failWith -/

@[simp] theorem failWith_regs : (failWith s c).regs = { s.regs with status := ⟨false, codeIsError c, c⟩ } := rfl
@[simp] theorem failWith_mem : (failWith s c).mem = s.mem := rfl
@[simp] theorem failWith_engine : (failWith s c).engine = .idle := rfl
@[simp] theorem failWith_platform : (failWith s c).platform = s.platform := rfl
@[simp] theorem failWith_program : (failWith s c).program = s.program := rfl
@[simp] theorem failWith_observed : (failWith s c).observed = s.observed := rfl
@[simp] theorem failWith_refusedMark : (failWith s c).refusedMark = s.refusedMark := rfl
@[simp] theorem failWith_freeCount : (failWith s c).freeCount = s.freeCount := rfl

/-! ### stick -/

@[simp] theorem stick_regs : (stick s).regs = s.regs := rfl
@[simp] theorem stick_mem : (stick s).mem = s.mem := rfl
@[simp] theorem stick_engine : (stick s).engine = .stuck s.regs.cmd := rfl
@[simp] theorem stick_platform : (stick s).platform = s.platform := rfl
@[simp] theorem stick_program : (stick s).program = s.program := rfl
@[simp] theorem stick_observed : (stick s).observed = s.observed := rfl
@[simp] theorem stick_refusedMark : (stick s).refusedMark = s.refusedMark := rfl
@[simp] theorem stick_freeCount : (stick s).freeCount = s.freeCount := rfl

/-! ### launch -/

@[simp] theorem launch_regs :
    (launch s w).regs = { s.regs with cmd := w, status := { s.regs.status with busy := true } } := rfl
@[simp] theorem launch_mem : (launch s w).mem = s.mem := rfl
@[simp] theorem launch_engine : (launch s w).engine = .pending w := rfl
@[simp] theorem launch_platform : (launch s w).platform = s.platform := rfl
@[simp] theorem launch_program : (launch s w).program = s.program := rfl
@[simp] theorem launch_observed : (launch s w).observed = s.observed := rfl
@[simp] theorem launch_refusedMark : (launch s w).refusedMark = s.refusedMark := rfl
@[simp] theorem launch_freeCount : (launch s w).freeCount = s.freeCount := rfl

/-! ### unspecify -/

@[simp] theorem unspecify_regs : (unspecify s a n).regs = s.regs := rfl
@[simp] theorem unspecify_mem : (unspecify s a n).mem = scramble s.mem a s.freeCount n := rfl
@[simp] theorem unspecify_engine : (unspecify s a n).engine = s.engine := rfl
@[simp] theorem unspecify_platform : (unspecify s a n).platform = s.platform := rfl
@[simp] theorem unspecify_program : (unspecify s a n).program = s.program := rfl
@[simp] theorem unspecify_observed : (unspecify s a n).observed = s.observed := rfl
@[simp] theorem unspecify_refusedMark : (unspecify s a n).refusedMark = s.refusedMark := rfl
@[simp] theorem unspecify_freeCount : (unspecify s a n).freeCount = s.freeCount + n := rfl

/-! ### hardReset -/

@[simp] theorem hardReset_regs : (hardReset s).regs = Regs.reset := rfl
@[simp] theorem hardReset_mem : (hardReset s).mem = s.mem := rfl
@[simp] theorem hardReset_engine : (hardReset s).engine = .idle := rfl
@[simp] theorem hardReset_platform : (hardReset s).platform = s.platform := rfl
@[simp] theorem hardReset_program : (hardReset s).program = s.program := rfl
@[simp] theorem hardReset_observed : (hardReset s).observed = s.observed := rfl
@[simp] theorem hardReset_refusedMark : (hardReset s).refusedMark = s.refusedMark := rfl
@[simp] theorem hardReset_freeCount : (hardReset s).freeCount = s.freeCount := rfl

/-! ### refuse -/

@[simp] theorem refuse_regs : (refuse s).regs = s.regs := rfl
@[simp] theorem refuse_mem : (refuse s).mem = s.mem := rfl
@[simp] theorem refuse_engine : (refuse s).engine = s.engine := rfl
@[simp] theorem refuse_platform : (refuse s).platform = s.platform := rfl
@[simp] theorem refuse_program : (refuse s).program = s.program := rfl
@[simp] theorem refuse_observed : (refuse s).observed = s.observed := rfl
@[simp] theorem refuse_refusedMark : (refuse s).refusedMark = true := rfl
@[simp] theorem refuse_freeCount : (refuse s).freeCount = s.freeCount := rfl

end Sys2Proof.Machine
end

