-- ==== Sys2Proof/Laws/Commands.lean ====
section
/-! SUPPORT. What the shared operations of the commands can do, said once for each: accesses, checks, the end of a command, the bit
cursor, the emit, and the walk's primitives. -/

namespace Sys2Proof.Machine

/-! ### Checks and accesses -/

@[simp] theorem require_true (c : Code) : require true c = .ok () := rfl
@[simp] theorem require_false (c : Code) : require false c = .error (.raise c) := rfl

theorem require_ok {b : Bool} {c : Code} {u : Unit} : require b c = .ok u ↔ b = true := by
  cases b <;> simp [require]

theorem require_error {b : Bool} {c : Code} {e : Halt} : require b c = .error e ↔ b = false ∧ e = .raise c := by
  cases b <;> simp [require, eq_comm]

/-- A bind of a command piece succeeds exactly when both parts do. -/
theorem cmd_bind_ok {α β : Type} {x : Cmd α} {f : α → Cmd β} {b : β} :
    (x >>= f) = .ok b ↔ ∃ a, x = .ok a ∧ f a = .ok b := by
  cases x <;> simp [bind, Except.bind]

/-- A bind of a command piece stops exactly when the first part stops, or the second does after it. -/
theorem cmd_bind_error {α β : Type} {x : Cmd α} {f : α → Cmd β} {e : Halt} :
    (x >>= f) = .error e ↔ x = .error e ∨ ∃ a, x = .ok a ∧ f a = .error e := by
  cases x <;> simp [bind, Except.bind]

theorem fetchByte_admitted {p : Platform} {a : Nat} (m : Memory) (h : admits p a = true) : fetchByte p m a = .ok (m.read a) := by
  simp [fetchByte, h]

theorem fetchByte_ok {p : Platform} {m : Memory} {a : Nat} {b : Byte} :
    fetchByte p m a = .ok b ↔ admits p a = true ∧ m.read a = b := by
  unfold fetchByte; split <;> simp_all

theorem fetchByte_error {p : Platform} {m : Memory} {a : Nat} {e : Halt} :
    fetchByte p m a = .error e ↔ admits p a = false ∧ e = .stuck := by
  unfold fetchByte
  split
  · simp_all
  · rename_i h
    simp only [h, Except.error.injEq, true_and]
    exact eq_comm

theorem storeByte_admitted {p : Platform} {a : Nat} (m : Memory) (v : Byte) (h : admits p a = true) :
    storeByte p m a v = .ok (m.write a v) := by
  simp [storeByte, h]

theorem storeByte_ok {p : Platform} {m m' : Memory} {a : Nat} {v : Byte} :
    storeByte p m a v = .ok m' ↔ admits p a = true ∧ m.write a v = m' := by
  unfold storeByte; split <;> simp_all

theorem storeByte_error {p : Platform} {m : Memory} {a : Nat} {v : Byte} {e : Halt} :
    storeByte p m a v = .error e ↔ admits p a = false ∧ e = .stuck := by
  unfold storeByte
  split
  · simp_all
  · rename_i h
    simp only [h, Except.error.injEq, true_and]
    exact eq_comm

/-- A platform without holes admits every address. -/
@[simp] theorem admits_noHoles (b : Word) (q : Params) (a : Nat) : admits ⟨b, [], q⟩ a = true := rfl

/-! ### The end of a command -/

/-- Everything `conclude` can answer. -/
theorem conclude_next {s t : State} {r : Cmd Done} (h : conclude s r = .next t) :
    (∃ d, r = .ok d ∧ t = commit s d.regs d.mem d.code) ∨
    (∃ c, r = .error (.raise c) ∧ t = failWith s c) ∨
    (r = .error .stuck ∧ t = stick s) := by
  match r, h with
  | .ok d, h => exact .inl ⟨d, rfl, by simpa [conclude] using h.symm⟩
  | .error (.raise c), h => exact .inr (.inl ⟨c, rfl, by simpa [conclude] using h.symm⟩)
  | .error .stuck, h => exact .inr (.inr ⟨rfl, by simpa [conclude] using h.symm⟩)

/-- Everything `concludeDst` can answer. -/
theorem concludeDst_next {s t : State} {r : Cmd Done} (h : concludeDst s r = .next t) :
    (∃ d, r = .ok d ∧ t = commit s d.regs d.mem d.code) ∨
    (∃ c, r = .error (.raise c) ∧ t = failWith (unspecify s s.regs.dstBase.toNat s.regs.dstCap.toNat) c) ∨
    (r = .error .stuck ∧ t = stick s) := by
  match r, h with
  | .ok d, h => exact .inl ⟨d, rfl, by simpa [concludeDst] using h.symm⟩
  | .error (.raise c), h => exact .inr (.inl ⟨c, rfl, by simpa [concludeDst] using h.symm⟩)
  | .error .stuck, h => exact .inr (.inr ⟨rfl, by simpa [concludeDst] using h.symm⟩)

theorem conclude_isNext (s : State) (r : Cmd Done) : ∃ t, conclude s r = .next t := by
  match r with
  | .ok d => exact ⟨_, rfl⟩
  | .error (.raise c) => exact ⟨_, rfl⟩
  | .error .stuck => exact ⟨_, rfl⟩

theorem concludeDst_isNext (s : State) (r : Cmd Done) : ∃ t, concludeDst s r = .next t := by
  match r with
  | .ok d => exact ⟨_, rfl⟩
  | .error (.raise c) => exact ⟨_, rfl⟩
  | .error .stuck => exact ⟨_, rfl⟩

/-- A command whose checks pass runs its own rule. -/
theorem guarded_pass {i : Instr} {s : State} {body : Host.Outcome State Fault Refusal} (hw : i.wellFormed = true)
    (hr : rangesOk s.regs i = true) : guarded i s body = body := by
  simp [guarded, hw, hr]

/-- Everything `guarded` can answer. -/
theorem guarded_next {i : Instr} {s t : State} {body : Host.Outcome State Fault Refusal} (h : guarded i s body = .next t) :
    (i.wellFormed = true ∧ rangesOk s.regs i = true ∧ body = .next t) ∨
    ((i.wellFormed = false ∨ rangesOk s.regs i = false) ∧ t = failWith s .illegalCommand) := by
  unfold guarded at h
  split at h
  · rename_i hc
    simp only [Bool.and_eq_true] at hc
    exact .inl ⟨hc.1, hc.2, h⟩
  · rename_i hc
    refine .inr ⟨?_, by simpa using h.symm⟩
    cases hw : i.wellFormed <;> cases hr : rangesOk s.regs i <;> simp_all

theorem guarded_isNext (i : Instr) (s : State) {body : Host.Outcome State Fault Refusal} (h : ∃ t, body = .next t) :
    ∃ t, guarded i s body = .next t := by
  unfold guarded; split
  · exact h
  · exact ⟨_, rfl⟩

/-! ### The bit cursor -/

theorem admitsBits_of {pl : Platform} {base p n : Nat} (h : ∀ i < n, admits pl (base + (p + i) / 8) = true) :
    admitsBits pl base p n = true := by
  induction n with
  | zero => rfl
  | succ n ih => simp [admitsBits, ih fun i hi => h i (by omega), h n (by omega)]

theorem admitsBits_iff {pl : Platform} {base p n : Nat} :
    admitsBits pl base p n = true ↔ ∀ i < n, admits pl (base + (p + i) / 8) = true := by
  refine ⟨fun h => ?_, admitsBits_of⟩
  induction n with
  | zero => simp
  | succ n ih =>
    simp only [admitsBits, Bool.and_eq_true] at h
    intro i hi
    rcases Nat.lt_succ_iff_lt_or_eq.mp hi with hlt | rfl
    · exact ih h.1 i hlt
    · exact h.2

/-- A fixed-width value fits its width. -/
theorem bitsAt_lt (m : Memory) (base p n : Nat) : bitsAt m base p n < 2 ^ n := by
  induction n with
  | zero => simp [bitsAt]
  | succ n ih =>
    have : (bitAt m base (p + n)).toNat ≤ 1 := by cases bitAt m base (p + n) <;> simp
    rw [bitsAt, Nat.pow_succ]
    omega

theorem readBits_ok {pl : Platform} {m : Memory} {base p n v : Nat} :
    readBits pl m base p n = .ok v ↔ admitsBits pl base p n = true ∧ bitsAt m base p n = v := by
  unfold readBits; split <;> simp_all

/-- Everything a fixed-width read does when it succeeds. -/
theorem readFixed_ok {pl : Platform} {m : Memory} {base limit pos n v : Nat} :
    readFixed pl m base limit pos n = .ok v ↔
      pos ≤ limit ∧ n ≤ limit - pos ∧ admitsBits pl base pos n = true ∧ bitsAt m base pos n = v := by
  simp only [readFixed, cmd_bind_ok, require_ok, readBits_ok, decide_eq_true_eq, exists_and_left, exists_const]

/-- The zero run of a code that has its one bit at k < fuel + j, with the bits from j on zero before it. -/
theorem zeroRun_ok {pl : Platform} {m : Memory} {base limit pos : Nat} {fuel j k : Nat}
    (hj : j ≤ k) (hk : k < j + fuel) (hl : pos + k < limit)
    (hz : ∀ i, j ≤ i → i < k → bitAt m base (pos + i) = false) (ho : bitAt m base (pos + k) = true)
    (ha : ∀ i, j ≤ i → i ≤ k → admits pl (base + (pos + i) / 8) = true) :
    zeroRun pl m base limit pos fuel j = .ok k := by
  induction fuel generalizing j with
  | zero => omega
  | succ fuel ih =>
    have hreq : decide (pos + j < limit) = true := by simp; omega
    rcases Nat.eq_or_lt_of_le hj with rfl | hlt
    · simp [zeroRun, hreq, readBit, ha j (Nat.le_refl j) (Nat.le_refl j), ho, bind, Except.bind]
    · have hb := hz j (Nat.le_refl j) hlt
      have := ih (by omega : j + 1 ≤ k) (by omega) (fun i hi => hz i (by omega)) (fun i hi => ha i (by omega))
      simpa [zeroRun, hreq, readBit, ha j (Nat.le_refl j) hj, hb, bind, Except.bind] using this

/-! ### The emit -/

@[simp] theorem streamBit_false (p : Nat) : streamBit false p = 0 := rfl

theorem bitsMsb_length (n v : Nat) : (bitsMsb n v).length = n := by
  induction n with
  | zero => rfl
  | succ n ih => simp [bitsMsb, ih]

theorem ueBits_length (c : Nat) : (ueBits c).length = 2 * Nat.log2 (c + 1) + 1 := by
  simp [ueBits, bitsMsb_length]; omega

/-- What every emit keeps and where it may store: the buffer, the position, the bytes of the emitted bits only, canonical memory. -/
theorem emitLoop_frame {pl : Platform} {bits : List Bool} {w w' : WCursor} (h : emitLoop pl bits w = .ok w') :
    w'.base = w.base ∧ w'.limit = w.limit ∧ w'.pos = w.pos + bits.length ∧
    (w.mem.wf = true → w'.mem.wf = true) ∧
    (∀ a, a < w.base + w.pos / 8 ∨ w.base + (w.pos + bits.length + 7) / 8 ≤ a → w'.mem.read a = w.mem.read a) := by
  induction bits generalizing w with
  | nil =>
    unfold emitLoop at h
    split at h
    · cases h
      simp
    · obtain ⟨m, hm, h⟩ := cmd_bind_ok.mp h
      obtain ⟨-, rfl⟩ := storeByte_ok.mp hm
      cases h
      refine ⟨rfl, rfl, by simp, fun hw => Memory.wf_write hw _ _, fun a ha => ?_⟩
      refine Memory.read_write_other _ _ ?_
      simp only [List.length_nil, Nat.add_zero] at ha
      omega
  | cons b bs ih =>
    unfold emitLoop at h
    split at h
    · obtain ⟨m, hm, h⟩ := cmd_bind_ok.mp h
      obtain ⟨-, rfl⟩ := storeByte_ok.mp hm
      obtain ⟨h1, h2, h3, h4, h5⟩ := ih h
      simp only [List.length_cons] at *
      refine ⟨h1, h2, by omega, fun hw => h4 (Memory.wf_write hw _ _), fun a ha => ?_⟩
      rw [h5 a (by omega)]
      exact Memory.read_write_other _ _ (by omega)
    · obtain ⟨h1, h2, h3, h4, h5⟩ := ih h
      simp only [List.length_cons] at *
      refine ⟨h1, h2, by omega, h4, fun a ha => h5 a (by omega)⟩

theorem emit_frame {pl : Platform} {bits : List Bool} {w w' : WCursor} (h : emit pl bits w = .ok w') :
    w.pos ≤ w.limit ∧ bits.length ≤ w.limit - w.pos ∧
    w'.base = w.base ∧ w'.limit = w.limit ∧ w'.pos = w.pos + bits.length ∧
    (w.mem.wf = true → w'.mem.wf = true) ∧
    (∀ a, a < w.base + w.pos / 8 ∨ w.base + (w.pos + bits.length + 7) / 8 ≤ a → w'.mem.read a = w.mem.read a) := by
  unfold emit at h
  split at h
  · rename_i hc
    refine ⟨hc.1, hc.2, ?_⟩
    split at h
    · rename_i hb
      cases h
      subst hb
      simp
    · exact emitLoop_frame h
  · exact absurd h (by simp)

/-- Everything a flush does when it succeeds. -/
theorem flush_ok {pl : Platform} {w w' : WCursor} (h : flush pl w = .ok w') :
    w.pos ≤ w.limit ∧ w'.base = w.base ∧ w'.limit = w.limit ∧ w'.acc = 0 ∧ w'.pos = 8 * ((w.pos + 7) / 8) ∧
    w'.mem = if w.pos % 8 = 0 then w.mem else w.mem.write (w.base + w.pos / 8) w.acc := by
  unfold flush at h
  split at h
  · rename_i hl
    split at h
    · rename_i h8
      cases h
      simp [hl, h8]
      omega
    · rename_i h8
      obtain ⟨m, hm, h⟩ := cmd_bind_ok.mp h
      obtain ⟨-, rfl⟩ := storeByte_ok.mp hm
      cases h
      simp [hl, h8]
      omega
  · exact absurd h (by simp)

/-! ### The scanner's parameters -/

/-- `Match(f, w)` as the rule writes it, on natural numbers. -/
theorem matchesSync_iff {p : Params} {f : Family} {w : Window} :
    matchesSync p f w = true ↔
      w.toNat % 2 ^ 48 &&& (p.dcaPat.get f).mask.toNat = (p.dcaPat.get f).value.toNat := by
  simp [matchesSync, ← BitVec.toNat_inj]

@[simp] theorem exssAfter_exss (p : Params) : exssAfter p .exss = false := rfl

/-! ### Walks -/

/-- A bind of two parts of a walk succeeds exactly when both do, one after the other. -/
theorem walk_bind_ok {α β : Type} {x : Walk α} {f : α → Walk β} {c : SpsCursors} {r : β × SpsCursors} :
    (x >>= f) c = .ok r ↔ ∃ a c', x c = .ok (a, c') ∧ f a c' = .ok r := by
  change (x c >>= fun p => f p.1 p.2) = .ok r ↔ _
  rw [cmd_bind_ok]
  simp only [Prod.exists]

theorem walk_pure_ok {α : Type} {a : α} {c : SpsCursors} {r : α × SpsCursors} :
    (pure a : Walk α) c = .ok r ↔ r = (a, c) := by
  change (Except.ok (a, c) : Cmd _) = .ok r ↔ _
  simp [eq_comm]

theorem asMalformed_ok {α : Type} {x : Cmd α} {a : α} : asMalformed x = .ok a ↔ x = .ok a := by
  match x with
  | .ok _ => simp [asMalformed]
  | .error (.raise _) => simp [asMalformed]
  | .error .stuck => simp [asMalformed]

/-- Everything `rd_u(n)` does when it succeeds. -/
theorem rdU_ok {x : SpsInput} {n : Nat} {c c' : SpsCursors} {v : Nat} (h : rdU x n c = .ok (v, c')) :
    readFixed x.platform x.input x.base x.limit c.rpos n = .ok v ∧ c' = { c with rpos := c.rpos + n } := by
  unfold rdU at h
  obtain ⟨v', hv, h⟩ := cmd_bind_ok.mp h
  rw [asMalformed_ok] at hv
  simp only [Except.ok.injEq, Prod.mk.injEq] at h
  obtain ⟨rfl, rfl⟩ := h
  exact ⟨hv, rfl⟩

/-- Everything `rd_ue()` does when it succeeds. -/
theorem rdUe_ok {x : SpsInput} {c c' : SpsCursors} {v : Nat} (h : rdUe x c = .ok (v, c')) :
    ∃ pos, readUe x.platform x.input x.base x.limit c.rpos = .ok (v, pos) ∧ c' = { c with rpos := pos } := by
  unfold rdUe at h
  obtain ⟨⟨v', pos⟩, hv, h⟩ := cmd_bind_ok.mp h
  rw [asMalformed_ok] at hv
  simp only [Except.ok.injEq, Prod.mk.injEq] at h
  obtain ⟨rfl, rfl⟩ := h
  exact ⟨pos, hv, rfl⟩

/-- Everything a write of the walk does when it succeeds. -/
theorem wrList_ok {x : SpsInput} {bits : List Bool} {c c' : SpsCursors} {u : Unit} (h : wrList x bits c = .ok (u, c')) :
    ∃ w, emit x.platform bits c.w = .ok w ∧ c' = { c with w := w } := by
  unfold wrList at h
  obtain ⟨w, hw, h⟩ := cmd_bind_ok.mp h
  simp only [Except.ok.injEq, Prod.mk.injEq] at h
  exact ⟨w, hw, h.2.symm⟩

end Sys2Proof.Machine
end

