-- ==== Sys2Proof/Laws/PerInstr.lean ====
section
/-! SUPPORT. Facts about every instruction as syntax, one lemma per constructor of Instr. -/

namespace Sys2Proof.Laws.EncodedFields

/-- The encoded word of a legal command has RSV = 0, an opcode of the map, and a count of at most 32 (30_encoding.md R103, R104). -/
def Statement (i : Instr) : Prop :=
  i.wellFormed = true →
    rsvField (encode i) = 0 ∧ (rowOf (opcField (encode i))).isSome = true ∧ nField (encode i) ≤ 32

/-- The fields of the two counted rows, for every legal count. -/
theorem counted_fields (n : Nat) (h : n ≤ 32) :
    (rsvField (encode (.rdBits n)) = 0 ∧ (rowOf (opcField (encode (.rdBits n)))).isSome = true ∧ nField (encode (.rdBits n)) ≤ 32) ∧
    (rsvField (encode (.wrBits n)) = 0 ∧ (rowOf (opcField (encode (.wrBits n)))).isSome = true ∧ nField (encode (.wrBits n)) ≤ 32) := by
  have hn : n < 33 := by omega
  revert n
  decide

theorem rdBits (n : Nat) : Statement (.rdBits n) := fun h => (counted_fields n (by simpa [Instr.wellFormed] using h)).1
theorem wrBits (n : Nat) : Statement (.wrBits n) := fun h => (counted_fields n (by simpa [Instr.wellFormed] using h)).2
theorem rdBit : Statement .rdBit := fun _ => by decide
theorem rdUe : Statement .rdUe := fun _ => by decide
theorem rdSe : Statement .rdSe := fun _ => by decide
theorem wrBit : Statement .wrBit := fun _ => by decide
theorem wrUe : Statement .wrUe := fun _ => by decide
theorem wrSe : Statement .wrSe := fun _ => by decide
theorem wrAlignFlush : Statement .wrAlignFlush := fun _ => by decide
theorem nalUnescape : Statement .nalUnescape := fun _ => by decide
theorem nalEscape : Statement .nalEscape := fun _ => by decide
theorem nalLocateAb : Statement .nalLocateAb := fun _ => by decide
theorem nalLocateLp : Statement .nalLocateLp := fun _ => by decide
theorem spsRewrite : Statement .spsRewrite := fun _ => by decide
theorem dcaScan (f : Bool) : Statement (.dcaScan f) := fun _ => by cases f <;> decide
theorem dcaReset : Statement .dcaReset := fun _ => by decide

end Sys2Proof.Laws.EncodedFields
end

