-- ==== Sys2Proof/Tests/Slice0.lean ====
section
/-! SUPPORT. The model's own tests: the well-formedness smoke, one word per constructor written out from 30_encoding.md R100 and R103,
small one-step tests whose expected values are the vectors of 95_test_vectors.md (named in each docstring), and a witness for the
hypotheses of every statement that has some. -/

namespace Sys2Proof.Tests

open Sys2Proof.Machine Sys2Proof.Claims

/-! ### Helpers -/

/-- A state with the given registers and bytes in memory. -/
def place (r : Regs) (a : Nat) (bytes : List Byte) : State :=
  { State.reset with regs := r, mem := Memory.writeList [] a bytes }

/-- The next state of a command, if it has one. -/
def after (i : Instr) (s : State) : Option State :=
  match exec i s with
  | .next t => some t
  | .fault _ => none
  | .refused _ => none

/-- The next state of a step, if it has one. -/
def stepped (s : State) : Option State :=
  match step s with
  | .next t => some t
  | .fault _ => none
  | .refused _ => none

/-- The reader set to bytes at 0x1000. -/
def reader (bytes : List Byte) (pos : Word) : State :=
  place { Regs.reset with brBase := 0x1000, brLen := BitVec.ofNat 29 bytes.length, brPos := pos } 0x1000 bytes

/-- RES0, BR_POS and the code of a reader command. -/
def readResult (i : Instr) (s : State) : Option (Word × Word × Code) :=
  (after i s).map fun t => (t.regs.res0, t.regs.brPos, t.regs.status.code)

/-- The writer at 0x2000. -/
def writer (cap : Length) (pos : Word) (acc : Byte) (arg : Word) : State :=
  { State.reset with regs := { Regs.reset with bwBase := 0x2000, bwCap := cap, bwPos := pos, bwAcc := acc, arg0 := arg } }

/-- BW_POS, BW_ACC, the code and n bytes at 0x2000 after a writer command. -/
def writeResult (i : Instr) (n : Nat) (s : State) : Option (Word × Byte × Code × List Byte) :=
  (after i s).map fun t => (t.regs.bwPos, t.regs.bwAcc, t.regs.status.code, t.mem.readList 0x2000 n)

/-- Source at 0x1000, destination at 0x2000. -/
def codec (bytes : List Byte) (cap : Length) : State :=
  place { Regs.reset with srcBase := 0x1000, srcLen := BitVec.ofNat 29 bytes.length, dstBase := 0x2000, dstCap := cap } 0x1000 bytes

/-- RES0, the code and n bytes at 0x2000 after a codec or SPS command. -/
def codecResult (i : Instr) (n : Nat) (s : State) : Option (Word × Code × List Byte) :=
  (after i s).map fun t => (t.regs.res0, t.regs.status.code, t.mem.readList 0x2000 n)

/-- A locator source at 0x1000. -/
def source (bytes : List Byte) (cursor : Length) : State :=
  place { Regs.reset with srcBase := 0x1000, srcLen := BitVec.ofNat 29 bytes.length, locCursor := cursor } 0x1000 bytes

/-- The code, RES0, RES1, RES2 and LOC_CURSOR after a locator command. -/
def locateResult (i : Instr) (s : State) : Option (Code × Word × Word × Word × Length) :=
  (after i s).map fun t => (t.regs.status.code, t.regs.res0, t.regs.res1, t.regs.res2, t.regs.locCursor)

/-- A DCA chunk at 0x1000. -/
def chunk (bytes : List Byte) (d : Dca) : State :=
  place { Regs.reset with srcBase := 0x1000, srcLen := BitVec.ofNat 29 bytes.length, dca := d } 0x1000 bytes

/-- The code, RES0 and the DCA registers after DCA_SCAN. -/
def scanResult (f : Bool) (s : State) : Option (Code × Word × Dca) :=
  (after (.dcaScan f) s).map fun t => (t.regs.status.code, t.regs.res0, t.regs.dca)

/-- A run of the host's program over its moves: k steps. -/
def run : Nat → State → Option State
  | 0, s => some s
  | k + 1, s => (stepped s).bind (run k)

/-! ### Well-formedness and decoding -/

theorem test_rdBits_33_is_ill_formed : (Instr.rdBits 33).wellFormed = false := by decide
theorem test_wrBits_33_is_ill_formed : (Instr.wrBits 33).wellFormed = false := by decide
theorem test_rdBits_32_is_well_formed : (Instr.rdBits 32).wellFormed = true := by decide

/-- RSV 0, F 0, N = 3, OPC 0x01. -/
theorem test_decode_rdBits : decode 0b000000000000000000_000011_00000001 = .ok (.rdBits 3) := by decide
theorem test_decode_rdBit : decode 0b000000000000000000_000000_00000010 = .ok .rdBit := by decide
theorem test_decode_rdUe : decode 0b000000000000000000_000000_00000011 = .ok .rdUe := by decide
theorem test_decode_rdSe : decode 0b000000000000000000_000000_00000100 = .ok .rdSe := by decide
/-- N = 32, OPC 0x11. -/
theorem test_decode_wrBits : decode 0b000000000000000000_100000_00010001 = .ok (.wrBits 32) := by decide
theorem test_decode_wrBit : decode 0b000000000000000000_000000_00010010 = .ok .wrBit := by decide
theorem test_decode_wrUe : decode 0b000000000000000000_000000_00010011 = .ok .wrUe := by decide
theorem test_decode_wrSe : decode 0b000000000000000000_000000_00010100 = .ok .wrSe := by decide
theorem test_decode_wrAlignFlush : decode 0b000000000000000000_000000_00010101 = .ok .wrAlignFlush := by decide
theorem test_decode_nalUnescape : decode 0b000000000000000000_000000_00100001 = .ok .nalUnescape := by decide
theorem test_decode_nalEscape : decode 0b000000000000000000_000000_00100010 = .ok .nalEscape := by decide
theorem test_decode_nalLocateAb : decode 0b000000000000000000_000000_00110001 = .ok .nalLocateAb := by decide
theorem test_decode_nalLocateLp : decode 0b000000000000000000_000000_00110010 = .ok .nalLocateLp := by decide
theorem test_decode_spsRewrite : decode 0b000000000000000000_000000_01000001 = .ok .spsRewrite := by decide
theorem test_decode_dcaScan : decode 0b000000000000000000_000000_01010001 = .ok (.dcaScan false) := by decide
/-- RSV 0, F 1, N 0, OPC 0x51. -/
theorem test_decode_dcaScan_complete : decode 0b00000000000000000_1_000000_01010001 = .ok (.dcaScan true) := by decide
theorem test_decode_dcaReset : decode 0b000000000000000000_000000_01010010 = .ok .dcaReset := by decide

/-- 30_encoding.md R109 and 95_test_vectors.md P0.3 to P0.8: the reason for each illegal word. -/
theorem test_decode_illegal :
    decode 0x00002101 = .error .countTooLarge ∧ decode 0x00000102 = .error .unusedField ∧ decode 0x00008001 = .error .reservedBits ∧
    decode 0x00004052 = .error .unusedField ∧ decode 0x00000000 = .error .unknownOpcode ∧ decode 0x00000016 = .error .unknownOpcode ∧
    decode 0x00004011 = .error .unusedField := by decide

theorem test_decodeTableWord : decodeTableWord 32 0x00000301 = some (.rdBits 3) ∧ decodeTableWord 32 0x16 = none := by decide

/-- A word placed by `withFetchWord` runs as the first command after reset. -/
theorem test_withFetchWord_runs :
    (stepped (State.reset.withFetchWord 32 0x00000002)).map (fun t => t.regs.status) = some ⟨false, true, .outOfRange⟩ := by decide

/-! ### BitReader, 95_test_vectors.md L2.1 -/

/-- RB5. -/
theorem test_rdBits_12 : readResult (.rdBits 12) (reader [0xA5, 0x3C, 0xFF, 0x00, 0x80] 0) = some (0xA53, 12, .ok) := by decide
/-- RB9. -/
theorem test_rdBits_past_the_end :
    readResult (.rdBits 5) (reader [0xA5, 0x3C, 0xFF, 0x00, 0x80] 36) = some (0, 36, .outOfRange) := by decide
/-- RB13. -/
theorem test_rdBit_first : readResult .rdBit (reader [0xA5, 0x3C, 0xFF, 0x00, 0x80] 0) = some (1, 1, .ok) := by decide
/-- RB12. -/
theorem test_rdBit_at_end : readResult .rdBit (reader [0xA5, 0x3C, 0xFF, 0x00, 0x80] 40) = some (0, 40, .outOfRange) := by decide
/-- G7. -/
theorem test_rdUe_19 : readResult .rdUe (reader [0x0A, 0x00] 0) = some (19, 9, .ok) := by decide
/-- G12. -/
theorem test_rdUe_short : readResult .rdUe (reader [0x02] 0) = some (0, 0, .outOfRange) := by decide
/-- G5. -/
theorem test_rdSe_minus3 : readResult .rdSe (reader [0x38] 0) = some (0xFFFFFFFD, 5, .ok) := by decide
/-- G8. -/
theorem test_rdSe_lowest :
    readResult .rdSe (reader [0x00, 0x00, 0x00, 0x01, 0xFF, 0xFF, 0xFF, 0xFE] 0) = some (0x80000001, 63, .ok) := by decide

/-! ### BitWriter, 95_test_vectors.md L2.2 -/

/-- W25. -/
theorem test_wrBits_3 : writeResult (.wrBits 3) 1 (writer 4 0 0 5) = some (3, 0xA0, .ok, [0xA0]) := by decide
/-- W21: the operand is checked before the capacity. -/
theorem test_wrBits_operand_first : writeResult (.wrBits 3) 1 (writer 0 0 0 8) = some (0, 0, .illegalCommand, [0]) := by decide
/-- W26. -/
theorem test_wrBit_after_3 : writeResult .wrBit 1 (writer 4 3 0xA0 1) = some (4, 0xB0, .ok, [0xB0]) := by decide
/-- W24. -/
theorem test_wrBit_2 : writeResult .wrBit 1 (writer 16 0 0 2) = some (0, 0, .illegalCommand, [0]) := by decide
/-- W9. -/
theorem test_wrUe_largest :
    writeResult .wrUe 8 (writer 16 0 0 0xFFFFFFFE) =
      some (63, 0xFE, .ok, [0x00, 0x00, 0x00, 0x01, 0xFF, 0xFF, 0xFF, 0xFE]) := by decide
/-- P2 step 1. -/
theorem test_wrUe_3 : writeResult .wrUe 1 (writer 2 0 0 3) = some (5, 0x20, .ok, [0x20]) := by decide
/-- P2 step 2: −2 after five bits 00100. -/
theorem test_wrSe_minus2 : writeResult .wrSe 2 (writer 2 5 0x20 0xFFFFFFFE) = some (10, 0x40, .ok, [0x21, 0x40]) := by decide
/-- W18. -/
theorem test_wrSe_lowest : writeResult .wrSe 1 (writer 16 0 0 0x80000000) = some (0, 0, .illegalCommand, [0]) := by decide
/-- W27. -/
theorem test_wrAlignFlush_pads :
    (after .wrAlignFlush (writer 4 4 0xB0 1)).map (fun t => (t.regs.bwPos, t.regs.bwAcc, t.regs.res0, t.mem.read 0x2000)) =
      some (8, 0, 1, 0xB0) := by decide
/-- W32. -/
theorem test_wrAlignFlush_past_capacity : writeResult .wrAlignFlush 1 (writer 4 40 0 0) = some (40, 0, .outOfRange, [0]) := by decide

/-! ### NAL codec and locator, 95_test_vectors.md L2.3, L2.4 -/

/-- N10. -/
theorem test_unescape : codecResult .nalUnescape 4 (codec [0x12, 0x00, 0x00, 0x03, 0x34] 100) =
    some (4, .ok, [0x12, 0x00, 0x00, 0x34]) := by decide
/-- N16: the code and RES0; the destination is unspecified. -/
theorem test_unescape_past_capacity :
    codecResult .nalUnescape 0 (codec [0x00, 0x00, 0x03, 0x01] 2) = some (0, .outOfRange, []) := by decide
/-- N7. -/
theorem test_escape_zeros : codecResult .nalEscape 7 (codec [0x00, 0x00, 0x00, 0x00, 0x00] 100) =
    some (7, .ok, [0x00, 0x00, 0x03, 0x00, 0x00, 0x03, 0x00]) := by decide
/-- N18: overlap. -/
theorem test_escape_overlap :
    codecResult .nalEscape 0 (place { Regs.reset with srcBase := 0x1000, srcLen := 8, dstBase := 0x1004, dstCap := 16 } 0 []) =
      some (0, .illegalCommand, []) := by decide
/-- AB1. -/
theorem test_locateAb : locateResult .nalLocateAb (source [0x00, 0x00, 0x00, 0x01, 0x67, 0x42, 0x00, 0x00, 0x01] 0) =
    some (.ok, 7, 4, 0, 5) := by decide
/-- AB2. -/
theorem test_locateAb_no_header : locateResult .nalLocateAb (source [0x00, 0x00, 0x00, 0x01, 0x67, 0x42, 0x00, 0x00, 0x01] 5) =
    some (.noneFound, 0, 0, 0, 5) := by decide
/-- LP1. -/
theorem test_locateLp : locateResult .nalLocateLp (source [0x00, 0x00, 0x00, 0x02, 0x67, 0x42, 0x00, 0x00, 0x00, 0x01, 0x68] 0) =
    some (.ok, 7, 4, 2, 6) := by decide
/-- LP6. -/
theorem test_locateLp_size_past_end : locateResult .nalLocateLp (source [0x00, 0x00, 0x00, 0x05, 0x65, 0x01] 0) =
    some (.outOfRange, 0, 0, 0, 0) := by decide

/-! ### SPS rewriter, 95_test_vectors.md L2.5 -/

/-- sps1. -/
def sps1 : List Byte := [0x42, 0x00, 0x1E, 0xF4, 0x0A, 0x0F, 0xC8]

/-- sps2. -/
def sps2 : List Byte := [0x42, 0x00, 0x1E, 0xDA, 0x05, 0x07, 0xE8, 0x40, 0x00, 0x00, 0xFA, 0x40, 0x00, 0x3A, 0x98, 0x21]

/-- An SPS with overrides. -/
def sps (bytes : List Byte) (cap : Length) (ovr num den : Word) : State :=
  place { Regs.reset with srcBase := 0x1000, srcLen := BitVec.ofNat 29 bytes.length, dstBase := 0x2000, dstCap := cap,
                          spsOvr := spsOvrOfWord ovr, spsFpsNum := num, spsFpsDen := den } 0x1000 bytes

/-- S2: level 41. -/
theorem test_spsRewrite_level : codecResult .spsRewrite 7 (sps sps1 64 0x2901 0 0) =
    some (7, .ok, [0x42, 0x00, 0x29, 0xF4, 0x0A, 0x0F, 0xC8]) := by decide +kernel
/-- S7: 25 frames per second. -/
theorem test_spsRewrite_frame_rate : codecResult .spsRewrite 16 (sps sps2 64 0x2 25 1) =
    some (16, .ok, [0x42, 0x00, 0x1E, 0xDA, 0x05, 0x07, 0xE8, 0x40, 0x00, 0x00, 0x00, 0x40, 0x00, 0x00, 0x0C, 0xA1]) := by
  decide +kernel

/-! ### DCA scanner, 95_test_vectors.md L2.6 -/

/-- The first ten bytes of the core frame K. -/
def coreHead : List Byte := [0x7F, 0xFE, 0x80, 0x01, 0xFC, 0x3C, 0x01, 0x70, 0x80, 0x00]

/-- DC2. -/
theorem test_dcaScan_head :
    scanResult false (chunk coreHead Dca.reset) = some (.notYetComplete, 0, ⟨0x8001FC3C01708000, 2, 1, 4, 24, 0⟩) := by decide +kernel
/-- DC3, its last bytes: a boundary at the next frame's marker. DC16: a state no scan produces. -/
theorem test_dcaScan_boundary_and_state_check :
    scanResult false (chunk [0x7F, 0xFE, 0x80, 0x01, 0xFC, 0x3C] ⟨0, 2, 1, 18, 24, 0⟩) = some (.ok, 0, ⟨0, 0, 1, 0, 24, 0⟩) ∧
    scanResult false (chunk coreHead ⟨0, 1, 0, 0, 0, 0⟩) = some (.illegalCommand, 0, ⟨0, 1, 0, 0, 0, 0⟩) := by decide +kernel
/-- DC19. -/
theorem test_dcaReset : (after .dcaReset (chunk [] ⟨1, 2, 3, 4, 5, 6⟩)).map (fun t => (t.regs.status.code, t.regs.dca)) =
    some (.ok, ⟨0, 0, 0, 0, 0, 0⟩) := by decide

/-- Other values of the parameters. 46_dca_scanner.md R286 with an empty `EXSS_AFTER_CORE`: the frame of DC2 goes to phase 4, with the size
DC2 gives. 45_sps_rewriter.md R236 with no `HIGH_PROFILE`: sps1 under profile 100 is read as S1 reads it and copied. -/
theorem test_replaced_parameters :
    (let s := chunk coreHead Dca.reset
     scanResult false { s with platform := { s.platform with params := { s.platform.params with exssAfterCore := [] } } } =
       some (.notYetComplete, 0, ⟨0x8001FC3C01708000, 4, 1, 4, 24, 0⟩)) ∧
    (let s := sps (0x64 :: sps1.tail) 7 0 0 0
     codecResult .spsRewrite 7 { s with platform := { s.platform with params := { s.platform.params with highProfiles := [] } } } =
       some (7, .ok, 0x64 :: sps1.tail)) := by decide +kernel

/-! ### The host, 95_test_vectors.md L2.0 -/

/-- P0.16: a write of ARG0 while busy is refused. -/
theorem test_write_while_busy :
    (stepped { launch State.reset 0x2 with program := setReg State.reset.platform 0x010 7 }).map (fun t => (t.regs.arg0, t.refusedMark)) =
      some (0, true) := by decide
/-- P0.17: soft reset while busy. -/
theorem test_soft_reset_while_busy :
    (stepped { launch State.reset 0x2 with program := setReg State.reset.platform 0x00C 1 }).map (fun t => (t.regs, t.engine)) =
      some (Regs.reset, .idle) := by decide
/-- P0.11: a length keeps 29 bits. -/
theorem test_length_keeps_29_bits : readOffset (writeOffset State.reset 0x024 0xFFFFFFFF).regs 0x024 = 0x1FFFFFFF := by decide
/-- `DO RD_BIT` on a reader: the host goes on when BUSY = 0. -/
theorem test_do_command :
    (run 3 { reader [0xA5] 0 with program := doCommand State.reset.platform 0x2 }).map
      (fun t => (t.regs.res0, t.regs.brPos, t.engine, t.program)) = some (1, 1, .idle, []) := by decide

/-! ### Witnesses: for every statement with hypotheses, states that meet them, clause by clause -/

/-- With no hole in the platform every range is admitted. -/
theorem admitted_of_no_holes (s : State) (h : s.platform.holes = []) (a n : Nat) : admitted s a n := by
  intro k _
  simp [admits, h]

/-- Bytes written to empty memory leave it canonical. -/
theorem place_wf (r : Regs) (a : Nat) (bytes : List Byte) : (place r a bytes).mem.wf = true :=
  Memory.wf_writeList (by decide) _ _

/-- A command pending on a state, with the host's remaining moves. -/
def pending (s : State) (w : Word) (moves : List Move) : State :=
  { s with engine := .pending w, regs := { s.regs with cmd := w, status := ⟨true, false, .ok⟩ }, program := moves }

/-- A stuck command on a state, with the host's remaining moves. -/
def stuckOn (s : State) (w : Word) (moves : List Move) : State :=
  { s with engine := .stuck w, regs := { s.regs with cmd := w, status := ⟨true, false, .ok⟩ }, program := moves }

theorem witness_StepRunsDecodedCommand :
    (pending State.reset 0x2 []).engine = .pending 0x2 ∧ decode 0x2 = .ok .rdBit ∧ (pending State.reset 0x2 []).program = [] ∧
    (pending State.reset 0x2 [.engine]).program = .engine :: [] ∧ (pending State.reset 0x2 [.wait]).program = .wait :: [] ∧
    (pending State.reset 0x2 [.wait]).regs.status.busy = true := by decide

theorem witness_DecodeOfEncodeIsTheCommand : (Instr.rdBits 32).wellFormed = true ∧ (Instr.dcaScan true).wellFormed = true := by decide

theorem witness_DecodedWordIsItsEncoding : decode 0x00002001 = .ok (.rdBits 32) := by decide

theorem witness_IllegalWordChangesOnlyStatus :
    (pending State.reset 0x8001 []).engine = .pending 0x8001 ∧ (pending State.reset 0x8001 []).program = [] ∧
    (pending State.reset 0x8001 [.engine]).program = .engine :: [] ∧ (pending State.reset 0x8001 [.wait]).program = .wait :: [] ∧
    (pending State.reset 0x8001 [.wait]).regs.status.busy = true ∧
    IllegalWord 0x8001 ∧ IllegalWord 0x16 ∧ IllegalWord 0x102 ∧ IllegalWord 0x4011 ∧ IllegalWord 0x2101 := by
  refine ⟨rfl, rfl, rfl, rfl, rfl, ?_, ?_, ?_, ?_, ?_⟩ <;>
  · unfold IllegalWord
    decide

theorem witness_CmdWriteLaunches :
    ∃ s t : State, s.program = .host (.regWrite (regAddr s 0x004) 4 0x2) :: [] ∧ s.regs.status.busy = false ∧
      step s = .next t ∧ t.engine = .pending 0x2 :=
  ⟨{ State.reset with program := setReg State.reset.platform 0x004 0x2 }, _, rfl, rfl, rfl, rfl⟩

/-- The clauses of RefusedAccessOnlySetsTheMark: a busy write at the first and last offset, a byte access, an unaligned one. -/
theorem witness_RefusedAccessOnlySetsTheMark :
    (∀ offset ∈ [0x000, 0x0FC], offset < 256 ∧ offset % 4 = 0 ∧ offset ≠ 0x00C ∧
      ∃ s : State, s.regs.status.busy = true ∧ s.program = .host (.regWrite (regAddr s offset) 4 7) :: []) ∧
    (∃ s : State, 0 < 1 ∧ (1 ≠ 4 ∨ 0x010 % 4 ≠ 0) ∧ s.program = .host (.regWrite (regAddr s 0x010) 1 7) :: []) ∧
    (∃ s : State, 0 < 4 ∧ (4 ≠ 4 ∨ 0x0FE % 4 ≠ 0) ∧ s.program = .host (.regRead (regAddr s 0x0FE) 4) :: []) :=
  ⟨fun offset h => ⟨by revert offset; decide, by revert offset; decide, by revert offset; decide,
      pending State.reset 0x2 [.host (.regWrite (regAddr State.reset offset) 4 7)], rfl, rfl⟩,
   ⟨pending State.reset 0x2 [.host (.regWrite (regAddr State.reset 0x010) 1 7)], by decide, by decide, rfl⟩,
   ⟨pending State.reset 0x2 [.host (.regRead (regAddr State.reset 0x0FE) 4)], by decide, by decide, rfl⟩⟩

theorem witness_RegisterReadChangesNothing :
    (∃ s : State, 0x0FC < 256 ∧ 0x0FC % 4 = 0 ∧ s.program = .host (.regRead (regAddr s 0x0FC) 4) :: []) ∧
    (0x020, 7) ∈ registerNumbers { Regs.reset with brBase := 7 } :=
  ⟨⟨{ State.reset with program := getReg State.reset.platform 0x0FC }, by decide, by decide, rfl⟩, by decide⟩

theorem witness_WrittenRegisterReadsBack :
    ((0x010, 0xFFFFFFFF) : Nat × Word) ∈ rwTable ∧ State.reset.regs.status.busy = false ∧
    (0x020, { Regs.reset with brBase := 7 }) ∈ storedRegs State.reset.regs 7 ∧
    setReg State.reset.platform 0x020 7 = .host (.regWrite (regAddr State.reset 0x020) 4 7) :: [] := by decide

theorem witness_RegisterWriteTouchesNoOtherRegister :
    ((0x038, 0xFFFFFFFF) : Nat × Word) ∈ rwTable ∧ State.reset.regs.status.busy = false ∧ 0x03C ≠ 0x038 := by decide

theorem witness_ReadOnlyAndReservedIgnoreWrites :
    State.reset.regs.status.busy = false ∧ 0x000 ∈ roOffsets ++ reservedOffsets ∧ 0x0FC ∈ roOffsets ++ reservedOffsets ∧
    0x0FC ∈ reservedOffsets ∧ setReg State.reset.platform 0x0FC 7 = .host (.regWrite (regAddr State.reset 0x0FC) 4 7) :: [] := by
  decide

/-- RD_BIT pending, and stuck, on bytes at 0x1000: a POKE that starts one byte below the buffer, and a PEEK of its last byte; a POKE
just past the buffer while RD_BIT is pending, and a PEEK of the last address while idle. -/
theorem witness_BufferAccessWhileBusyIsNoMove :
    (∃ s : State, s.engine = .pending 0x2 ∧ decode 0x2 = .ok .rdBit ∧ s.regs.status.busy = true ∧
      MayRead s.regs ((0x0FFF : Word).toNat + 1) .rdBit ∧ 1 < ([1, 2] : List Byte).length ∧ (0x0FFF : Word).toNat + 2 ≤ 2 ^ 32 ∧
      s.program = .host (.poke 0x0FFF [1, 2]) :: []) ∧
    (∃ s : State, s.engine = .stuck 0x2 ∧ decode 0x2 = .ok .rdBit ∧ s.regs.status.busy = true ∧
      MayRead s.regs ((0x1004 : Word).toNat + 0) .rdBit ∧ 0 < 1 ∧ (0x1004 : Word).toNat + 1 ≤ 2 ^ 32 ∧
      s.program = .host (.peek 0x1004 1) :: []) ∧
    (∃ s : State, s.regs.status.busy = true ∧ s.mem.wf = true ∧ HostMayAccess s (0x1005 : Word).toNat ([1, 2] : List Byte).length ∧
      s.program = .host (.poke 0x1005 [1, 2]) :: []) ∧
    (∃ s : State, s.regs.status.busy = false ∧ HostMayAccess s (0xFFFFFFFF : Word).toNat 1 ∧
      s.program = .host (.peek 0xFFFFFFFF 1) :: []) := by
  refine ⟨⟨pending (reader [0xA5, 0x3C, 0xFF, 0x00, 0x80] 0) 0x2 [.host (.poke 0x0FFF [1, 2])], ?_⟩,
    ⟨stuckOn (reader [0xA5, 0x3C, 0xFF, 0x00, 0x80] 0) 0x2 [.host (.peek 0x1004 1)], ?_⟩,
    ⟨pending (reader [0xA5, 0x3C, 0xFF, 0x00, 0x80] 0) 0x2 [.host (.poke 0x1005 [1, 2])], rfl, Memory.wf_writeList rfl _ _,
      ⟨by unfold inSpace; decide, .inr ?_⟩, rfl⟩,
    ⟨{ State.reset with program := [.host (.peek 0xFFFFFFFF 1)] }, rfl, ⟨by unfold inSpace; decide, .inl rfl⟩, rfl⟩⟩
  · unfold MayRead
    decide
  · unfold MayRead
    decide
  · intro w i hw hi k _
    obtain rfl : w = 0x2 := by simpa [pending, eq_comm] using hw
    obtain rfl : i = .rdBit := Except.ok.inj (hi.symm.trans (by decide : decode 0x2 = .ok .rdBit))
    refine ⟨?_, id⟩
    simp [MayRead, pending, reader, place]

theorem witness_HardwareResetGivesResetValues :
    (pending State.reset 0x2 [.host .hardwareReset]).program = .host .hardwareReset :: [] := rfl

/-- Soft reset while idle, while WR_BIT is pending, and while it is stuck, with an address outside its write range; with a word pending
that is no command; and a write of CTRL with bit 0 clear while busy. -/
theorem witness_SoftResetAppliesWhateverBusyIs :
    (∃ s : State, s.program = .host (.regWrite (regAddr s 0x00C) 4 1) :: [] ∧ (1 : Word).getLsbD 0 = true ∧ s.engine = .idle) ∧
    (∃ s : State, s.program = .host (.regWrite (regAddr s 0x00C) 4 1) :: [] ∧ s.engine = .pending 0x12 ∧ decode 0x12 = .ok .wrBit ∧
      ¬ MayWrite s.regs 0x2004 .wrBit) ∧
    (∃ s : State, s.program = .host (.regWrite (regAddr s 0x00C) 4 1) :: [] ∧ s.engine = .stuck 0x12 ∧
      ¬ MayWrite s.regs 0x1FFF .wrBit) ∧
    (∃ s : State, s.program = .host (.regWrite (regAddr s 0x00C) 4 1) :: [] ∧ s.engine = .pending 0x16 ∧ ∀ i, decode 0x16 ≠ .ok i) ∧
    (∃ s : State, s.program = .host (.regWrite (regAddr s 0x00C) 4 2) :: [] ∧ (2 : Word).getLsbD 0 = false ∧
      s.regs.status.busy = true) := by
  refine ⟨⟨{ State.reset with program := setReg State.reset.platform 0x00C 1 }, rfl, by decide, rfl⟩,
    ⟨pending (writer 4 0 0 1) 0x12 (setReg State.reset.platform 0x00C 1), rfl, rfl, by decide, ?_⟩,
    ⟨stuckOn (writer 4 0 0 1) 0x12 (setReg State.reset.platform 0x00C 1), rfl, rfl, ?_⟩,
    ⟨pending (writer 4 0 0 1) 0x16 (setReg State.reset.platform 0x00C 1), rfl, rfl, ?_⟩,
    ⟨pending (writer 4 0 0 1) 0x12 (setReg State.reset.platform 0x00C 2), rfl, by decide, rfl⟩⟩
  · unfold MayWrite
    decide
  · unfold MayWrite
    decide
  · intro i h
    exact absurd (show decode 0x16 = .error .unknownOpcode by decide) (by rw [h]; simp)

theorem witness_ResetStateOfEachUnit : State.reset.regs = Regs.reset ∧ 0 < 32 ∧ 32 ≤ 32 := ⟨rfl, by decide, by decide⟩

/-- A failure of a command that keeps memory, with an address it cannot write; and a success. -/
theorem witness_FailureChangesOnlyStatus :
    ∃ t, exec .rdBit State.reset = .next t ∧ t.engine = .idle ∧ t.regs.status.err = true ∧ keepsMemoryOnFailure .rdBit = true ∧
      ¬ MayWrite State.reset.regs 0 .rdBit :=
  ⟨errorState State.reset .outOfRange, rfl, rfl, rfl, rfl, id⟩

theorem witness_EachCodeHasItsCommands :
    (∃ t, exec .nalLocateAb State.reset = .next t ∧ t.engine = .idle ∧ t.regs.status.code = .noneFound) ∧
    (∃ t, exec .spsRewrite State.reset = .next t ∧ t.engine = .idle ∧ t.regs.status.code = .malformedSps) ∧
    (∃ t, exec (.dcaScan false) State.reset = .next t ∧ t.engine = .idle ∧ t.regs.status.code = .notYetComplete) :=
  ⟨⟨_, rfl, rfl, rfl⟩, ⟨_, rfl, rfl, rfl⟩, ⟨_, rfl, rfl, rfl⟩⟩

theorem witness_NoByteOutsideTheWriteRangeChanges :
    ∃ t, exec .wrBit (writer 4 0 0 1) = .next t ∧ ¬ MayWrite (writer 4 0 0 1).regs 0x2004 .wrBit := by
  refine ⟨_, rfl, ?_⟩
  unfold MayWrite
  decide

/-- Two memories that differ at an address RD_BIT cannot read. -/
theorem witness_RegistersIndependentOfUnreadMemory :
    let s := reader [0xA5] 0
    (∀ a, MayRead s.regs a .rdBit → (s.mem.write 0x3000 7).read a = s.mem.read a) ∧ ∃ t, exec .rdBit s = .next t := by
  refine ⟨fun a h => Memory.read_write_other _ _ ?_, _, rfl⟩
  rintro rfl
  revert h
  unfold MayRead
  decide

theorem witness_EffectIndependentOfPreviousCode : ∀ a, admits State.reset.platform a = true := fun _ => rfl

/-- A destination that passes 2^32 by one byte, and buffers that share their last and first byte. -/
theorem witness_UnusableRangesAreIllegal :
    (∃ s : State, ∃ q ∈ bufferRanges s.regs .nalEscape, 2 ^ 32 < q.1 + q.2) ∧
    (∃ s : State, ∃ a, s.regs.srcBase.toNat ≤ a ∧ a < s.regs.srcBase.toNat + s.regs.srcLen.toNat ∧ s.regs.dstBase.toNat ≤ a ∧
      a < s.regs.dstBase.toNat + s.regs.dstCap.toNat) :=
  ⟨⟨place { Regs.reset with dstBase := 0xFFFFFFFF, dstCap := 2 } 0 [], (0xFFFFFFFF, 2), by decide, by decide⟩,
   ⟨place { Regs.reset with srcBase := 0x1000, srcLen := 8, dstBase := 0x1007, dstCap := 16 } 0 [], 0x1007, by decide⟩⟩

/-- The state on a platform that admits nothing. -/
def closed (s : State) : State := { s with platform := { s.platform with holes := [⟨0, 2 ^ 32⟩] } }

/-- RD_BITS 1 at the last bit; the writer commands up to the capacity, with −1 (code number 2) for WR_SE; the locators with the shortest
buffers that make them read; a scan in phase 4 of a locked stream; an overlap-free codec and SPS with a nonempty destination. -/
theorem witness_FirstAccessNotAdmittedSticks :
    (let s := closed (reader [0xA5] 7)
     inSpace s.regs.brBase.toNat s.regs.brLen.toNat ∧ s.regs.brPos.toNat + 1 ≤ 8 * s.regs.brLen.toNat ∧
       BitsBlocked s s.regs.brBase.toNat s.regs.brPos.toNat 1) ∧
    (let s := closed (writer 1 7 0 1)
     inSpace s.regs.bwBase.toNat s.regs.bwCap.toNat ∧ s.regs.arg0.toNat < 2 ^ 1 ∧ s.regs.arg0.toNat ≤ 1 ∧ HasRoom s 1 ∧
       BitsBlocked s s.regs.bwBase.toNat s.regs.bwPos.toNat 1 ∧ s.regs.bwPos.toNat % 8 ≠ 0 ∧ HasRoom s 0) ∧
    (let s := closed (writer 1 5 0 1)
     s.regs.arg0 ≠ 0xFFFFFFFF ∧ IsPrefix s.regs.arg0.toNat 1 ∧ HasRoom s (2 * 1 + 1) ∧
       BitsBlocked s s.regs.bwBase.toNat s.regs.bwPos.toNat (2 * 1 + 1)) ∧
    (let s := closed (writer 1 5 0 0xFFFFFFFF)
     s.regs.arg0 ≠ 0x80000000 ∧ IsPrefix (codeOf s.regs.arg0.toInt) 1 ∧ HasRoom s (2 * 1 + 1)) ∧
    (let s := closed (source [0x00, 0x00, 0x01, 0x65] 0)
     inSpace s.regs.srcBase.toNat s.regs.srcLen.toNat ∧ s.regs.locCursor.toNat + 3 < s.regs.srcLen.toNat ∧
       admits s.platform (s.regs.srcBase.toNat + s.regs.locCursor.toNat) = false ∧
       s.regs.locCursor.toNat + 4 ≤ s.regs.srcLen.toNat ∧
       ∃ k < 4, admits s.platform (s.regs.srcBase.toNat + s.regs.locCursor.toNat + k) = false) ∧
    (let s := closed (chunk [0x3C] ⟨0, 4, 5, 0, 0, 0⟩)
     0 < s.regs.srcLen.toNat ∧ admits s.platform s.regs.srcBase.toNat = false ∧ ScanAccepts s.regs.dca) ∧
    (let s := closed (codec [0x00] 4)
     UsableBuffers s.regs ∧ 0 < s.regs.srcLen.toNat ∧ admits s.platform s.regs.srcBase.toNat = false ∧ FpsFits s) := by
  unfold BitsBlocked UsableBuffers inSpace HasRoom IsPrefix codeOf ScanAccepts FpsFits
  decide

theorem witness_StuckEngineWaitsForReset :
    ∃ s : State, s.engine = .stuck 0x2 ∧ s.regs.status.busy = true ∧ s.program = [] ∧
      (∃ r : State, r.engine = .stuck 0x2 ∧ r.regs.status.busy = true ∧
        r.program = .host (.regWrite (regAddr r 0x00C) 4 1) :: [] ∧ (1 : Word).getLsbD 0 = true) ∧
      (∃ r : State, r.engine = .stuck 0x2 ∧ r.regs.status.busy = true ∧ r.program = .host .hardwareReset :: []) :=
  ⟨stuckOn State.reset 0x2 [], rfl, rfl, rfl, ⟨stuckOn State.reset 0x2 (setReg State.reset.platform 0x00C 1), rfl, rfl, rfl, by decide⟩,
   ⟨stuckOn State.reset 0x2 [.host .hardwareReset], rfl, rfl, rfl⟩⟩

/-- A state other than reset with the invariant, and its step. -/
theorem witness_StepKeepsInvariant :
    ∃ t, (pending (writer 4 3 0xA0 1) 0x12 []).inv = true ∧ step (pending (writer 4 3 0xA0 1) 0x12 []) = .next t :=
  ⟨_, by decide, rfl⟩

/-- The reader on any bytes, at any position inside, is ready. -/
theorem reader_ready (bytes : List Byte) (pos : Word) (h : bytes.length < 2 ^ 28) (hp : pos.toNat ≤ 8 * bytes.length) :
    ReaderReady (reader bytes pos) := by
  refine ⟨?_, ?_, admitted_of_no_holes _ rfl _ _⟩ <;> simp [reader, place, inSpace] <;> omega

/-- RD_BITS 32 up to the last bit, one bit too many, and N = 33. -/
theorem witness_RdBitsReadsTheField :
    (ReaderReady (reader [0xA5, 0x3C, 0xFF, 0x00, 0x80] 8) ∧ 32 ≤ 32 ∧
      (reader [0xA5, 0x3C, 0xFF, 0x00, 0x80] 8).regs.brPos.toNat + 32 ≤ 8 * (reader [0xA5, 0x3C, 0xFF, 0x00, 0x80] 8).regs.brLen.toNat) ∧
    (inSpace (reader [0xA5] 8).regs.brBase.toNat (reader [0xA5] 8).regs.brLen.toNat ∧
      8 * (reader [0xA5] 8).regs.brLen.toNat < (reader [0xA5] 8).regs.brPos.toNat + 1) ∧ 32 < 33 ∧ 33 < 64 :=
  ⟨⟨reader_ready _ _ (by decide) (by decide), by decide, by decide⟩, ⟨by unfold inSpace; decide, by decide⟩, by decide, by decide⟩

/-- RD_BIT at the last bit, and with no bit left. -/
theorem witness_RdBitReadsTheBit :
    (ReaderReady (reader [0xA5] 7) ∧ (reader [0xA5] 7).regs.brPos.toNat + 1 ≤ 8 * (reader [0xA5] 7).regs.brLen.toNat) ∧
    (inSpace (reader [0xA5] 8).regs.brBase.toNat (reader [0xA5] 8).regs.brLen.toNat ∧
      8 * (reader [0xA5] 8).regs.brLen.toNat < (reader [0xA5] 8).regs.brPos.toNat + 1) :=
  ⟨⟨reader_ready _ _ (by decide) (by decide), by decide⟩, by unfold inSpace; decide, by decide⟩

/-- The longest code: 31 zeros (G8). -/
theorem golomb_31 : GolombAt (reader [0x00, 0x00, 0x00, 0x01, 0xFF, 0xFF, 0xFF, 0xFE] 0) 31 := by
  unfold GolombAt
  decide +kernel

/-- No one bit (G11), 32 zeros (G10), too few suffix bits (G12). -/
theorem golomb_fails :
    GolombFails (reader [0x00, 0x00] 0) ∧ GolombFails (reader [0x00, 0x00, 0x00, 0x00, 0x80, 0x00, 0x00, 0x00, 0x00] 0) ∧
    GolombFails (reader [0x02] 0) := by
  refine ⟨.inl ?_, .inr (.inl ⟨by decide, by decide +kernel⟩), .inr (.inr ⟨6, by decide, by decide +kernel⟩)⟩
  intro p _ hp
  have h : ∀ p < 16, specBit (reader [0x00, 0x00] 0).mem (reader [0x00, 0x00] 0).regs.brBase.toNat p = 0 := by decide +kernel
  exact h p hp

theorem witness_RdUeReadsTheCode :
    (ReaderReady (reader [0x00, 0x00, 0x00, 0x01, 0xFF, 0xFF, 0xFF, 0xFE] 0) ∧
      GolombAt (reader [0x00, 0x00, 0x00, 0x01, 0xFF, 0xFF, 0xFF, 0xFE] 0) 31) ∧
    (ReaderReady (reader [0x02] 0) ∧ GolombFails (reader [0x02] 0)) ∧
    (inSpace (reader [0xA5] 9).regs.brBase.toNat (reader [0xA5] 9).regs.brLen.toNat ∧
      8 * (reader [0xA5] 9).regs.brLen.toNat < (reader [0xA5] 9).regs.brPos.toNat) :=
  ⟨⟨reader_ready _ _ (by decide) (by decide), golomb_31⟩, ⟨reader_ready _ _ (by decide) (by decide), golomb_fails.2.2⟩,
   by unfold inSpace; decide, by decide⟩

theorem witness_RdSeReadsTheSignedCode :
    (ReaderReady (reader [0x00, 0x00, 0x00, 0x01, 0xFF, 0xFF, 0xFF, 0xFE] 0) ∧
      GolombAt (reader [0x00, 0x00, 0x00, 0x01, 0xFF, 0xFF, 0xFF, 0xFE] 0) 31) ∧
    (ReaderReady (reader [0x00, 0x00] 0) ∧ GolombFails (reader [0x00, 0x00] 0)) ∧
    (inSpace (reader [0xA5] 9).regs.brBase.toNat (reader [0xA5] 9).regs.brLen.toNat ∧
      8 * (reader [0xA5] 9).regs.brLen.toNat < (reader [0xA5] 9).regs.brPos.toNat) :=
  ⟨⟨reader_ready _ _ (by decide) (by decide), golomb_31⟩, ⟨reader_ready _ _ (by decide) (by decide), golomb_fails.1⟩,
   by unfold inSpace; decide, by decide⟩

/-- RD_BITS 0 with the position one past the end (RB10), and at the end. -/
theorem witness_ReaderPositionIsChecked :
    (∃ n ≤ 32, Instr.rdBits 0 = .rdBits n) ∧ inSpace (reader [0xA5] 9).regs.brBase.toNat (reader [0xA5] 9).regs.brLen.toNat ∧
    8 * (reader [0xA5] 9).regs.brLen.toNat < (reader [0xA5] 9).regs.brPos.toNat ∧
    ((reader [0xA5] 8).regs.brPos.toNat ≤ 8 * (reader [0xA5] 8).regs.brLen.toNat ∧ ∃ t, exec (.rdBits 0) (reader [0xA5] 8) = .next t) :=
  ⟨⟨0, by decide, rfl⟩, by unfold inSpace; decide, by decide, by decide, _, rfl⟩

/-- The writer with a zero-filled partial byte is ready. -/
theorem writer_ready (cap : Length) (pos : Word) (acc : Byte) (arg : Word) (h : cap.toNat < 2 ^ 28)
    (ha : acc.toNat % 2 ^ (8 - pos.toNat % 8) = 0) : WriterReady (writer cap pos acc arg) := by
  refine ⟨?_, admitted_of_no_holes _ rfl _ _, ?_, rfl⟩
  · simp [writer, inSpace]
    omega
  · exact decide_eq_true ha

/-- The clauses of WrBitsEmitsTheField: 8 does not fit in 3 bits, 9 bits in one byte, 32 bits in four bytes, N = 33. -/
theorem witness_WrBitsEmitsTheField :
    (inSpace (writer 4 0 0 8).regs.bwBase.toNat (writer 4 0 0 8).regs.bwCap.toNat ∧ 2 ^ 3 ≤ (writer 4 0 0 8).regs.arg0.toNat) ∧
    ((writer 1 0 0 0).regs.arg0.toNat < 2 ^ 9 ∧ ¬ HasRoom (writer 1 0 0 0) 9) ∧
    (WriterReady (writer 4 0 0 0xFFFFFFFF) ∧ (writer 4 0 0 0xFFFFFFFF).regs.arg0.toNat < 2 ^ 32 ∧
      HasRoom (writer 4 0 0 0xFFFFFFFF) 32) ∧ 32 < 33 ∧ 33 < 64 :=
  ⟨⟨by unfold inSpace; decide, by decide⟩, ⟨by decide, by unfold HasRoom; decide⟩,
   ⟨writer_ready _ _ _ _ (by decide) (by decide), by decide, by unfold HasRoom; decide⟩, by decide, by decide⟩

theorem witness_WrBitEmitsTheBit :
    (inSpace (writer 4 0 0 2).regs.bwBase.toNat (writer 4 0 0 2).regs.bwCap.toNat ∧ 1 < (writer 4 0 0 2).regs.arg0.toNat) ∧
    ((writer 1 8 0 1).regs.arg0.toNat ≤ 1 ∧ ¬ HasRoom (writer 1 8 0 1) 1) ∧
    (WriterReady (writer 1 7 0xFE 1) ∧ (writer 1 7 0xFE 1).regs.arg0.toNat ≤ 1 ∧ HasRoom (writer 1 7 0xFE 1) 1) :=
  ⟨⟨by unfold inSpace; decide, by decide⟩, ⟨by decide, by unfold HasRoom; decide⟩,
   writer_ready _ _ _ _ (by decide) (by decide), by decide, by unfold HasRoom; decide⟩

/-- The largest value WR_UE writes, with room for its 63 bits and without. -/
theorem witness_WrUeEmitsTheCode :
    (inSpace (writer 8 0 0 0xFFFFFFFF).regs.bwBase.toNat (writer 8 0 0 0xFFFFFFFF).regs.bwCap.toNat ∧
      (writer 8 0 0 0xFFFFFFFF).regs.arg0 = 0xFFFFFFFF) ∧
    (IsPrefix (writer 7 0 0 0xFFFFFFFE).regs.arg0.toNat 31 ∧ ¬ HasRoom (writer 7 0 0 0xFFFFFFFE) (2 * 31 + 1)) ∧
    (WriterReady (writer 8 0 0 0xFFFFFFFE) ∧ (writer 8 0 0 0xFFFFFFFE).regs.arg0 ≠ 0xFFFFFFFF ∧
      IsPrefix (writer 8 0 0 0xFFFFFFFE).regs.arg0.toNat 31 ∧ HasRoom (writer 8 0 0 0xFFFFFFFE) (2 * 31 + 1)) :=
  ⟨⟨by unfold inSpace; decide, by decide⟩, ⟨by unfold IsPrefix; decide, by unfold HasRoom; decide⟩,
   writer_ready _ _ _ _ (by decide) (by decide), by decide, by unfold IsPrefix; decide, by unfold HasRoom; decide⟩

/-- −2 has code number 4 and prefix length 2. -/
theorem witness_WrSeEmitsTheCode :
    (inSpace (writer 8 0 0 0x80000000).regs.bwBase.toNat (writer 8 0 0 0x80000000).regs.bwCap.toNat ∧
      (writer 8 0 0 0x80000000).regs.arg0 = 0x80000000) ∧
    (IsPrefix (codeOf (writer 1 4 0 0xFFFFFFFE).regs.arg0.toInt) 2 ∧ ¬ HasRoom (writer 1 4 0 0xFFFFFFFE) (2 * 2 + 1)) ∧
    (WriterReady (writer 1 3 0 0xFFFFFFFE) ∧ (writer 1 3 0 0xFFFFFFFE).regs.arg0 ≠ 0x80000000 ∧
      IsPrefix (codeOf (writer 1 3 0 0xFFFFFFFE).regs.arg0.toInt) 2 ∧ HasRoom (writer 1 3 0 0xFFFFFFFE) (2 * 2 + 1)) :=
  ⟨⟨by unfold inSpace; decide, by decide⟩, ⟨by unfold IsPrefix codeOf; decide, by unfold HasRoom; decide⟩,
   writer_ready _ _ _ _ (by decide) (by decide), by decide, by unfold IsPrefix codeOf; decide, by unfold HasRoom; decide⟩

/-- One past the capacity, at the capacity, and inside a byte. -/
theorem witness_WrAlignFlushPadsAndReports :
    (inSpace (writer 4 33 0 0).regs.bwBase.toNat (writer 4 33 0 0).regs.bwCap.toNat ∧ ¬ HasRoom (writer 4 33 0 0) 0) ∧
    (admitted (writer 4 32 0 0) (writer 4 32 0 0).regs.bwBase.toNat (writer 4 32 0 0).regs.bwCap.toNat ∧
      (writer 4 32 0 0).mem.wf = true ∧ HasRoom (writer 4 32 0 0) 0) ∧
    HasRoom (writer 4 31 0xFE 0) 0 :=
  ⟨⟨by unfold inSpace; decide, by unfold HasRoom; decide⟩,
   ⟨admitted_of_no_holes _ rfl _ _, rfl, by unfold HasRoom; decide⟩, by unfold HasRoom; decide⟩

theorem witness_FixedWidthRoundTrip :
    WriterReady (writer 4 0 0 0xFFFFFFFF) ∧ HasRoom (writer 4 0 0 0xFFFFFFFF) 32 ∧ (writer 4 0 0 0xFFFFFFFF).regs.arg0.toNat < 2 ^ 32 :=
  ⟨writer_ready _ _ _ _ (by decide) (by decide), by unfold HasRoom; decide, by decide⟩

theorem witness_GolombRoundTrip :
    (WriterReady (writer 8 0 0 0xFFFFFFFE) ∧ HasRoom (writer 8 0 0 0xFFFFFFFE) (2 * 31 + 1) ∧
      (writer 8 0 0 0xFFFFFFFE).regs.arg0 ≠ 0xFFFFFFFF ∧ IsPrefix (writer 8 0 0 0xFFFFFFFE).regs.arg0.toNat 31) ∧
    (WriterReady (writer 1 3 0 0xFFFFFFFE) ∧ HasRoom (writer 1 3 0 0xFFFFFFFE) (2 * 2 + 1) ∧
      (writer 1 3 0 0xFFFFFFFE).regs.arg0 ≠ 0x80000000 ∧ IsPrefix (codeOf (writer 1 3 0 0xFFFFFFFE).regs.arg0.toInt) 2) :=
  ⟨⟨writer_ready _ _ _ _ (by decide) (by decide), by unfold HasRoom; decide, by decide, by unfold IsPrefix; decide⟩,
   writer_ready _ _ _ _ (by decide) (by decide), by unfold HasRoom; decide, by decide, by unfold IsPrefix codeOf; decide⟩

/-- Up to 4096 source bytes at 0x1000 and a destination at 0x2000 are ready. -/
theorem codec_ready (bytes : List Byte) (cap : Length) (h : bytes.length ≤ 4096) (hc : cap.toNat < 2 ^ 28) :
    CodecReady (codec bytes cap) := by
  refine ⟨⟨?_, ?_, ?_⟩, admitted_of_no_holes _ rfl _ _, admitted_of_no_holes _ rfl _ _, place_wf _ _ _⟩ <;>
    simp [codec, place, inSpace] <;> omega

/-- 00 00 03 01: three bytes out, into three and into two (N17, N16). -/
theorem witness_NalUnescapeWritesTheUnescapedBytes :
    (CodecReady (codec [0x00, 0x00, 0x03, 0x01] 3) ∧
      (unescapeFrom 0 (sourceBytes (codec [0x00, 0x00, 0x03, 0x01] 3))).length ≤ (codec [0x00, 0x00, 0x03, 0x01] 3).regs.dstCap.toNat) ∧
    (CodecReady (codec [0x00, 0x00, 0x03, 0x01] 2) ∧
      (codec [0x00, 0x00, 0x03, 0x01] 2).regs.dstCap.toNat < (unescapeFrom 0 (sourceBytes (codec [0x00, 0x00, 0x03, 0x01] 2))).length) :=
  ⟨⟨codec_ready _ _ (by decide) (by decide), by decide⟩, codec_ready _ _ (by decide) (by decide), by decide⟩

/-- 00 00 00: four bytes out, into four and into three (N15). -/
theorem witness_NalEscapeWritesTheEscapedBytes :
    (CodecReady (codec [0x00, 0x00, 0x00] 4) ∧
      (escapeFrom 0 (sourceBytes (codec [0x00, 0x00, 0x00] 4))).length ≤ (codec [0x00, 0x00, 0x00] 4).regs.dstCap.toNat) ∧
    (CodecReady (codec [0x00, 0x00, 0x00] 3) ∧
      (codec [0x00, 0x00, 0x00] 3).regs.dstCap.toNat < (escapeFrom 0 (sourceBytes (codec [0x00, 0x00, 0x00] 3))).length) :=
  ⟨⟨codec_ready _ _ (by decide) (by decide), by decide⟩, codec_ready _ _ (by decide) (by decide), by decide⟩

theorem witness_EscapeFitsInHalfAgain :
    CodecReady (codec [0x00, 0x00, 0x00] 4) ∧
    (codec [0x00, 0x00, 0x00] 4).regs.srcLen.toNat + (codec [0x00, 0x00, 0x00] 4).regs.srcLen.toNat / 2 ≤
      (codec [0x00, 0x00, 0x00] 4).regs.dstCap.toNat ∧
    ∀ k < (codec [0x00, 0x00, 0x00] 4).regs.srcLen.toNat,
      (codec [0x00, 0x00, 0x00] 4).mem.read ((codec [0x00, 0x00, 0x00] 4).regs.srcBase.toNat + k) = 0 :=
  ⟨codec_ready _ _ (by decide) (by decide), by decide, by decide⟩

theorem witness_UnescapeUndoesEscape :
    let s := codec [0x00, 0x00, 0x00] 4
    CodecReady s ∧ s.regs.srcLen.toNat + s.regs.srcLen.toNat / 2 ≤ s.regs.dstCap.toNat ∧
    inSpace (0x2004 : Word).toNat (3 : Length).toNat ∧ admitted s (0x2004 : Word).toNat (3 : Length).toNat ∧
    s.regs.srcLen.toNat ≤ (3 : Length).toNat ∧
    (s.regs.dstBase.toNat + s.regs.dstCap.toNat ≤ (0x2004 : Word).toNat ∨
      (0x2004 : Word).toNat + (3 : Length).toNat ≤ s.regs.dstBase.toNat) :=
  ⟨codec_ready _ _ (by decide) (by decide), by decide, by unfold inSpace; decide, admitted_of_no_holes _ rfl _ _, by decide, by decide⟩

theorem witness_EscapedOutputHasNoStartCode :
    ∃ t, CodecReady (codec [0x00, 0x00, 0x01] 4) ∧ exec .nalEscape (codec [0x00, 0x00, 0x01] 4) = .next t ∧ t.engine = .idle ∧
      t.regs.status.code = .ok ∧ 1 + 2 < t.regs.res0.toNat :=
  ⟨_, codec_ready _ _ (by decide) (by decide), rfl, rfl, rfl, by decide⟩

/-- A locator source is ready. -/
theorem source_ready (bytes : List Byte) (cursor : Length) : SourceReady (source bytes cursor) := by
  refine ⟨?_, admitted_of_no_holes _ rfl _ _⟩
  simp [source, place, inSpace]
  omega

/-- Found at offset 1 with the header byte last; a start code without a header byte; a cursor past the end. -/
theorem witness_LocateAbFindsTheNextStartCode :
    (let s := source [0x00, 0x00, 0x00, 0x01, 0x67] 0
     SourceReady s ∧ s.regs.locCursor.toNat ≤ 1 ∧ 1 + 3 < s.regs.srcLen.toNat ∧ StartCodeAt s 1 ∧
       ∀ j, s.regs.locCursor.toNat ≤ j → j < 1 → ¬ StartCodeAt s j) ∧
    (let s := source [0x00, 0x00, 0x01] 0
     SourceReady s ∧ s.regs.locCursor.toNat ≤ s.regs.srcLen.toNat ∧
       ∀ j, s.regs.locCursor.toNat ≤ j → j + 3 < s.regs.srcLen.toNat → ¬ StartCodeAt s j) ∧
    (let s := source [0x00, 0x00, 0x01] 4
     SourceReady s ∧ s.regs.srcLen.toNat < s.regs.locCursor.toNat) := by
  refine ⟨⟨source_ready _ _, by decide, by decide, by unfold StartCodeAt; decide, ?_⟩,
    ⟨source_ready _ _, by decide, ?_⟩, source_ready _ _, by decide⟩
  · intro j _ hj
    obtain rfl : j = 0 := by omega
    unfold StartCodeAt
    decide
  · intro j _ hj
    exact absurd hj (Nat.not_lt_of_le (Nat.le_add_left 3 j))

/-- A size that just fits; the end of the buffer; a cursor past the end; a truncated field; size 0; a size one too large. -/
theorem witness_LocateLpReadsTheSizeField :
    (let s := source [0x00, 0x00, 0x00, 0x01, 0x67] 0
     SourceReady s ∧ 0 = s.regs.locCursor.toNat ∧ 5 = s.regs.srcLen.toNat ∧ 0 + 4 ≤ 5 ∧ 0 < sizeAtCursor s 0 ∧
       sizeAtCursor s 0 ≤ 5 - 0 - 4) ∧
    (let s := source [0x00] 1
     SourceReady s ∧ 1 = s.regs.locCursor.toNat ∧ 1 = s.regs.srcLen.toNat) ∧
    (let s := source [0x00] 2
     SourceReady s ∧ 2 = s.regs.locCursor.toNat ∧ 1 = s.regs.srcLen.toNat ∧ 1 < 2) ∧
    (let s := source [0x00, 0x00, 0x01] 0
     SourceReady s ∧ 0 = s.regs.locCursor.toNat ∧ 3 = s.regs.srcLen.toNat ∧ 0 < 3 ∧ 3 < 0 + 4) ∧
    (let s := source [0x00, 0x00, 0x00, 0x00] 0
     SourceReady s ∧ 0 = s.regs.locCursor.toNat ∧ 4 = s.regs.srcLen.toNat ∧ 0 + 4 ≤ 4 ∧ sizeAtCursor s 0 = 0) ∧
    (let s := source [0x00, 0x00, 0x00, 0x02, 0x65] 0
     SourceReady s ∧ 0 = s.regs.locCursor.toNat ∧ 5 = s.regs.srcLen.toNat ∧ 0 + 4 ≤ 5 ∧ 5 - 0 - 4 < sizeAtCursor s 0) := by
  refine ⟨⟨source_ready _ _, ?_⟩, ⟨source_ready _ _, ?_⟩, ⟨source_ready _ _, ?_⟩,
    ⟨source_ready _ _, ?_⟩, ⟨source_ready _ _, ?_⟩, source_ready _ _, ?_⟩ <;> decide

/-- Any SPS of the tests is ready. -/
theorem sps_ready (bytes : List Byte) (cap : Length) (ovr num den : Word) (h : bytes.length ≤ 4096) (hc : cap.toNat < 2 ^ 28) :
    CodecReady (sps bytes cap ovr num den) := by
  refine ⟨⟨?_, ?_, ?_⟩, admitted_of_no_holes _ rfl _ _, admitted_of_no_holes _ rfl _ _, place_wf _ _ _⟩ <;>
    simp [sps, place, inSpace] <;> omega

/-- The parameters of the reset state are those of R7. sps1 has no timing fields and its walk ends at bit 52; sps2 has them at bit 58 and
its walk ends at bit 127 (L2.5). -/
theorem witness_SpsRewriteChangesOnlyOverriddenFields :
    State.reset.platform.params = Params.spec ∧
    (let s := sps sps1 7 0x2901 0 0
     CodecReady s ∧ FpsFits s ∧ s.regs.srcLen.toNat ≤ s.regs.dstCap.toNat ∧ pSps (spsBits s) 0 = some (none, 52) ∧
       profileAllowed s = true) ∧
    (let s := sps sps2 16 0x2 0x7FFFFFFF 1
     CodecReady s ∧ FpsFits s ∧ s.regs.srcLen.toNat ≤ s.regs.dstCap.toNat ∧ pSps (spsBits s) 0 = some (some 58, 127) ∧
       profileAllowed s = true) :=
  ⟨rfl, ⟨sps_ready _ _ _ _ _ (by decide) (by decide), by unfold FpsFits; decide, by decide, by decide +kernel, by decide⟩,
   sps_ready _ _ _ _ _ (by decide) (by decide), by unfold FpsFits; decide, by decide, by decide +kernel, by decide⟩

/-- S4, truncated; S5, a profile the mask refuses; S3, a destination one byte short. -/
theorem witness_SpsFailureCodes :
    (let s := sps (sps1.take 5) 5 0 0 0
     CodecReady s ∧ FpsFits s ∧ s.regs.srcLen.toNat ≤ s.regs.dstCap.toNat ∧ pSps (spsBits s) 0 = none) ∧
    (let s := { sps sps1 7 0 0 0 with regs := { (sps sps1 7 0 0 0).regs with profileAllow := Vector.replicate 8 0 } }
     CodecReady s ∧ FpsFits s ∧ s.regs.srcLen.toNat ≤ s.regs.dstCap.toNat ∧ 0 < s.regs.srcLen.toNat ∧ profileAllowed s = false) ∧
    (let s := sps sps1 6 0 0 0
     CodecReady s ∧ FpsFits s ∧ s.regs.dstCap.toNat < s.regs.srcLen.toNat ∧ pSps (spsBits s) 0 ≠ none ∧ profileAllowed s = true) :=
  ⟨⟨sps_ready _ _ _ _ _ (by decide) (by decide), by unfold FpsFits; decide, by decide, by decide +kernel⟩,
   ⟨sps_ready sps1 7 0 0 0 (by decide) (by decide), by unfold FpsFits; decide, by decide, by decide, by decide⟩,
   sps_ready _ _ _ _ _ (by decide) (by decide), by unfold FpsFits; decide, by decide, by decide +kernel, by decide⟩

/-- S10: a numerator of 2^31. -/
theorem witness_LargeFrameRateIsUnsupported :
    let s := sps sps2 16 0x2 0x80000000 0
    UsableBuffers s.regs ∧ ¬ FpsFits s ∧
    ∃ t, exec .spsRewrite s = .next t ∧ t.engine = .idle ∧ t.regs.status.code = .unsupportedConfiguration :=
  ⟨by unfold UsableBuffers inSpace; decide, by unfold FpsFits; decide, _, rfl, rfl, rfl⟩

/-- The CORE_BE row of the sync table. -/
def coreBeRow : SyncRow := ⟨1, 0xFFFFFFFFFC00, 0x7FFE8001FC00, 6, 2, fun w => coreSizeN w, true⟩

/-- The EXSS row of the sync table. -/
def exssRow : SyncRow := ⟨5, 0x0000FFFFFFFF, 0x000064582025, 4, 6, fun w => exssSizeN w, false⟩

theorem coreBeRow_mem : coreBeRow ∈ syncTable := .head _

theorem exssRow_mem : exssRow ∈ syncTable := .tail _ (.tail _ (.tail _ (.tail _ (.head _))))

theorem witness_SyncPatternsAreDisjoint :
    matchesSync Params.spec .coreBe 0x7FFE8001FC3C = true ∧ State.reset.platform.params = Params.spec := ⟨by decide, rfl⟩

/-- The chunks of the tests are scanned with the sync table of the spec. -/
theorem chunk_syncRows (bytes : List Byte) (d : Dca) : syncRows (chunk bytes d) = syncTable := rfl

/-- A chunk of one byte can be scanned from any state a scan produces. -/
theorem one_byte_scan (b : Byte) (d : Dca) (hb : b ≠ 0) (h : d.phase.toNat ≤ 4 ∧ d.lock.toNat ≤ 5 ∧ (d.phase.toNat = 0 ∨ d.lock.toNat ≠ 0)) :
    OneByteScan (chunk [b] d) b := by
  refine ⟨⟨by simp [chunk, place, inSpace], admitted_of_no_holes _ rfl _ _⟩, by simp [chunk, place], ?_, h⟩
  have e : (chunk [b] d).mem = [(0x1000, b)] := by
    simp [chunk, place, Memory.writeList, Memory.write, Memory.put, unlistedByte, addressSpace]
    exact if_neg hb
  rw [e]
  rfl

/-- The sixth byte of a CORE_BE marker with no family locked, and with CORE_BE locked; a byte that ends no marker. -/
theorem witness_ScanPhaseNoStart :
    (OneByteScan (chunk [0x3C] ⟨0x7FFE8001FC, 0, 0, 5, 0, 0⟩) 0x3C ∧
      syncRows (chunk [0x3C] ⟨0x7FFE8001FC, 0, 0, 5, 0, 0⟩) = [] ++ coreBeRow :: syncTable.tail ∧
      SyncMatch coreBeRow (winAfter (chunk [0x3C] ⟨0x7FFE8001FC, 0, 0, 5, 0, 0⟩) 0x3C)) ∧
    (OneByteScan (chunk [0x3C] ⟨0x7FFE8001FC, 0, 1, 5, 0, 0⟩) 0x3C ∧
      LockedMarker (chunk [0x3C] ⟨0x7FFE8001FC, 0, 1, 5, 0, 0⟩) 0x3C coreBeRow) ∧
    (OneByteScan (chunk [0x11] ⟨0, 0, 0, 0, 0, 0⟩) 0x11 ∧
      ∀ row ∈ syncRows (chunk [0x11] ⟨0, 0, 0, 0, 0, 0⟩), ¬ SyncMatch row (winAfter (chunk [0x11] ⟨0, 0, 0, 0, 0, 0⟩) 0x11)) :=
  ⟨⟨one_byte_scan _ _ (by decide) (by decide), rfl, by unfold SyncMatch; decide⟩,
   ⟨one_byte_scan _ _ (by decide) (by decide), coreBeRow_mem, by decide, by unfold SyncMatch; decide⟩,
   one_byte_scan _ _ (by decide) (by decide), by rw [chunk_syncRows]; unfold SyncMatch syncTable; decide⟩

/-- CORE_BE at its size position, and one byte before it. -/
theorem witness_ScanPhaseAwaitSize :
    (OneByteScan (chunk [0x70] ⟨0x7FFE8001FC3C01, 1, 1, 1, 0, 0⟩) 0x70 ∧
      coreBeRow ∈ syncRows (chunk [0x70] ⟨0x7FFE8001FC3C01, 1, 1, 1, 0, 0⟩) ∧
      (chunk [0x70] ⟨0x7FFE8001FC3C01, 1, 1, 1, 0, 0⟩).regs.dca.lock.toNat = coreBeRow.family ∧
      countAfter (chunk [0x70] ⟨0x7FFE8001FC3C01, 1, 1, 1, 0, 0⟩) = coreBeRow.sizeAt) ∧
    (OneByteScan (chunk [0x01] ⟨0x7FFE8001FC3C, 1, 1, 0, 0, 0⟩) 0x01 ∧
      countAfter (chunk [0x01] ⟨0x7FFE8001FC3C, 1, 1, 0, 0, 0⟩) ≠ coreBeRow.sizeAt) :=
  ⟨⟨one_byte_scan _ _ (by decide) (by decide), coreBeRow_mem, by decide, by decide⟩, one_byte_scan _ _ (by decide) (by decide), by decide⟩

/-- In phase 2 the locked marker at FSIZE = COUNT; an EXSS marker at FSIZE = COUNT + 2 and one byte before; a plain byte. -/
theorem witness_ScanPhaseAdjacent :
    (OneByteScan (chunk [0x3C] ⟨0x7FFE8001FC, 2, 1, 23, 24, 0⟩) 0x3C ∧
      LockedMarker (chunk [0x3C] ⟨0x7FFE8001FC, 2, 1, 23, 24, 0⟩) 0x3C coreBeRow ∧
      (chunk [0x3C] ⟨0x7FFE8001FC, 2, 1, 23, 24, 0⟩).regs.dca.fsize.toNat ≤ countAfter (chunk [0x3C] ⟨0x7FFE8001FC, 2, 1, 23, 24, 0⟩)) ∧
    (OneByteScan (chunk [0x25] ⟨0x645820, 2, 1, 21, 24, 0⟩) 0x25 ∧
      (∀ row ∈ syncRows (chunk [0x25] ⟨0x645820, 2, 1, 21, 24, 0⟩), (chunk [0x25] ⟨0x645820, 2, 1, 21, 24, 0⟩).regs.dca.lock.toNat = row.family →
        ¬ SyncMatch row (winAfter (chunk [0x25] ⟨0x645820, 2, 1, 21, 24, 0⟩) 0x25)) ∧
      SyncMatch (exssRowOf (chunk [0x25] ⟨0x645820, 2, 1, 21, 24, 0⟩)) (winAfter (chunk [0x25] ⟨0x645820, 2, 1, 21, 24, 0⟩) 0x25) ∧
      (chunk [0x25] ⟨0x645820, 2, 1, 21, 24, 0⟩).regs.dca.fsize.toNat ≤ countAfter (chunk [0x25] ⟨0x645820, 2, 1, 21, 24, 0⟩) + 2) ∧
    (OneByteScan (chunk [0x25] ⟨0x645820, 2, 1, 20, 24, 0⟩) 0x25 ∧
      countAfter (chunk [0x25] ⟨0x645820, 2, 1, 20, 24, 0⟩) + 2 < (chunk [0x25] ⟨0x645820, 2, 1, 20, 24, 0⟩).regs.dca.fsize.toNat) :=
  ⟨⟨one_byte_scan _ _ (by decide) (by decide), ⟨coreBeRow_mem, by decide, by unfold SyncMatch; decide⟩, by decide⟩,
   ⟨one_byte_scan _ _ (by decide) (by decide), by rw [chunk_syncRows]; unfold SyncMatch syncTable; decide, by unfold SyncMatch; decide,
    by decide⟩,
   one_byte_scan _ _ (by decide) (by decide), by decide⟩

/-- The substream's size position, and one byte before; with FSIZE = 2^32 − 1 no count reaches it. -/
theorem witness_ScanPhaseExssSize :
    (OneByteScan (chunk [0x60] ⟨0x64582025_0001E002, 3, 1, 27, 24, 0⟩) 0x60 ∧
      countAfter (chunk [0x60] ⟨0x64582025_0001E002, 3, 1, 27, 24, 0⟩) =
        (chunk [0x60] ⟨0x64582025_0001E002, 3, 1, 27, 24, 0⟩).regs.dca.fsize.toNat + 4) ∧
    (OneByteScan (chunk [0x60] ⟨0, 3, 1, 2, 0xFFFFFFFF, 0⟩) 0x60 ∧
      countAfter (chunk [0x60] ⟨0, 3, 1, 2, 0xFFFFFFFF, 0⟩) ≠ (chunk [0x60] ⟨0, 3, 1, 2, 0xFFFFFFFF, 0⟩).regs.dca.fsize.toNat + 4) :=
  ⟨⟨one_byte_scan _ _ (by decide) (by decide), by decide⟩, one_byte_scan _ _ (by decide) (by decide), by decide⟩

/-- In phase 4 the EXSS marker of a stream locked to EXSS at FSIZE = COUNT; the same marker one byte early. -/
theorem witness_ScanPhaseNextMarker :
    (OneByteScan (chunk [0x25] ⟨0x645820, 4, 5, 19, 20, 0⟩) 0x25 ∧
      LockedMarker (chunk [0x25] ⟨0x645820, 4, 5, 19, 20, 0⟩) 0x25 exssRow ∧
      (chunk [0x25] ⟨0x645820, 4, 5, 19, 20, 0⟩).regs.dca.fsize.toNat ≤ countAfter (chunk [0x25] ⟨0x645820, 4, 5, 19, 20, 0⟩)) ∧
    (OneByteScan (chunk [0x25] ⟨0x645820, 4, 5, 18, 20, 0⟩) 0x25 ∧
      countAfter (chunk [0x25] ⟨0x645820, 4, 5, 18, 20, 0⟩) < (chunk [0x25] ⟨0x645820, 4, 5, 18, 20, 0⟩).regs.dca.fsize.toNat) :=
  ⟨⟨one_byte_scan _ _ (by decide) (by decide), ⟨exssRow_mem, by decide, by unfold SyncMatch; decide⟩, by decide⟩,
   one_byte_scan _ _ (by decide) (by decide), by decide⟩

/-- Two bytes scanned one at a time; and a boundary in the first byte. -/
theorem witness_ChunkingInvariance :
    (let s := source [0x7F, 0xFE] 0
     SourceReady s ∧ s.regs.srcLen.toNat = 1 + 1 ∧
       ∃ t, exec (.dcaScan false) { s with regs := { s.regs with srcLen := BitVec.ofNat 29 1 } } = .next t ∧
         t.regs.status.code = .notYetComplete) ∧
    (let s := chunk [0x3C, 0x01] ⟨0x7FFE8001FC, 2, 1, 23, 24, 0⟩
     s.regs.srcLen.toNat = 1 + 1 ∧
       ∃ t, exec (.dcaScan false) { s with regs := { s.regs with srcLen := BitVec.ofNat 29 1 } } = .next t ∧
         t.regs.status.code = .ok) :=
  ⟨⟨source_ready _ _, by decide, _, rfl, by decide⟩, by decide, _, rfl, by decide⟩

/-- The three kinds of state a scan refuses, and an empty chunk from reset. -/
theorem witness_ScanBypassAndStateCheck :
    inSpace (chunk [] Dca.reset).regs.srcBase.toNat (chunk [] Dca.reset).regs.srcLen.toNat ∧
    4 < (chunk [] ⟨0, 5, 1, 0, 0, 0⟩).regs.dca.phase.toNat ∧ 5 < (chunk [] ⟨0, 0, 6, 0, 0, 0⟩).regs.dca.lock.toNat ∧
    ((chunk [] ⟨0, 1, 0, 0, 0, 0⟩).regs.dca.phase ≠ 0 ∧ (chunk [] ⟨0, 1, 0, 0, 0, 0⟩).regs.dca.lock = 0) ∧
    ((chunk [] Dca.reset).regs.srcLen = 0 ∧ (chunk [] Dca.reset).regs.dca.phase.toNat ≤ 4 ∧
      (chunk [] Dca.reset).regs.dca.lock.toNat ≤ 5 ∧ (chunk [] Dca.reset).regs.dca.phase = 0) := by
  unfold inSpace
  decide

end Sys2Proof.Tests
end

section
/-! PROOF. Stream bits as lists, the claims' bits and the model's, and the reads at a cursor. -/

namespace Sys2Proof.Proofs

open Sys2Proof.Machine Sys2Proof.Claims

/-! ### Lists of stream bits -/

/-- The n bits of a bit stream from position p on. -/
def stream (out : Nat → Bool) (p n : Nat) : List Bool := (List.range' p n).map out

@[simp] theorem stream_zero (out : Nat → Bool) (p : Nat) : stream out p 0 = [] := rfl

theorem stream_succ (out : Nat → Bool) (p n : Nat) : stream out p (n + 1) = out p :: stream out (p + 1) n := by
  simp [stream, List.range'_succ]

@[simp] theorem stream_length (out : Nat → Bool) (p n : Nat) : (stream out p n).length = n := by simp [stream]

@[simp] theorem stream_eq_nil {out : Nat → Bool} {p n : Nat} : stream out p n = [] ↔ n = 0 := by simp [stream]

theorem stream_append (out : Nat → Bool) (p m n : Nat) : stream out p m ++ stream out (p + m) n = stream out p (m + n) := by
  rw [stream, stream, ← List.map_append, List.range'_append_1, stream]

theorem stream_congr {out out' : Nat → Bool} {p n : Nat} (h : ∀ q, p ≤ q → q < p + n → out q = out' q) :
    stream out p n = stream out' p n :=
  List.map_congr_left fun q hq => by
    rw [List.mem_range'_1] at hq
    exact h q hq.1 hq.2

/-- The n low bits of a number, as the writer emits them at position p. -/
theorem bitsMsb_eq_stream (n v p : Nat) : bitsMsb n v = stream (fun q => v.testBit (p + n - 1 - q)) p n := by
  induction n generalizing p with
  | zero => rfl
  | succ n ih =>
    rw [bitsMsb, stream_succ, ih (p + 1), show p + (n + 1) - 1 - p = n by omega, show p + 1 + n = p + (n + 1) by omega]

/-! ### The claims' bits and the model's -/

theorem specBit_eq_bitAt (m : Memory) (base p : Nat) : specBit m base p = (bitAt m base p).toNat := by
  rw [specBit, bitAt, BitVec.getLsbD, Nat.toNat_testBit, Nat.and_one_is_mod, Nat.shiftRight_eq_div_pow]

/-- The first of n + 1 stream bits is the most significant. -/
theorem bitsAt_succ_first (m : Memory) (base p n : Nat) :
    bitsAt m base p (n + 1) = (bitAt m base p).toNat * 2 ^ n + bitsAt m base (p + 1) n := by
  induction n with
  | zero => simp [bitsAt]
  | succ n ih =>
    rw [bitsAt, ih, bitsAt, show p + 1 + n = p + (n + 1) by omega, Nat.pow_succ]
    ring

theorem specBits_eq_bitsAt (m : Memory) (base p n : Nat) : specBits m base p n = bitsAt m base p n := by
  induction n generalizing p with
  | zero => rfl
  | succ n ih =>
    rw [bitsAt_succ_first, ← ih (p + 1), specBits, Finset.sum_range_succ', specBits, Nat.add_comm, ← specBit_eq_bitAt]
    congr 1
    refine Finset.sum_congr rfl fun i _ => ?_
    rw [show p + 1 + i = p + (i + 1) by omega, show n + 1 - 1 - (i + 1) = n - 1 - i by omega]

theorem bitsAt_testBit (m : Memory) (base p : Nat) {n i : Nat} (h : i < n) :
    (bitsAt m base p n).testBit (n - 1 - i) = bitAt m base (p + i) := by
  induction n with
  | zero => omega
  | succ n ih =>
    rw [bitsAt, ← Nat.bit_val]
    rcases Nat.lt_succ_iff_lt_or_eq.mp h with hlt | rfl
    · rw [show n + 1 - 1 - i = (n - 1 - i).succ by omega, Nat.testBit_bit_succ, ih hlt]
    · rw [show i + 1 - 1 - i = 0 by omega, Nat.testBit_bit_zero]

/-- Emitting a value read from a stream emits the stream's own bits. -/
theorem bitsMsb_bitsAt (m : Memory) (base p n : Nat) : bitsMsb n (bitsAt m base p n) = stream (bitAt m base) p n := by
  rw [bitsMsb_eq_stream n _ p]
  refine stream_congr fun q h1 h2 => ?_
  have := bitsAt_testBit m base p (n := n) (i := q - p) (by omega)
  rwa [show n - 1 - (q - p) = p + n - 1 - q by omega, show p + (q - p) = q by omega] at this

/-- The eight bits of the first byte are the byte. -/
theorem bitsAt_first_byte (m : Memory) (base : Nat) : bitsAt m base 0 8 = (m.read base).toNat := by
  refine Nat.eq_of_testBit_eq fun i => ?_
  by_cases hi : i < 8
  · have := bitsAt_testBit m base 0 (n := 8) (i := 7 - i) (by omega)
    rw [show 8 - 1 - (7 - i) = i by omega] at this
    rw [this, bitAt, show base + (0 + (7 - i)) / 8 = base by omega, show 7 - (0 + (7 - i)) % 8 = i by omega, BitVec.getLsbD]
  · have hp : 2 ^ 8 ≤ 2 ^ i := Nat.pow_le_pow_right (by omega) (by omega)
    rw [Nat.testBit_lt_two_pow ((bitsAt_lt m base 0 8).trans_le hp),
      Nat.testBit_lt_two_pow ((m.read base).isLt.trans_le hp)]

/-! ### Exp-Golomb codes -/

/-- A whole Exp-Golomb code with k ≤ 31 leading zeros stands at stream bit p of a buffer of `limit` bits (41_bitreader.md R155). -/
structure GolombCode (m : Memory) (base limit p k : Nat) : Prop where
  short : k < 32
  fits  : p + 2 * k + 1 ≤ limit
  zeros : ∀ i < k, bitAt m base (p + i) = false
  one   : bitAt m base (p + k) = true

/-- The code number of a code with k leading zeros at stream bit p (00_scope.md R12). -/
def codeNumber (m : Memory) (base p k : Nat) : Nat := 2 ^ k - 1 + bitsAt m base (p + k + 1) k

/-- Emitting the code number of a code emits the code's own bits: the code is the shortest one. -/
theorem ueBits_codeNumber {m : Memory} {base limit p k : Nat} (h : GolombCode m base limit p k) :
    ueBits (codeNumber m base p k) = stream (bitAt m base) p (2 * k + 1) := by
  have hlt := bitsAt_lt m base (p + k + 1) k
  have hsucc : codeNumber m base p k + 1 = bitsAt m base (p + k) (k + 1) := by
    have := Nat.two_pow_pos k
    rw [bitsAt_succ_first, h.one, codeNumber, Bool.toNat_true]
    omega
  have hlog : Nat.log2 (codeNumber m base p k + 1) = k := by
    rw [Nat.log2_eq_iff (by omega), Nat.pow_succ, codeNumber]
    omega
  have hzeros : List.replicate k false = stream (bitAt m base) p k := by
    refine (List.eq_replicate_iff.mpr ⟨stream_length .., fun b hb => ?_⟩).symm
    obtain ⟨q, hq, rfl⟩ := List.mem_map.mp hb
    rw [List.mem_range'_1] at hq
    have := h.zeros (q - p) (by omega)
    rwa [show p + (q - p) = q by omega] at this
  rw [ueBits, hlog, hzeros, hsucc, bitsMsb_bitsAt, stream_append, show k + (k + 1) = 2 * k + 1 by omega]

/-- A read of a whole code gives its code number and the position after it. -/
theorem readUe_of_golombCode {pl : Platform} {m : Memory} {base limit p k : Nat} (h : GolombCode m base limit p k)
    (ha : ∀ q < limit, admits pl (base + q / 8) = true) :
    readUe pl m base limit p = .ok (codeNumber m base p k, p + 2 * k + 1) := by
  obtain ⟨hk, hl, hz, ho⟩ := h
  simp only [readUe, cmd_bind_ok, require_ok, decide_eq_true_eq, exists_and_left, exists_const]
  refine ⟨by omega, k, ?_, hk, hl, _, readBits_ok.mpr ⟨admitsBits_of fun i hi => ha _ (by omega), rfl⟩, rfl⟩
  exact zeroRun_ok (Nat.zero_le k) (by omega) (by omega) (fun i _ hi => hz i hi) ho fun i _ hi => ha _ (by omega)

/-- A fixed-width read inside an admitted buffer gives the field. -/
theorem readFixed_of_fits {pl : Platform} {m : Memory} {base limit p n : Nat} (h : p + n ≤ limit)
    (ha : ∀ q < limit, admits pl (base + q / 8) = true) : readFixed pl m base limit p n = .ok (bitsAt m base p n) :=
  readFixed_ok.mpr ⟨by omega, by omega, admitsBits_of fun i hi => ha _ (by omega), rfl⟩

/-- The bits of an admitted byte range are admitted. -/
theorem admits_bits {s : State} {a n : Nat} (h : admitted s a n) : ∀ q < 8 * n, admits s.platform (a + q / 8) = true :=
  fun q hq => h (q / 8) (by omega)

/-! ### Signed codes -/

/-- The claims' signed value of a code number is the model's. -/
theorem signedOf_eq_seValue (c : Nat) : signedOf c = seValue c := by
  rcases Nat.even_or_odd' c with ⟨k, rfl | rfl⟩
  · have hodd : (-1 : Int) ^ (2 * k + 1) = -1 := by simp [pow_succ, pow_mul]
    rw [signedOf, seValue, hodd, if_neg (by omega)]
    omega
  · have heven : (-1 : Int) ^ (2 * k + 1 + 1) = 1 := by simp [pow_succ, pow_mul]
    rw [signedOf, seValue, heven, if_pos (by omega)]
    omega

/-- The code number of the signed value of a code number. -/
theorem seCode_seValue (c : Nat) : seCode (seValue c) = c := by
  unfold seValue seCode
  split <;> split <;> omega

end Sys2Proof.Proofs
end

section
/-! PROOF. The emit of a bit stream: the partial byte, and the memory it leaves (42_bitwriter.md R171, R172). -/

namespace Sys2Proof.Proofs

open Sys2Proof.Machine Sys2Proof.Claims

/-- The writer's partial byte holds the bits of `out` since the last byte boundary, and zeros after them (10_state.md R34). -/
def PartialByte (out : Nat → Bool) (w : WCursor) : Prop :=
  ∀ j < 8, w.acc.getLsbD (7 - j) = (decide (j < w.pos % 8) && out (8 * (w.pos / 8) + j))

/-- Only the bits written so far count. -/
theorem PartialByte.congr {out out' : Nat → Bool} {w : WCursor} (h : PartialByte out w) (he : ∀ p < w.pos, out' p = out p) :
    PartialByte out' w := fun j hj => by
  rw [h j hj]
  by_cases hp : j < w.pos % 8
  · rw [he _ (by omega)]
  · simp [hp]

theorem streamBit_getLsbD (b : Bool) (p : Nat) {j : Nat} (hj : j < 8) :
    (streamBit b p).getLsbD (7 - j) = (decide (j = p % 8) && b) := by
  have hp : p % 8 < 8 := Nat.mod_lt _ (by omega)
  cases b with
  | false => simp
  | true =>
    simp only [streamBit, if_true, Bool.and_true]
    generalize p % 8 = r at hp
    decide +revert

/-- One more bit in the partial byte. -/
theorem PartialByte.or_streamBit {out : Nat → Bool} {w : WCursor} (h : PartialByte out w) {j : Nat} (hj : j < 8) :
    (w.acc ||| streamBit (out w.pos) w.pos).getLsbD (7 - j) =
      (decide (j < w.pos % 8 + 1) && out (8 * (w.pos / 8) + j)) := by
  rw [BitVec.getLsbD_or, h j hj, streamBit_getLsbD _ _ hj]
  by_cases hlast : j = w.pos % 8
  · rw [show 8 * (w.pos / 8) + j = w.pos by omega]
    simp [hlast]
  · simp [hlast, show (j < w.pos % 8 + 1) = (j < w.pos % 8) by simp; omega]

/-- The stream bits of a byte just written. -/
theorem bitAt_write_same {m : Memory} (hm : m.wf = true) {base p : Nat} (v : Byte) (hs : base + p / 8 < addressSpace) :
    bitAt (m.write (base + p / 8) v) base p = v.getLsbD (7 - p % 8) := by
  rw [bitAt, Memory.read_write_same hm v hs]

/-- The stream bits of a byte depend on that byte only. -/
theorem bitAt_congr {m m' : Memory} {base p : Nat} (h : m'.read (base + p / 8) = m.read (base + p / 8)) :
    bitAt m' base p = bitAt m base p := by
  rw [bitAt, h, bitAt]

/-- The loop of `Emit` on the n bits of `out` from the writer's position up to e: it ends with the next partial byte, and the bytes it
stores hold the bits of `out` and are filled up with zeros. -/
theorem emitLoop_stream {pl : Platform} {out : Nat → Bool} {n e : Nat} {w : WCursor} (he : w.pos + n = e) (hwf : w.mem.wf = true)
    (hacc : PartialByte out w) (ha : ∀ p, 8 * (w.pos / 8) ≤ p → p < e → admits pl (w.base + p / 8) = true)
    (hs : w.base + (e + 7) / 8 ≤ addressSpace) :
    ∃ w', emitLoop pl (stream out w.pos n) w = .ok w' ∧ PartialByte out w' ∧
      ∀ p, 8 * (w.pos / 8) ≤ p → p < 8 * ((e + 7) / 8) → bitAt w'.mem w.base p = (decide (p < e) && out p) := by
  induction n generalizing w with
  | zero =>
    rw [stream_zero, emitLoop]
    split
    · exact ⟨w, rfl, hacc, fun p _ _ => by omega⟩
    · rw [storeByte_admitted _ _ (by simpa using ha (8 * (w.pos / 8)) (by omega) (by omega))]
      refine ⟨_, rfl, hacc, fun p h1 h2 => ?_⟩
      have hbyte : p / 8 = w.pos / 8 := by omega
      rw [← hbyte, bitAt_write_same hwf _ (by omega), hacc _ (by omega), show 8 * (w.pos / 8) + p % 8 = p by omega,
        decide_eq_decide.mpr (show p % 8 < w.pos % 8 ↔ p < e by omega)]
  | succ n ih =>
    rw [stream_succ, emitLoop]
    split
    · rename_i hfull
      have hbyte : w.base + (w.pos + 1) / 8 - 1 = w.base + w.pos / 8 := by omega
      have hadm : admits pl (w.base + w.pos / 8) = true := by simpa using ha (8 * (w.pos / 8)) (by omega) (by omega)
      rw [hbyte, storeByte_admitted _ _ hadm]
      obtain ⟨w', hw', hacc', hbits⟩ := ih
        (w := { w with pos := w.pos + 1, acc := 0, mem := w.mem.write (w.base + w.pos / 8) (w.acc ||| streamBit (out w.pos) w.pos) })
        (by simp; omega) (Memory.wf_write hwf _ _) (fun j _ => by simp [hfull]) (fun p h1 h2 => ha p (by simp at h1; omega) h2) hs
      refine ⟨w', hw', hacc', fun p h1 h2 => ?_⟩
      by_cases hp : p < w.pos + 1
      · obtain ⟨-, -, -, -, hframe⟩ := emitLoop_frame hw'
        have hbyte : p / 8 = w.pos / 8 := by omega
        have hread := hframe (w.base + p / 8) (.inl (by simp; omega))
        rw [bitAt_congr hread, ← hbyte, bitAt_write_same hwf _ (by omega), hacc.or_streamBit (by omega),
          show 8 * (w.pos / 8) + p % 8 = p by omega,
          decide_eq_decide.mpr (show p % 8 < w.pos % 8 + 1 ↔ p < e by omega)]
      · exact hbits p (by simp; omega) h2
    · rename_i hopen
      have hdiv : (w.pos + 1) / 8 = w.pos / 8 := by omega
      obtain ⟨w', hw', hacc', hbits⟩ := ih (w := { w with pos := w.pos + 1, acc := w.acc ||| streamBit (out w.pos) w.pos })
        (by simp; omega) hwf
        (fun j hj => by simpa [hdiv, show (w.pos + 1) % 8 = w.pos % 8 + 1 by omega] using hacc.or_streamBit hj)
        (fun p h1 h2 => ha p (by simp at h1; omega) h2) hs
      exact ⟨w', hw', hacc', fun p h1 h2 => hbits p (by simp; omega) h2⟩

/-- `Emit` of n bits of `out` from the writer's position on, when they fit. -/
theorem emit_stream {pl : Platform} {out : Nat → Bool} {n : Nat} {w : WCursor} (hwf : w.mem.wf = true)
    (hacc : PartialByte out w) (hroom : w.pos + n ≤ w.limit)
    (ha : ∀ p, 8 * (w.pos / 8) ≤ p → p < w.pos + n → admits pl (w.base + p / 8) = true)
    (hs : w.base + (w.pos + n + 7) / 8 ≤ addressSpace) :
    ∃ w', emit pl (stream out w.pos n) w = .ok w' ∧ PartialByte out w' ∧
      (n ≠ 0 → ∀ p, 8 * (w.pos / 8) ≤ p → p < 8 * ((w.pos + n + 7) / 8) →
        bitAt w'.mem w.base p = (decide (p < w.pos + n) && out p)) := by
  rw [emit, if_pos ⟨by omega, by rw [stream_length]; omega⟩]
  by_cases hn : n = 0
  · subst hn
    exact ⟨w, rfl, hacc, fun h => absurd rfl h⟩
  · rw [if_neg (by simpa using hn)]
    obtain ⟨w', hw', hacc', hbits⟩ := emitLoop_stream rfl hwf hacc ha hs
    exact ⟨w', hw', hacc', fun _ => hbits⟩

/-- `Emit` on a buffer that holds `out` up to the writer's position carries on with it. -/
theorem emit_stream_extends {pl : Platform} {out : Nat → Bool} {n : Nat} {w : WCursor} (hwf : w.mem.wf = true)
    (hacc : PartialByte out w) (hroom : w.pos + n ≤ w.limit)
    (ha : ∀ p, 8 * (w.pos / 8) ≤ p → p < w.pos + n → admits pl (w.base + p / 8) = true)
    (hs : w.base + (w.pos + n + 7) / 8 ≤ addressSpace) (hold : ∀ p < w.pos, bitAt w.mem w.base p = out p) :
    ∃ w', emit pl (stream out w.pos n) w = .ok w' ∧ PartialByte out w' ∧ ∀ p < w.pos + n, bitAt w'.mem w.base p = out p := by
  obtain ⟨w', hw', hacc', hbits⟩ := emit_stream hwf hacc hroom ha hs
  refine ⟨w', hw', hacc', fun p hp => ?_⟩
  by_cases hnew : 8 * (w.pos / 8) ≤ p ∧ n ≠ 0
  · rw [hbits hnew.2 p hnew.1 (by omega), decide_eq_true hp, Bool.true_and]
  · rw [← hold p (by omega)]
    by_cases hn : n = 0
    · subst hn
      have : w' = w := by simpa [emit, show w.pos ≤ w.limit by omega, eq_comm] using hw'
      rw [this]
    · obtain ⟨-, -, -, -, -, -, hframe⟩ := emit_frame hw'
      exact bitAt_congr (hframe _ (.inl (by omega)))

end Sys2Proof.Proofs
end

section
/-! PROOF. The parts of the SPS walk against the parts of the grammar: what a part reads, and that it copies what it reads. -/

namespace Sys2Proof.Proofs

open Sys2Proof.Machine Sys2Proof.Claims

/-! ### The grammar's fields -/

/-- A sequence of two parts reads exactly when both do, one after the other. -/
theorem parse_bind_some {α β : Type} {f : Parse α} {g : α → Parse β} {p : Nat} {r : β × Nat} :
    (f >>= g) p = some r ↔ ∃ a q, f p = some (a, q) ∧ g a q = some r := by
  change (f p >>= fun z => g z.1 z.2) = some r ↔ _
  simp only [Option.bind_eq_bind, Option.bind_eq_some_iff, Prod.exists]

theorem parse_pure_some {α : Type} {a : α} {p : Nat} {r : α × Nat} : (pure a : Parse α) p = some r ↔ r = (a, p) := by
  change some (a, p) = some r ↔ _
  simp [eq_comm]

theorem parse_get_some {p : Nat} {r : Nat × Nat} : (get : Parse Nat) p = some r ↔ r = (p, p) := by
  change some (p, p) = some r ↔ _
  simp [eq_comm]

/-- Everything a field u(n) can be. -/
theorem pU_some {x : BitInput} {n p v q : Nat} :
    pU x n p = some (v, q) ↔ p + n ≤ x.limit ∧ v = bitsAt x.mem x.base p n ∧ q = p + n := by
  simp only [pU, specBits_eq_bitsAt]
  split <;> simp_all [eq_comm]

/-- Everything a field ue can be. -/
theorem pUe_some {x : BitInput} {p v q : Nat} (h : pUe x p = some (v, q)) :
    ∃ k, GolombCode x.mem x.base x.limit p k ∧ v = codeNumber x.mem x.base p k ∧ q = p + 2 * k + 1 := by
  unfold pUe at h
  split at h
  · simp at h
  · rename_i k hk
    obtain ⟨hone, hk32, hzeros⟩ := List.find?_range_eq_some.mp hk
    simp only [Bool.and_eq_true, decide_eq_true_eq, beq_iff_eq, specBit_eq_bitAt, Bool.toNat_eq_one] at hone
    obtain ⟨hfits, hvq⟩ := Option.ite_none_right_eq_some.mp h
    simp only [Option.some.injEq, Prod.mk.injEq] at hvq
    refine ⟨k, ⟨List.mem_range.mp hk32, hfits, fun i hi => ?_, hone.2⟩, ?_, hvq.2.symm⟩
    · have hz := hzeros i hi
      simp only [Bool.not_eq_true', Bool.and_eq_false_iff, decide_eq_false_iff_not, specBit_eq_bitAt] at hz
      rcases hz with hz | hz
      · omega
      · simpa using hz
    · rw [← hvq.1, specBits_eq_bitsAt, codeNumber]

/-! ### Read-only parts -/

/-- The bits of SRC as they were at the launch. -/
def sourceBit (s : State) (p : Nat) : Bool := bitAt s.mem s.regs.srcBase.toNat p

/-- A part of the walk that only reads finds what the part of the grammar finds, and moves the reader as far. -/
def Reads {α : Type} (s : State) (part : Walk α) (parse : Parse α) : Prop :=
  admitted s s.regs.srcBase.toNat s.regs.srcLen.toNat → ∀ c v p, c.rpos ≤ 8 * s.regs.srcLen.toNat → parse c.rpos = some (v, p) →
    part c = .ok (v, { c with rpos := p }) ∧ c.rpos ≤ p ∧ p ≤ 8 * s.regs.srcLen.toNat

variable {s : State} {α β : Type}

theorem Reads.pure (a : α) : Reads s (pure a) (pure a) := fun _ c v p hc hp => by
  cases parse_pure_some.mp hp
  exact ⟨rfl, le_rfl, hc⟩

theorem Reads.bind {x : Walk α} {f : α → Walk β} {y : Parse α} {g : α → Parse β} (hx : Reads s x y)
    (hf : ∀ a, Reads s (f a) (g a)) : Reads s (x >>= f) (y >>= g) := fun ha c v p hc hp => by
  obtain ⟨a, q, hy, hg⟩ := parse_bind_some.mp hp
  obtain ⟨hx, hcq, hq⟩ := hx ha c a q hc hy
  obtain ⟨hf, hqp, hp⟩ := hf a ha { c with rpos := q } v p hq hg
  exact ⟨walk_bind_ok.mpr ⟨_, _, hx, hf⟩, hcq.trans hqp, hp⟩

theorem Reads.rdU (n : Nat) : Reads s (rdU (spsInput s) n) (pU (spsBits s) n) := fun ha c v p _ hp => by
  obtain ⟨hn, rfl, rfl⟩ := pU_some.mp hp
  have hr := readFixed_of_fits (m := s.mem) hn (admits_bits ha)
  exact ⟨cmd_bind_ok.mpr ⟨_, asMalformed_ok.mpr hr, rfl⟩, by omega, hn⟩

theorem Reads.rdUe : Reads s (rdUe (spsInput s)) (pUe (spsBits s)) := fun ha c v p _ hp => by
  obtain ⟨k, hk, rfl, rfl⟩ := pUe_some hp
  have hr := readUe_of_golombCode hk (admits_bits ha)
  exact ⟨cmd_bind_ok.mpr ⟨_, asMalformed_ok.mpr hr, rfl⟩, by omega, hk.fits⟩

theorem Reads.rdSe : Reads s (rdSe (spsInput s)) (pSe (spsBits s)) :=
  .bind .rdUe fun c => by rw [signedOf_eq_seValue]; exact .pure _

theorem Reads.times (n : Nat) {x : Walk Unit} {y : Parse Unit} (h : Reads s x y) : Reads s (times n x) (pTimes n y) := by
  induction n with
  | zero => exact .pure ()
  | succ n ih => exact .bind h fun _ => ih

/-- The look-ahead over an HRD block reads what the grammar reads. -/
theorem Reads.hrdParse : Reads s (hrdParse (spsInput s)) (pHrd (spsBits s)) := by
  have hentry : Reads s (hrdEntry (spsInput s)) (do pSkipUe (spsBits s) 2; pSkip (spsBits s) [1]) := by
    simp only [hrdEntry, pSkipUe, pTimes, pSkip, bind_assoc, pure_bind]
    exact .bind .rdUe fun _ => .bind .rdUe fun _ => .bind (.rdU 1) fun _ => .pure ()
  simp only [Machine.hrdParse, pHrd, pSkip, bind_assoc, pure_bind]
  exact .bind .rdUe fun cc => .bind (.rdU 4) fun _ => .bind (.rdU 4) fun _ => .bind (.times (cc + 1) hentry) fun _ =>
    .bind (.rdU 5) fun _ => .bind (.rdU 5) fun _ => .bind (.rdU 5) fun _ => .bind (.rdU 5) fun _ => .pure ()

/-! ### What the walk has written so far -/

/-- The walk has written the bits of `out` up to the reader's position; from there on `out` is still the input. Nothing past SRC_LEN
bytes of the destination is touched. -/
structure Copied (s : State) (out : Nat → Bool) (c : SpsCursors) : Prop where
  ready  : CodecReady s
  fits   : s.regs.srcLen.toNat ≤ s.regs.dstCap.toNat
  base   : c.w.base = s.regs.dstBase.toNat
  limit  : c.w.limit = 8 * s.regs.dstCap.toNat
  pos    : c.w.pos = c.rpos
  inside : c.rpos ≤ 8 * s.regs.srcLen.toNat
  wf     : c.w.mem.wf = true
  acc    : PartialByte out c.w
  bits   : ∀ p < c.rpos, bitAt c.w.mem s.regs.dstBase.toNat p = out p
  frame  : ∀ a, a < s.regs.dstBase.toNat ∨ s.regs.dstBase.toNat + s.regs.srcLen.toNat ≤ a → c.w.mem.read a = s.mem.read a
  rest   : ∀ p, c.rpos ≤ p → out p = sourceBit s p

/-- At the start nothing is written. -/
theorem copied_start (hr : CodecReady s) (hf : s.regs.srcLen.toNat ≤ s.regs.dstCap.toNat) : Copied s (sourceBit s) (spsCursors s) where
  ready := hr
  fits := hf
  base := rfl
  limit := rfl
  pos := rfl
  inside := Nat.zero_le _
  wf := hr.2.2.2
  acc := fun j _ => by simp [spsCursors]
  bits := fun p hp => absurd hp (Nat.not_lt_zero p)
  frame := fun _ _ => rfl
  rest := fun _ _ => rfl

/-- The walk has read n bits and writes n bits of `out'`, which is `out` outside them. -/
theorem Copied.write {out out' : Nat → Bool} {c : SpsCursors} (h : Copied s out c) {n : Nat}
    (hn : c.rpos + n ≤ 8 * s.regs.srcLen.toNat) (ho : ∀ p, p < c.rpos ∨ c.rpos + n ≤ p → out' p = out p) :
    ∃ c', wrList (spsInput s) (stream out' c.rpos n) { c with rpos := c.rpos + n } = .ok ((), c') ∧ c'.rpos = c.rpos + n ∧
      Copied s out' c' := by
  obtain ⟨hready, hfits, hbase, hlimit, hpos, -, hwf, hacc, hbits, hframe, hrest⟩ := h
  have ⟨⟨_, hspace, _⟩, _, hadm, _⟩ := hready
  rw [← hpos] at hn ho ⊢
  unfold inSpace at hspace
  obtain ⟨w', hw', hacc', hbits'⟩ := emit_stream_extends (pl := s.platform) (n := n) hwf (hacc.congr fun p hp => ho p (.inl hp))
    (by omega) (fun p _ _ => by rw [hbase]; exact admits_bits hadm p (by omega)) (by unfold addressSpace; omega)
    (fun p hp => by rw [hbase, hbits p (by omega), ho p (.inl hp)])
  obtain ⟨-, -, hb, hl, hp, hwf', hframe'⟩ := emit_frame hw'
  rw [stream_length] at hp hframe'
  refine ⟨⟨c.w.pos + n, w'⟩, cmd_bind_ok.mpr ⟨_, hw', rfl⟩, rfl, ?_⟩
  exact {
    ready := hready, fits := hfits, base := hb.trans hbase, limit := hl.trans hlimit, pos := hp, inside := hn, wf := hwf' hwf
    acc := hacc'
    bits := fun p hp => by rw [← hbase, hbits' p hp]
    frame := fun a ha => by rw [hframe' a (by omega), hframe a ha]
    rest := fun p hp => by rw [ho p (.inr hp), hrest p (by simp at hp; omega)] }

end Sys2Proof.Proofs
end

section
/-! PROOF. Every part of the SPS walk but the overridden fields copies what the grammar reads (45_sps_rewriter.md R236 to R252). -/

namespace Sys2Proof.Proofs

open Sys2Proof.Machine Sys2Proof.Claims

variable {s : State} {α β : Type}

/-- The part of the walk succeeds from `c`, with value `v`, and the walk has then read to position p and written `out`. -/
def Advances (s : State) (out : Nat → Bool) (part : Walk α) (c : SpsCursors) (v : α) (p : Nat) : Prop :=
  ∃ c', part c = .ok (v, c') ∧ c'.rpos = p ∧ c.rpos ≤ p ∧ Copied s out c'

theorem Advances.bind {out out' : Nat → Bool} {x : Walk α} {f : α → Walk β} {c : SpsCursors} {a : α} {b : β} {q p : Nat}
    (hx : Advances s out x c a q) (hf : ∀ c', c'.rpos = q → Copied s out c' → Advances s out' (f a) c' b p) :
    Advances s out' (x >>= f) c b p := by
  obtain ⟨c', hx, rfl, hcq, hc'⟩ := hx
  obtain ⟨c'', hf, hp, hqp, hc''⟩ := hf c' rfl hc'
  exact ⟨c'', walk_bind_ok.mpr ⟨_, _, hx, hf⟩, hp, hcq.trans hqp, hc''⟩

theorem Advances.pure {out : Nat → Bool} {c : SpsCursors} (h : Copied s out c) (a : α) : Advances s out (pure a) c a c.rpos :=
  ⟨c, rfl, rfl, le_rfl, h⟩

/-- A part of the walk copies what the part of the grammar reads. -/
def Copies (s : State) (part : Walk α) (parse : Parse α) : Prop :=
  ∀ out c v p, Copied s out c → parse c.rpos = some (v, p) → Advances s out part c v p

theorem Copies.advances {out : Nat → Bool} {x : Walk α} {y : Parse α} {c : SpsCursors} {v : α} {q p : Nat} (h : Copies s x y)
    (hc : Copied s out c) (hq : c.rpos = q) (hp : y q = some (v, p)) : Advances s out x c v p :=
  h out c v p hc (hq ▸ hp)

theorem Copies.pure (a : α) : Copies s (pure a) (pure a) := fun _ c v p hc hp => by
  cases parse_pure_some.mp hp
  exact .pure hc a

theorem Copies.bind {x : Walk α} {f : α → Walk β} {y : Parse α} {g : α → Parse β} (hx : Copies s x y)
    (hf : ∀ a, Copies s (f a) (g a)) : Copies s (x >>= f) (y >>= g) := fun out c v p hc hp => by
  obtain ⟨a, q, hy, hg⟩ := parse_bind_some.mp hp
  exact (hx.advances hc rfl hy).bind fun c' hq hc' => (hf a).advances hc' hq hg

theorem Copies.onlyIf (b : Bool) {x : Walk Unit} {y : Parse Unit} (h : Copies s x y) : Copies s (onlyIf b x) (pIf b y) := by
  cases b with
  | true => exact h
  | false => exact .pure ()

theorem Copies.times (n : Nat) {x : Walk Unit} {y : Parse Unit} (h : Copies s x y) : Copies s (times n x) (pTimes n y) := by
  induction n with
  | zero => exact .pure ()
  | succ n ih => exact .bind h fun _ => ih

/-! ### Fields -/

/-- A field read, and its own bits written: the three `cp` operations. -/
theorem Copies.field {x : Walk α} {y : Parse α} {bits : α → List Bool} (hx : Reads s x y)
    (hb : ∀ v p q, y p = some (v, q) → bits v = stream (sourceBit s) p (q - p)) :
    Copies s (do let v ← x; wrList (spsInput s) (bits v); Pure.pure v) y := fun out c v p hc hp => by
  obtain ⟨hx, hle, hin⟩ := hx hc.ready.2.1 c v p hc.inside hp
  obtain ⟨c', hw, hpos, hc'⟩ := hc.write (out' := out) (n := p - c.rpos) (by omega) fun _ _ => rfl
  have hbits : bits v = stream out c.rpos (p - c.rpos) := by
    rw [hb v _ p hp]
    exact stream_congr fun q hq _ => (hc.rest q hq).symm
  rw [show c.rpos + (p - c.rpos) = p by omega] at hw hpos
  exact ⟨c', walk_bind_ok.mpr ⟨_, _, hx, walk_bind_ok.mpr ⟨_, _, by rw [hbits]; exact hw, rfl⟩⟩, hpos, hle, hc'⟩

theorem Copies.cpU (n : Nat) : Copies s (cpU (spsInput s) n) (pU (spsBits s) n) :=
  .field (.rdU n) fun v p q h => by
    obtain ⟨-, rfl, rfl⟩ := pU_some.mp h
    rw [bitsMsb_bitsAt, Nat.add_sub_cancel_left]
    rfl

theorem Copies.cpUe : Copies s (cpUe (spsInput s)) (pUe (spsBits s)) :=
  .field .rdUe fun v p q h => by
    obtain ⟨k, hk, rfl, rfl⟩ := pUe_some h
    rw [ueBits_codeNumber hk, show p + 2 * k + 1 - p = 2 * k + 1 by omega]
    rfl

theorem Copies.cpSe : Copies s (cpSe (spsInput s)) (pSe (spsBits s)) :=
  .field .rdSe fun v p q h => by
    obtain ⟨c, q', hc, hv⟩ := parse_bind_some.mp h
    cases parse_pure_some.mp hv
    obtain ⟨k, hk, rfl, rfl⟩ := pUe_some hc
    rw [signedOf_eq_seValue, seCode_seValue, ueBits_codeNumber hk, show p + 2 * k + 1 - p = 2 * k + 1 by omega]
    rfl

theorem Copies.keepU (n : Nat) : Copies s (keepU (spsInput s) n) (pSkip (spsBits s) [n]) :=
  .bind (.cpU n) fun _ => .pure ()

/-- One field ue, as the grammar writes it. -/
theorem pSkipUe_one (x : BitInput) : pSkipUe x 1 = (do let _ ← pUe x; pure ()) := by simp [pSkipUe, pTimes]

theorem pSkipUe_two (x : BitInput) : pSkipUe x 2 = (do pSkipUe x 1; pSkipUe x 1) := by simp [pSkipUe, pTimes]

/-- A row of fields u(n) is its fields one by one. -/
theorem pSkip_cons_cons (x : BitInput) (m n : Nat) (ns : List Nat) :
    pSkip x (m :: n :: ns) = (do pSkip x [m]; pSkip x (n :: ns)) := by simp [pSkip]

theorem Copies.keepUe : Copies s (keepUe (spsInput s)) (pSkipUe (spsBits s) 1) := by
  rw [pSkipUe_one]
  exact .bind .cpUe fun _ => .pure ()

/-- The grammar skips a signed field as it skips an unsigned one. -/
theorem Copies.keepSe : Copies s (keepSe (spsInput s)) (pSkipUe (spsBits s) 1) := by
  have hse : pSkipUe (spsBits s) 1 = (do let _ ← pSe (spsBits s); Pure.pure ()) := by simp [pSkipUe_one, pSe]
  rw [hse]
  exact .bind .cpSe fun _ => .pure ()

theorem Copies.timesUe (n : Nat) {x : Walk Unit} (h : Copies s x (pSkipUe (spsBits s) 1)) :
    Copies s (Machine.times n x) (pSkipUe (spsBits s) n) :=
  .times n (pSkipUe_one (spsBits s) ▸ h)

/-! ### The High-profile block and picture order count -/

theorem Copies.scalingEntries (n : Nat) (last next : Int) :
    Copies s (scalingEntries (spsInput s) n last next) (pScaling (spsBits s) n last next) := by
  induction n generalizing last next with
  | zero => exact .pure ()
  | succ n ih =>
    rw [Machine.scalingEntries, pScaling]
    by_cases h : next = 0
    · subst h
      exact ih last 0
    · simp only [h, ne_eq, not_false_eq_true, if_true, if_false, ite_not]
      exact .bind .cpSe fun d => ih _ _

theorem Copies.scalingLists (n i : Nat) : Copies s (scalingLists (spsInput s) n i) (pScalingLists (spsBits s) n i) := by
  induction n generalizing i with
  | zero => exact .pure ()
  | succ n ih => exact .bind (.cpU 1) fun _ => .bind (.onlyIf _ (.scalingEntries _ 8 8)) fun _ => ih (i + 1)

theorem Copies.high : Copies s (walkHigh (spsInput s)) (pHigh (spsBits s)) := by
  simp only [walkHigh, pHigh, pSkipUe_two, bind_assoc]
  exact .bind .cpUe fun cfi => .bind (.onlyIf _ (.keepU 1)) fun _ => .bind .keepUe fun _ => .bind .keepUe fun _ =>
    .bind (.keepU 1) fun _ => .bind (.cpU 1) fun _ => .onlyIf _ (.scalingLists _ 0)

theorem Copies.poc : Copies s (walkPoc (spsInput s)) (pPoc (spsBits s)) := by
  simp only [walkPoc, walkPocCycle, pPoc, pSkipUe_two, bind_assoc]
  exact .bind .cpUe fun _ => .bind (.onlyIf _ .keepUe) fun _ => .onlyIf _ <| .bind (.keepU 1) fun _ => .bind .keepSe fun _ =>
    .bind .keepSe fun _ => .bind .cpUe fun m => .timesUe m .keepSe

/-! ### Blocks of bits -/

/-- The chunks of a copy of `len` bits, with fuel for them all. -/
theorem advances_copyChunks {out : Nat → Bool} {c : SpsCursors} {fuel len : Nat} (hc : Copied s out c) (hf : len ≤ 24 * fuel)
    (hl : c.rpos + len ≤ 8 * s.regs.srcLen.toNat) : Advances s out (copyChunks (spsInput s) fuel len) c () (c.rpos + len) := by
  induction fuel generalizing c len with
  | zero =>
    obtain rfl : len = 0 := by omega
    exact .pure hc ()
  | succ fuel ih =>
    rw [copyChunks]
    split
    · subst len
      exact .pure hc ()
    · have hp : pSkip (spsBits s) [min 24 len] c.rpos = some ((), c.rpos + min 24 len) :=
        parse_bind_some.mpr ⟨_, _, pU_some.mpr ⟨show _ ≤ 8 * s.regs.srcLen.toNat by omega, rfl, rfl⟩, rfl⟩
      refine ((Copies.keepU _).advances hc rfl hp).bind fun c' hpos hc' => ?_
      have := ih hc' (len := len - min 24 len) (by omega) (by omega)
      rwa [show c'.rpos + (len - min 24 len) = c.rpos + len by omega] at this

theorem advances_copyBits {out : Nat → Bool} {c : SpsCursors} {len : Nat} (hc : Copied s out c)
    (hl : c.rpos + len ≤ 8 * s.regs.srcLen.toNat) : Advances s out (copyBits (spsInput s) len) c () (c.rpos + len) :=
  advances_copyChunks hc (by omega) hl

/-- The HRD block is copied bit by bit, as long as the look-ahead finds it. -/
theorem Copies.hrd : Copies s (walkHrd (spsInput s)) (pHrd (spsBits s)) := fun out c v p hc hp => by
  obtain ⟨hla, hle, hin⟩ := Reads.hrdParse hc.ready.2.1 c v p hc.inside hp
  have := advances_copyBits hc (len := p - c.rpos) (by omega)
  rw [show c.rpos + (p - c.rpos) = p by omega] at this
  obtain ⟨c', hcopy, hc'⟩ := this
  exact ⟨c', cmd_bind_ok.mpr ⟨_, hla, hcopy⟩, hc'⟩

/-- The trailing copy reaches the end of the input. -/
theorem advances_tail {out : Nat → Bool} {c : SpsCursors} (hc : Copied s out c) :
    Advances s out (walkTail (spsInput s)) c () (8 * s.regs.srcLen.toNat) := by
  have := advances_copyBits hc (len := 8 * s.regs.srcLen.toNat - c.rpos) (by have := hc.inside; omega)
  rwa [show c.rpos + (8 * s.regs.srcLen.toNat - c.rpos) = 8 * s.regs.srcLen.toNat by have := hc.inside; omega] at this

/-! ### VUI parameters around the timing fields -/

theorem Copies.vuiDisplay : Copies s (walkVuiDisplay (spsInput s)) (pVuiDisplay (spsBits s)) := by
  have haspect : Copies s (walkAspect (spsInput s))
      (do let idc ← pU (spsBits s) 8; pIf (idc == 255) (pSkip (spsBits s) [16, 16])) := by
    simp only [walkAspect, pSkip_cons_cons]
    exact .bind (.cpU 8) fun _ => .onlyIf _ <| .bind (.keepU 16) fun _ => .keepU 16
  have hsignal : Copies s (walkSignal (spsInput s)) (do
      pSkip (spsBits s) [3, 1]
      let colour ← pU (spsBits s) 1
      pIf (colour == 1) (pSkip (spsBits s) [8, 8, 8])) := by
    simp only [walkSignal, pSkip_cons_cons, bind_assoc]
    exact .bind (.keepU 3) fun _ => .bind (.keepU 1) fun _ => .bind (.cpU 1) fun _ => .onlyIf _ <| .bind (.keepU 8) fun _ =>
      .bind (.keepU 8) fun _ => .keepU 8
  have hchroma : Copies s (do Machine.keepUe (spsInput s); Machine.keepUe (spsInput s)) (pSkipUe (spsBits s) 2) := by
    rw [pSkipUe_two]
    exact .bind .keepUe fun _ => .keepUe
  exact .bind (.cpU 1) fun _ => .bind (.onlyIf _ haspect) fun _ => .bind (.cpU 1) fun _ => .bind (.onlyIf _ (.keepU 1)) fun _ =>
    .bind (.cpU 1) fun _ => .bind (.onlyIf _ hsignal) fun _ => .bind (.cpU 1) fun _ => .onlyIf _ hchroma

/-- Rows V13 to V20 of `vui_parameters()`, after the timing fields, as the walk has them. -/
def walkVuiRest (x : SpsInput) : Walk Unit := do
  walkVuiHrd x
  keepU x 1
  let restriction ← cpU x 1
  onlyIf (restriction == 1) (walkRestriction x)

theorem walkVui_eq (x : SpsInput) : walkVui x = (do
    let timing ← (do walkVuiDisplay x; cpU x 1)
    onlyIf (timing == 1) (walkTiming x)
    walkVuiRest x) := by
  simp only [walkVui, walkVuiRest, bind_assoc]

/-- Rows V13 to V20 of `vui_parameters()` as the grammar has them. -/
def pVuiRest (x : BitInput) : Parse Unit := do
  let nh ← pU x 1
  pIf (nh == 1) (pHrd x)
  let vh ← pU x 1
  pIf (vh == 1) (pHrd x)
  pIf (nh == 1 || vh == 1) (pSkip x [1])
  pSkip x [1]
  let restriction ← pU x 1
  pIf (restriction == 1) (do pSkip x [1]; pSkipUe x 6)

theorem pVui_eq (x : BitInput) : pVui x = (do
    let timing ← (do pVuiDisplay x; pU x 1)
    let here ← get
    pIf (timing == 1) (pSkip x [32, 32, 1])
    pVuiRest x
    pure (if timing = 1 then some here else none)) := by
  simp only [pVui, pVuiRest, bind_assoc]

theorem Copies.vuiRest : Copies s (walkVuiRest (spsInput s)) (pVuiRest (spsBits s)) := by
  simp only [walkVuiRest, walkVuiHrd, bind_assoc]
  exact .bind (.cpU 1) fun _ => .bind (.onlyIf _ .hrd) fun _ => .bind (.cpU 1) fun _ => .bind (.onlyIf _ .hrd) fun _ =>
    .bind (.onlyIf _ (.keepU 1)) fun _ => .bind (.keepU 1) fun _ => .bind (.cpU 1) fun _ =>
    .onlyIf _ <| .bind (.keepU 1) fun _ => .timesUe 6 .keepUe

/-! ### The sequence parameter set between `level_idc` and the VUI parameters -/

/-- Rows 4 to 16 of `seq_parameter_set_data()`, after `level_idc`, as the walk has them: the value is the VUI flag. -/
def walkMiddle (x : SpsInput) (profile : Nat) : Walk Nat := do
  keepUe x
  onlyIf (highProfile x.platform.params profile) (walkHigh x)
  keepUe x
  walkPoc x
  walkFrame x
  cpU x 1

/-- Rows 1 to 3 of `seq_parameter_set_data()`: the value is the profile. -/
def walkStart (x : SpsInput) : Walk Nat := do
  let profile ← walkProfile x
  keepU x 8
  walkLevel x
  pure profile

theorem walkSps_eq (x : SpsInput) : walkSps x = (do
    let profile ← walkStart x
    let vui ← walkMiddle x profile
    onlyIf (vui == 1) (walkVui x)) := by
  simp only [walkSps, walkStart, walkMiddle, bind_assoc, pure_bind]

/-- Rows 4 to 16 of `seq_parameter_set_data()` as the grammar has them. -/
def pMiddle (x : BitInput) (profile : Nat) : Parse Nat := do
  pSkipUe x 1
  pIf (x.highProfile profile) (pHigh x)
  pSkipUe x 1
  pPoc x
  pSkipUe x 1
  pSkip x [1]
  pSkipUe x 2
  let mbsOnly ← pU x 1
  pIf (mbsOnly == 0) (pSkip x [1])
  pSkip x [1]
  let cropping ← pU x 1
  pIf (cropping == 1) (pSkipUe x 4)
  pU x 1

theorem pSps_eq (x : BitInput) : pSps x = (do
    let profile ← (do let profile ← pU x 8; pSkip x [8]; pSkip x [8]; pure profile)
    let vui ← pMiddle x profile
    if vui = 1 then pVui x else pure none) := by
  simp only [pSps, pMiddle, pSkip_cons_cons, bind_assoc, pure_bind]

theorem Copies.middle (profile : Nat) : Copies s (walkMiddle (spsInput s) profile) (pMiddle (spsBits s) profile) := by
  simp only [walkMiddle, walkFrame, pMiddle, pSkipUe_two, bind_assoc]
  exact .bind .keepUe fun _ => .bind (.onlyIf _ .high) fun _ => .bind .keepUe fun _ => .bind .poc fun _ => .bind .keepUe fun _ =>
    .bind (.keepU 1) fun _ => .bind .keepUe fun _ => .bind .keepUe fun _ => .bind (.cpU 1) fun _ =>
    .bind (.onlyIf _ (.keepU 1)) fun _ => .bind (.keepU 1) fun _ => .bind (.cpU 1) fun _ =>
    .bind (.onlyIf _ (.timesUe 4 .keepUe)) fun _ => .cpU 1

end Sys2Proof.Proofs
end

section
/-! PROOF. SPS_REWRITE as a whole: the overridden fields, the walk to the end of the input, and the end of the command. -/

namespace Sys2Proof.Proofs

open Sys2Proof.Machine Sys2Proof.Claims

variable {s : State}

/-! ### Overridden fields -/

/-- `out` with the n bits from q on replaced by the n low bits of v, when the override is set. -/
def override (set : Bool) (q n v : Nat) (out : Nat → Bool) (p : Nat) : Bool :=
  if set = true ∧ q ≤ p ∧ p < q + n then v.testBit (q + n - 1 - p) else out p

theorem override_outside {set : Bool} {q n v : Nat} {out : Nat → Bool} {p : Nat} (h : p < q ∨ q + n ≤ p) :
    override set q n v out p = out p :=
  if_neg fun ⟨_, h1, h2⟩ => by omega

theorem override_inside {set : Bool} {q n v : Nat} {out : Nat → Bool} {p : Nat} (h1 : q ≤ p) (h2 : p < q + n) :
    override set q n v out p = if set = true then v.testBit (q + n - 1 - p) else out p := by
  simp [override, h1, h2]

/-- A field read, and the override or its own value written (45_sps_rewriter.md R240, R243). -/
theorem advances_override {out : Nat → Bool} {c : SpsCursors} {n u q p : Nat} (hc : Copied s out c) (hq : c.rpos = q)
    (hp : pU (spsBits s) n q = some (u, p)) (set : Bool) (v : Nat) :
    Advances s (override set q n v out)
      (do let u ← rdU (spsInput s) n; wrU (spsInput s) n (if set then v else u)) c () p := by
  subst hq
  obtain ⟨hr, hle, hin⟩ := Reads.rdU n hc.ready.2.1 c u p hc.inside hp
  obtain ⟨-, rfl, rfl⟩ := pU_some.mp hp
  obtain ⟨c', hw, hpos, hc'⟩ := hc.write (out' := override set c.rpos n v out) hin fun q hq => override_outside hq
  refine ⟨c', walk_bind_ok.mpr ⟨_, _, hr, ?_⟩, hpos, hle, hc'⟩
  rw [← hw, wrU]
  congr 1
  cases set with
  | true =>
    rw [if_pos rfl, bitsMsb_eq_stream n v c.rpos]
    exact stream_congr fun q h1 h2 => (if_pos ⟨rfl, h1, h2⟩).symm
  | false =>
    rw [if_neg (by simp), bitsMsb_bitsAt]
    exact stream_congr fun q h1 _ => by rw [override, if_neg (by simp), hc.rest q h1]; rfl

/-- The override of `level_idc` (45_sps_rewriter.md R240). -/
def levelOut (s : State) (out : Nat → Bool) : Nat → Bool := override s.regs.spsOvr.levelSet 16 8 s.regs.spsOvr.level.toNat out

/-- The overrides of the timing fields that stand at bit q (45_sps_rewriter.md R243). -/
def timingOut (s : State) (q : Nat) (out : Nat → Bool) : Nat → Bool :=
  override s.regs.spsOvr.ffrSet (q + 64) 1 s.regs.spsOvr.ffrValue.toNat <|
  override s.regs.spsOvr.fpsSet (q + 32) 32 (2 * s.regs.spsFpsNum.toNat) <|
  override s.regs.spsOvr.fpsSet q 32 s.regs.spsFpsDen.toNat out

/-- The three timing fields, each with its override. -/
theorem walkTiming_eq (x : SpsInput) : walkTiming x = (do
    (do let nu ← rdU x 32; wrU x 32 (if x.ovr.fpsSet then x.fpsDen.toNat else nu))
    (do let ts ← rdU x 32; wrU x 32 (if x.ovr.fpsSet then 2 * x.fpsNum.toNat else ts))
    (do let ff ← rdU x 1; wrU x 1 (if x.ovr.ffrSet then x.ovr.ffrValue.toNat else ff))) := by
  simp only [walkTiming, bind_assoc]

/-- The timing fields are read and written with their overrides. -/
theorem advances_timing {out : Nat → Bool} {c : SpsCursors} {q p : Nat} (hc : Copied s out c) (hq : c.rpos = q)
    (hp : pSkip (spsBits s) [32, 32, 1] q = some ((), p)) :
    Advances s (timingOut s q out) (walkTiming (spsInput s)) c () p := by
  obtain ⟨_, _, h1, hp⟩ := parse_bind_some.mp hp
  obtain ⟨_, _, h2, hp⟩ := parse_bind_some.mp hp
  obtain ⟨_, _, h3, hp⟩ := parse_bind_some.mp hp
  cases parse_pure_some.mp hp
  obtain ⟨-, -, rfl⟩ := pU_some.mp h1
  obtain ⟨-, -, rfl⟩ := pU_some.mp h2
  rw [walkTiming_eq]
  exact (advances_override hc hq h1 _ _).bind fun _ hq hc => (advances_override hc hq h2 _ _).bind fun _ hq hc =>
    advances_override hc hq h3 _ _

/-- The overrides of the timing fields, where the input has them. -/
def vuiOut (s : State) (timing : Option Nat) (out : Nat → Bool) : Nat → Bool :=
  match timing with
  | none => out
  | some q => timingOut s q out

/-- The VUI parameters are copied but for the timing fields, where there are any. -/
theorem advances_vui {out : Nat → Bool} {c : SpsCursors} {timing : Option Nat} {q p : Nat} (hc : Copied s out c) (hq : c.rpos = q)
    (hp : pVui (spsBits s) q = some (timing, p)) :
    Advances s (vuiOut s timing out) (walkVui (spsInput s)) c () p ∧ ∀ here, timing = some here → q ≤ here := by
  subst hq
  rw [pVui_eq] at hp
  obtain ⟨flag, here, h1, hp⟩ := parse_bind_some.mp hp
  obtain ⟨_, _, h2, hp⟩ := parse_bind_some.mp hp
  cases parse_get_some.mp h2
  obtain ⟨_, _, h3, hp⟩ := parse_bind_some.mp hp
  obtain ⟨_, _, h4, hp⟩ := parse_bind_some.mp hp
  cases parse_pure_some.mp hp
  have hhead := (Copies.bind .vuiDisplay fun _ => .cpU 1).advances hc rfl h1
  rw [walkVui_eq]
  refine ⟨hhead.bind fun c1 hq hc1 => ?_, fun q hq => ?_⟩
  · by_cases hflag : flag = 1
    · subst hflag
      exact (advances_timing hc1 hq h3).bind fun c2 hq hc2 => Copies.vuiRest.advances hc2 hq h4
    · rw [if_neg hflag]
      rw [beq_false_of_ne hflag] at h3 ⊢
      exact ((Copies.pure ()).advances hc1 hq h3).bind fun c2 hq hc2 => Copies.vuiRest.advances hc2 hq h4
  · obtain ⟨_, -, -, hle, -⟩ := hhead
    obtain ⟨-, rfl⟩ : flag = 1 ∧ here = q := by simpa using hq
    exact hle

/-! ### The walk -/

/-- The first row of the walk: the profile is allowed and copied (45_sps_rewriter.md R241). -/
theorem advances_profile {out : Nat → Bool} {c : SpsCursors} {v p : Nat} (hc : Copied s out c) (hq : c.rpos = 0)
    (hp : pU (spsBits s) 8 0 = some (v, p)) (hallow : profileAllowed s = true) :
    Advances s out (walkProfile (spsInput s)) c v p := by
  obtain ⟨hr, -, -⟩ := Reads.rdU 8 hc.ready.2.1 c v p hc.inside (hq ▸ hp)
  obtain ⟨c', hcp, hc'⟩ := (Copies.cpU 8).advances hc hq hp
  obtain ⟨-, rfl, rfl⟩ := pU_some.mp hp
  obtain ⟨_, _, hr', hw⟩ := walk_bind_ok.mp hcp
  cases hr.symm.trans hr'
  refine ⟨c', walk_bind_ok.mpr ⟨_, _, hr, ?_⟩, hc'⟩
  rw [if_pos]
  · exact hw
  · rw [spsBits, bitsAt_first_byte]
    exact hallow

/-- Rows 1 to 3: the profile is allowed, and `level_idc` overridden (45_sps_rewriter.md R240, R241). -/
theorem advances_start {c : SpsCursors} {profile p : Nat} (hc : Copied s (sourceBit s) c) (hq : c.rpos = 0)
    (hp : (do let profile ← pU (spsBits s) 8; pSkip (spsBits s) [8]; pSkip (spsBits s) [8]; pure profile : Parse Nat) 0 =
      some (profile, p)) (hallow : profileAllowed s = true) :
    Advances s (levelOut s (sourceBit s)) (walkStart (spsInput s)) c profile p ∧ p = 24 := by
  obtain ⟨_, _, h1, hp⟩ := parse_bind_some.mp hp
  obtain ⟨_, _, h2, hp⟩ := parse_bind_some.mp hp
  obtain ⟨_, _, h3, hp⟩ := parse_bind_some.mp hp
  cases parse_pure_some.mp hp
  obtain ⟨_, _, hu2, hp⟩ := parse_bind_some.mp h2
  cases parse_pure_some.mp hp
  obtain ⟨_, _, hu3, hp⟩ := parse_bind_some.mp h3
  cases parse_pure_some.mp hp
  obtain ⟨-, -, rfl⟩ := pU_some.mp h1
  obtain ⟨-, -, rfl⟩ := pU_some.mp hu2
  obtain ⟨-, -, rfl⟩ := pU_some.mp hu3
  refine ⟨(advances_profile hc hq h1 hallow).bind fun _ hq hc => ((Copies.keepU 8).advances hc hq h2).bind fun _ hq hc =>
    (advances_override hc hq hu3 _ _).bind fun _ hq hc => ?_, rfl⟩
  exact (Copies.pure profile).advances hc hq (parse_pure_some.mpr rfl)

/-- The VUI parameters, where the flag says there are any. -/
theorem advances_vuiIf {out : Nat → Bool} {c : SpsCursors} {timing : Option Nat} {vui q p : Nat} (hc : Copied s out c)
    (hq : c.rpos = q) (hp : (if vui = 1 then pVui (spsBits s) else pure none : Parse (Option Nat)) q = some (timing, p)) :
    Advances s (vuiOut s timing out) (onlyIf (vui == 1) (walkVui (spsInput s))) c () p ∧ ∀ here, timing = some here → q ≤ here := by
  by_cases hvui : vui = 1
  · subst hvui
    exact advances_vui hc hq hp
  · rw [if_neg hvui] at hp
    cases parse_pure_some.mp hp
    rw [beq_false_of_ne hvui]
    exact ⟨(Copies.pure ()).advances hc hq (parse_pure_some.mpr rfl), fun _ h => nomatch h⟩

/-- What the walk writes: the input but for the overrides. -/
def spsOut (s : State) (timing : Option Nat) : Nat → Bool := vuiOut s timing (levelOut s (sourceBit s))

/-- The walk reads the whole grammar and writes the input but for the overrides; the timing fields stand after `level_idc`. -/
theorem advances_sps {c : SpsCursors} {timing : Option Nat} {p : Nat} (hc : Copied s (sourceBit s) c) (hq : c.rpos = 0)
    (hp : pSps (spsBits s) 0 = some (timing, p)) (hallow : profileAllowed s = true) :
    Advances s (spsOut s timing) (walkSps (spsInput s)) c () p ∧ ∀ here, timing = some here → 24 ≤ here := by
  rw [pSps_eq] at hp
  obtain ⟨profile, _, h1, hp⟩ := parse_bind_some.mp hp
  obtain ⟨vui, q, h2, hvui⟩ := parse_bind_some.mp hp
  obtain ⟨hstart, rfl⟩ := advances_start hc hq h1 hallow
  rw [walkSps_eq]
  refine ⟨hstart.bind fun _ hq hc => ((Copies.middle profile).advances hc hq h2).bind fun _ hq hc => (advances_vuiIf hc hq hvui).1,
    fun here h => ?_⟩
  obtain ⟨c1, -, hq1, -, hc1⟩ := hstart
  obtain ⟨c2, -, hq2, hle, hc2⟩ := (Copies.middle profile).advances hc1 hq1 h2
  have := (advances_vuiIf hc2 hq2 hvui).2 here h
  omega

/-- Without timing fields only `level_idc` is overridden. -/
theorem levelOut_toNat (p : Nat) : (levelOut s (sourceBit s) p).toNat = rewrittenBit s none p := by
  rw [levelOut, override, apply_ite Bool.toNat, sourceBit, ← specBit_eq_bitAt]
  rfl

/-- What the walk writes, bit by bit, is what the claim says: the overridden fields do not overlap. -/
theorem spsOut_eq_rewrittenBit {timing : Option Nat} (ht : ∀ here, timing = some here → 24 ≤ here) (p : Nat) :
    (spsOut s timing p).toNat = rewrittenBit s timing p := by
  have hlevel := levelOut_toNat (s := s) p
  cases timing with
  | none => exact hlevel
  | some q =>
    have hq := ht q rfl
    simp only [spsOut, vuiOut, timingOut, rewrittenBit] at hlevel ⊢
    by_cases h1 : p < q
    · rw [override_outside (by omega), override_outside (by omega), override_outside (by omega), hlevel]
      simp [show ¬ q ≤ p by omega, show ¬ q + 32 ≤ p by omega, show p ≠ q + 64 by omega]
    simp only [show ¬ p < 24 by omega, show q ≤ p by omega, and_false, if_false, true_and] at hlevel ⊢
    by_cases h2 : p < q + 32
    · rw [override_outside (by omega), override_outside (by omega), override_inside (by omega) h2, apply_ite Bool.toNat, hlevel]
      simp [h2, show ¬ q + 32 ≤ p by omega, show p ≠ q + 64 by omega, BitVec.getLsbD]
    by_cases h3 : p < q + 64
    · rw [override_outside (by omega), override_inside (by omega) (by omega), override_outside (by omega), apply_ite Bool.toNat, hlevel]
      simp [h2, h3, show q + 32 ≤ p by omega, show p ≠ q + 64 by omega]
    by_cases h4 : p = q + 64
    · rw [override_inside (by omega) (by omega), override_outside (by omega), override_outside (by omega), apply_ite Bool.toNat, hlevel]
      cases s.regs.spsOvr.ffrValue <;> simp [h4]
    · rw [override_outside (by omega), override_outside (by omega), override_outside (by omega), hlevel]
      simp [h2, h3, h4]

/-! ### The command -/

theorem exec_spsRewrite (s : State) : exec .spsRewrite s = execSpsRewrite s := rfl

/-- The common checks pass on usable buffers (40_command_protocol.md R134). -/
theorem rangesOk_spsRewrite {r : Regs} (h : UsableBuffers r) : rangesOk r .spsRewrite = true := by
  obtain ⟨hsrc, hdst, hdisjoint⟩ := h
  have hs : r.srcBase.toNat + r.srcLen.toNat ≤ addressSpace := hsrc
  have hd : r.dstBase.toNat + r.dstCap.toNat ≤ addressSpace := hdst
  simp [rangesOk, readRange, writeRange, rangeOk, Range.wellFormed, disjointRanges, Range.overlaps, sourceRange, destRange, hs, hd]
  omega

/-- The body of the command writes SRC_LEN bytes: the input but for the overrides, and no other byte. -/
theorem spsBody_ok {timing : Option Nat} {p : Nat} (hr : CodecReady s) (hf : s.regs.srcLen.toNat ≤ s.regs.dstCap.toNat)
    (hp : pSps (spsBits s) 0 = some (timing, p)) (hallow : profileAllowed s = true) :
    ∃ m, spsBody s = .ok ⟨{ s.regs with res0 := BitVec.ofNat 32 s.regs.srcLen.toNat }, m, .ok⟩ ∧
      (∀ p < 8 * s.regs.srcLen.toNat, specBit m s.regs.dstBase.toNat p = rewrittenBit s timing p) ∧
      ∀ a, a < s.regs.dstBase.toNat ∨ s.regs.dstBase.toNat + s.regs.srcLen.toNat ≤ a → m.read a = s.mem.read a := by
  obtain ⟨hsps, ht⟩ := advances_sps (copied_start hr hf) rfl hp hallow
  obtain ⟨c, hrun, hq, -, hc⟩ := hsps.bind (f := fun _ => walkTail (spsInput s)) fun _ _ hc => advances_tail hc
  have hflush : flush s.platform c.w = .ok { c.w with acc := 0 } := by
    rw [flush, if_pos (by rw [hc.pos, hc.limit]; omega), if_pos (by rw [hc.pos]; omega)]
  refine ⟨c.w.mem, ?_, fun p hp => ?_, hc.frame⟩
  · refine cmd_bind_ok.mpr ⟨_, hrun, cmd_bind_ok.mpr ⟨_, hflush, ?_⟩⟩
    rw [hc.pos, hq, Nat.mul_div_cancel_left _ (by omega)]
  · rw [specBit_eq_bitAt, hc.bits p (hq ▸ hp), spsOut_eq_rewrittenBit ht]

/-- SPS_REWRITE on an input the grammar reads. -/
theorem exec_spsRewrite_ok {timing : Option Nat} {p : Nat} (hr : CodecReady s) (hfps : FpsFits s)
    (hf : s.regs.srcLen.toNat ≤ s.regs.dstCap.toNat) (hp : pSps (spsBits s) 0 = some (timing, p)) (hallow : profileAllowed s = true) :
    ∃ t, exec .spsRewrite s = .next t ∧
      t = okState s { s.regs with res0 := BitVec.ofNat 32 s.regs.srcLen.toNat } t.mem ∧
      (∀ p < 8 * s.regs.srcLen.toNat, specBit t.mem s.regs.dstBase.toNat p = rewrittenBit s timing p) ∧
      ∀ a, a < s.regs.dstBase.toNat ∨ s.regs.dstBase.toNat + s.regs.srcLen.toNat ≤ a → t.mem.read a = s.mem.read a := by
  obtain ⟨m, hbody, hbits, hframe⟩ := spsBody_ok hr hf hp hallow
  have hsupported : fpsUnsupported s.regs = false := by
    simpa [fpsUnsupported, FpsFits] using hfps
  rw [exec_spsRewrite, execSpsRewrite, guarded_pass rfl (rangesOk_spsRewrite hr.1), hsupported, hbody]
  exact ⟨_, rfl, rfl, hbits, hframe⟩

/-! ### The parameters of R7 -/

/-- `SL_SIZE` at its value of R7. -/
theorem slSize_spec (i : Nat) : slSize Params.spec i = if i < 6 then 16 else 64 := by
  rcases Nat.lt_or_ge i 6 with hi | hi
  · rw [if_pos hi]
    decide +revert
  · have hlookup : Params.spec.slSize.listed.lookup i = none := by
      rw [List.lookup_eq_none_iff]
      simp [Params.spec]
      omega
    rw [if_neg (by omega), slSize, NatTable.get, hlookup]
    rfl

/-- The grammar's parameters at their values of R7. -/
theorem spsBits_spec (hs : s.platform.params = Params.spec) :
    (∀ p < 256, (spsBits s).highProfile p = decide (p ≥ 100)) ∧ (∀ cfi, (spsBits s).slCount cfi = 8) ∧
    ∀ i, (spsBits s).slSize i = if i < 6 then 16 else 64 := by
  refine ⟨fun p hp => ?_, fun cfi => ?_, fun i => ?_⟩
  · simp [spsBits, hs, highProfile, Params.spec]
    omega
  · simp [spsBits, hs, slCount, Params.spec, NatTable.get]
  · simp only [spsBits, hs]
    exact slSize_spec i

/-- Settles O49, by induction along the grammar: each part of the walk copies what the grammar reads, and only the overridden fields are
written anew. -/
theorem spsRewriteChangesOnlyOverriddenFields : Obligations.SpsRewriteChangesOnlyOverriddenFields :=
  ⟨fun _ hs => spsBits_spec hs, fun _ _ _ hr hfps hf hp hallow => exec_spsRewrite_ok hr hfps hf hp hallow⟩

end Sys2Proof.Proofs
end

section
/-! PROOF. How a piece of a command may end: the codes it may raise, and what holds when it succeeds. -/

namespace Sys2Proof.Proofs

open Sys2Proof.Machine

/-- The piece raises only codes of `E`, or gets stuck, or succeeds with a value of `P`. -/
def Ends {α : Type} (E : Code → Prop) (P : α → Prop) : Cmd α → Prop
  | .ok a => P a
  | .error (.raise c) => E c
  | .error .stuck => True

variable {α β : Type} {E : Code → Prop} {P : α → Prop} {Q : β → Prop}

theorem Ends.bind {x : Cmd α} {f : α → Cmd β} (hx : Ends E P x) (hf : ∀ a, P a → Ends E Q (f a)) : Ends E Q (x >>= f) := by
  match x with
  | .ok a => exact hf a hx
  | .error (.raise _) => exact hx
  | .error .stuck => trivial

/-- The second part may use what is known of the first one's success. -/
theorem Ends.bind_ok {x : Cmd α} {f : α → Cmd β} (hx : Ends E P x) (hf : ∀ a, x = .ok a → Ends E Q (f a)) :
    Ends E Q (x >>= f) := by
  match x with
  | .ok a => exact hf a rfl
  | .error (.raise _) => exact hx
  | .error .stuck => trivial

/-! ### Checks and accesses -/

theorem ends_require {b : Bool} {c : Code} (hc : E c) : Ends E (fun _ => True) (require b c) := by
  cases b with
  | true => trivial
  | false => exact hc

theorem ends_fetchByte (p : Platform) (m : Memory) (a : Nat) : Ends E (fun _ => True) (fetchByte p m a) := by
  unfold fetchByte
  split <;> trivial

theorem ends_readBits (p : Platform) (m : Memory) (base pos n : Nat) : Ends E (fun _ => True) (readBits p m base pos n) := by
  unfold readBits
  split <;> trivial

theorem ends_readBit (p : Platform) (m : Memory) (base pos : Nat) : Ends E (fun _ => True) (readBit p m base pos) := by
  unfold readBit
  split <;> trivial

theorem ends_storeByte {I : Memory → Prop} {p : Platform} {m : Memory} {a : Nat} {v : Byte} (h : I (m.write a v)) :
    Ends E I (storeByte p m a v) := by
  unfold storeByte
  split
  · exact h
  · trivial

/-! ### Reads at a cursor: no code but OUT_OF_RANGE -/

section Reads

variable (hrange : E .outOfRange) (pl : Platform) (m : Memory) (base limit pos : Nat)
include hrange

theorem ends_readFixed (n : Nat) : Ends E (fun _ => True) (readFixed pl m base limit pos n) :=
  (ends_require hrange).bind fun _ _ => (ends_require hrange).bind fun _ _ => ends_readBits ..

theorem ends_zeroRun (fuel k : Nat) : Ends E (fun _ => True) (zeroRun pl m base limit pos fuel k) := by
  induction fuel generalizing k with
  | zero => trivial
  | succ fuel ih =>
    refine (ends_require hrange).bind fun _ _ => (ends_readBit ..).bind fun b _ => ?_
    cases b with
    | true => trivial
    | false => exact ih (k + 1)

theorem ends_readUe : Ends E (fun _ => True) (readUe pl m base limit pos) :=
  (ends_require hrange).bind fun _ _ => (ends_zeroRun hrange pl m base limit pos 32 0).bind fun _ _ =>
    (ends_require hrange).bind fun _ _ => (ends_require hrange).bind fun _ _ => (ends_readBits ..).bind fun _ _ => trivial

end Reads

/-! ### The emit and the flush: no code but OUT_OF_RANGE -/

theorem ends_emitLoop (pl : Platform) (bits : List Bool) (w : WCursor) : Ends E (fun _ => True) (emitLoop pl bits w) := by
  induction bits generalizing w with
  | nil =>
    unfold emitLoop
    split
    · trivial
    · exact (ends_storeByte (I := fun _ => True) trivial).bind fun _ _ => trivial
  | cons b bs ih =>
    unfold emitLoop
    split
    · exact (ends_storeByte (I := fun _ => True) trivial).bind fun _ _ => ih _
    · exact ih _

theorem ends_emit (hrange : E .outOfRange) (pl : Platform) (bits : List Bool) (w : WCursor) :
    Ends E (fun _ => True) (emit pl bits w) := by
  unfold emit
  split
  · split
    · trivial
    · exact ends_emitLoop pl bits w
  · exact hrange

theorem ends_flush (hrange : E .outOfRange) (pl : Platform) (w : WCursor) : Ends E (fun _ => True) (flush pl w) := by
  unfold flush
  split
  · split
    · trivial
    · exact (ends_storeByte (I := fun _ => True) trivial).bind fun _ _ => trivial
  · exact hrange

/-! ### The codec: no code but OUT_OF_RANGE, and stores in the destination only -/

section Codec

variable {I : Memory → Prop} {io : CodecIO} (hrange : E .outOfRange)
  (hstore : ∀ m, I m → ∀ o < io.cap, ∀ b, I (m.write (io.dstBase + o) b))
include hrange hstore

theorem ends_putOut {m : Memory} (hm : I m) (o : Nat) (b : Byte) : Ends E I (putOut io o m b) := by
  unfold putOut
  by_cases ho : o < io.cap
  · rw [decide_eq_true ho, require_true]
    exact ends_storeByte (hstore m hm o ho b)
  · rw [decide_eq_false ho, require_false]
    exact hrange

theorem ends_unescapeLoop {m : Memory} (hm : I m) (n i z o : Nat) : Ends E (fun r => I r.2) (unescapeLoop io n i z o m) := by
  induction n generalizing i z o m with
  | zero => exact hm
  | succ n ih =>
    refine (ends_fetchByte ..).bind fun b _ => ?_
    split
    · exact ih hm ..
    · exact (ends_putOut hrange hstore hm o b).bind fun _ hm' => ih hm' ..

theorem ends_escapeLoop {m : Memory} (hm : I m) (n i z o : Nat) : Ends E (fun r => I r.2) (escapeLoop io n i z o m) := by
  induction n generalizing i z o m with
  | zero => exact hm
  | succ n ih =>
    refine (ends_fetchByte ..).bind fun b _ => ?_
    split
    · exact (ends_putOut hrange hstore hm o _).bind fun _ hm' => (ends_putOut hrange hstore hm' _ b).bind fun _ hm'' => ih hm'' ..
    · exact (ends_putOut hrange hstore hm o b).bind fun _ hm' => ih hm' ..

end Codec

/-! ### The locator and the scanner -/

theorem ends_sourceByte (s : State) (i : Nat) : Ends E (fun _ => True) (sourceByte s i) := ends_fetchByte ..

theorem ends_findStartCode (s : State) (fuel i : Nat) : Ends E (fun _ => True) (findStartCode s fuel i) := by
  induction fuel generalizing i with
  | zero => trivial
  | succ fuel ih =>
    unfold findStartCode
    split
    · refine (ends_sourceByte s i).bind fun _ _ => (ends_sourceByte s _).bind fun _ _ => (ends_sourceByte s _).bind fun _ _ => ?_
      split
      · trivial
      · exact ih (i + 1)
    · trivial

theorem ends_sizeField (s : State) (c : Nat) : Ends E (fun _ => True) (sizeField s c) :=
  (ends_sourceByte s c).bind fun _ _ => (ends_sourceByte s _).bind fun _ _ => (ends_sourceByte s _).bind fun _ _ =>
    (ends_sourceByte s _).bind fun _ _ => trivial

theorem ends_scanLoop (pl : Platform) (m : Memory) (base n i : Nat) (d : Dca) :
    Ends E (fun _ => True) (scanLoop pl m base n i d) := by
  induction n generalizing i d with
  | zero => trivial
  | succ n ih =>
    refine (ends_fetchByte ..).bind fun b _ => ?_
    split
    · trivial
    · exact ih ..

end Sys2Proof.Proofs
end

section
/-! PROOF. What every part of the SPS walk keeps, whatever the input: only its emits touch the writer, and it raises MALFORMED_SPS and
OUT_OF_RANGE only (45_sps_rewriter.md R233). -/

namespace Sys2Proof.Proofs

open Sys2Proof.Machine

/-- Started with a writer in `I`, the part raises only codes of `E`, or gets stuck, or succeeds with a writer in `I`. -/
def WalkKeeps {α : Type} (E : Code → Prop) (I : WCursor → Prop) (part : Walk α) : Prop :=
  ∀ c, I c.w → Ends E (fun r => I r.2.w) (part c)

/-- The codes of the walk are in `E`, and an emit on the input's platform keeps `I`. -/
structure WalkRule (x : SpsInput) (E : Code → Prop) (I : WCursor → Prop) : Prop where
  malformed : E .malformedSps
  range     : E .outOfRange
  emit      : ∀ bits w w', I w → emit x.platform bits w = .ok w' → I w'

variable {α β : Type} {x : SpsInput} {E : Code → Prop} {I : WCursor → Prop}

theorem WalkKeeps.pure (a : α) : WalkKeeps E I (pure a) := fun _ hc => hc

theorem WalkKeeps.bind {part : Walk α} {f : α → Walk β} (hx : WalkKeeps E I part) (hf : ∀ a, WalkKeeps E I (f a)) :
    WalkKeeps E I (part >>= f) := fun c hc => (hx c hc).bind fun r hr => hf r.1 r.2 hr

theorem WalkKeeps.onlyIf (b : Bool) {part : Walk Unit} (h : WalkKeeps E I part) : WalkKeeps E I (onlyIf b part) := by
  cases b with
  | true => exact h
  | false => exact .pure ()

theorem WalkKeeps.times (n : Nat) {part : Walk Unit} (h : WalkKeeps E I part) : WalkKeeps E I (times n part) := by
  induction n with
  | zero => exact .pure ()
  | succ n ih => exact .bind h fun _ => ih

theorem ends_asMalformed {P : α → Prop} {y : Cmd α} (hE : E .malformedSps) (hy : Ends (fun _ => True) P y) :
    Ends E P (asMalformed y) := by
  match y with
  | .ok _ => exact hy
  | .error (.raise _) => exact hE
  | .error .stuck => trivial

namespace WalkRule

variable (h : WalkRule x E I)
include h

/-! ### Fields -/

theorem rdU (n : Nat) : WalkKeeps E I (rdU x n) := fun _ hc =>
  (ends_asMalformed h.malformed (ends_readFixed trivial ..)).bind fun _ _ => hc

theorem rdUe : WalkKeeps E I (rdUe x) := fun _ hc =>
  (ends_asMalformed h.malformed (ends_readUe trivial ..)).bind fun _ _ => hc

theorem rdSe : WalkKeeps E I (rdSe x) := h.rdUe.bind fun _ => .pure _

theorem wrList (bits : List Bool) : WalkKeeps E I (wrList x bits) := fun c hc =>
  (ends_emit h.range x.platform bits c.w).bind_ok fun w' hw => h.emit bits c.w w' hc hw

theorem cpU (n : Nat) : WalkKeeps E I (cpU x n) := (h.rdU n).bind fun _ => (h.wrList _).bind fun _ => .pure _

theorem cpUe : WalkKeeps E I (cpUe x) := h.rdUe.bind fun _ => (h.wrList _).bind fun _ => .pure _

theorem cpSe : WalkKeeps E I (cpSe x) := h.rdSe.bind fun _ => (h.wrList _).bind fun _ => .pure _

theorem keepU (n : Nat) : WalkKeeps E I (keepU x n) := (h.cpU n).bind fun _ => .pure ()

theorem keepUe : WalkKeeps E I (keepUe x) := h.cpUe.bind fun _ => .pure ()

theorem keepSe : WalkKeeps E I (keepSe x) := h.cpSe.bind fun _ => .pure ()

/-! ### Rows of the sequence parameter set -/

theorem profile : WalkKeeps E I (walkProfile x) := by
  refine (h.rdU 8).bind fun p => .bind (α := Unit) ?_ fun _ => (h.wrList _).bind fun _ => .pure p
  split
  · exact .pure ()
  · exact fun _ _ => h.malformed

theorem level : WalkKeeps E I (walkLevel x) := (h.rdU 8).bind fun _ => h.wrList _

theorem scalingEntries (n : Nat) (last next : Int) : WalkKeeps E I (scalingEntries x n last next) := by
  induction n generalizing last next with
  | zero => exact .pure ()
  | succ n ih =>
    unfold Machine.scalingEntries
    split
    · exact h.cpSe.bind fun _ => ih _ _
    · exact ih _ _

theorem scalingLists (n i : Nat) : WalkKeeps E I (scalingLists x n i) := by
  induction n generalizing i with
  | zero => exact .pure ()
  | succ n ih => exact (h.cpU 1).bind fun _ => (WalkKeeps.onlyIf _ (h.scalingEntries _ _ _)).bind fun _ => ih (i + 1)

theorem high : WalkKeeps E I (walkHigh x) :=
  h.cpUe.bind fun _ => (WalkKeeps.onlyIf _ (h.keepU 1)).bind fun _ => h.keepUe.bind fun _ => h.keepUe.bind fun _ =>
    (h.keepU 1).bind fun _ => (h.cpU 1).bind fun _ => .onlyIf _ (h.scalingLists _ _)

theorem pocCycle : WalkKeeps E I (walkPocCycle x) :=
  (h.keepU 1).bind fun _ => h.keepSe.bind fun _ => h.keepSe.bind fun _ => h.cpUe.bind fun m => .times m h.keepSe

theorem poc : WalkKeeps E I (walkPoc x) :=
  h.cpUe.bind fun _ => (WalkKeeps.onlyIf _ h.keepUe).bind fun _ => .onlyIf _ h.pocCycle

theorem frame : WalkKeeps E I (walkFrame x) :=
  h.keepUe.bind fun _ => (h.keepU 1).bind fun _ => h.keepUe.bind fun _ => h.keepUe.bind fun _ => (h.cpU 1).bind fun _ =>
    (WalkKeeps.onlyIf _ (h.keepU 1)).bind fun _ => (h.keepU 1).bind fun _ => (h.cpU 1).bind fun _ => .onlyIf _ (.times 4 h.keepUe)

/-! ### VUI parameters -/

theorem aspect : WalkKeeps E I (walkAspect x) :=
  (h.cpU 8).bind fun _ => .onlyIf _ <| (h.keepU 16).bind fun _ => h.keepU 16

theorem signal : WalkKeeps E I (walkSignal x) :=
  (h.keepU 3).bind fun _ => (h.keepU 1).bind fun _ => (h.cpU 1).bind fun _ => .onlyIf _ <| (h.keepU 8).bind fun _ =>
    (h.keepU 8).bind fun _ => h.keepU 8

theorem vuiDisplay : WalkKeeps E I (walkVuiDisplay x) :=
  (h.cpU 1).bind fun _ => (WalkKeeps.onlyIf _ h.aspect).bind fun _ => (h.cpU 1).bind fun _ =>
    (WalkKeeps.onlyIf _ (h.keepU 1)).bind fun _ => (h.cpU 1).bind fun _ => (WalkKeeps.onlyIf _ h.signal).bind fun _ =>
    (h.cpU 1).bind fun _ => .onlyIf _ <| h.keepUe.bind fun _ => h.keepUe

theorem timing : WalkKeeps E I (walkTiming x) :=
  (h.rdU 32).bind fun _ => (h.wrList _).bind fun _ => (h.rdU 32).bind fun _ => (h.wrList _).bind fun _ => (h.rdU 1).bind fun _ =>
    h.wrList _

theorem copyBits (len : Nat) : WalkKeeps E I (copyBits x len) := by
  unfold Machine.copyBits
  generalize len / 24 + 1 = fuel
  induction fuel generalizing len with
  | zero => exact .pure ()
  | succ fuel ih =>
    unfold copyChunks
    split
    · exact .pure ()
    · exact (h.keepU _).bind fun _ => ih _

/-- The look-ahead only reads. -/
theorem hrdParse : WalkKeeps E I (hrdParse x) := by
  have hentry : WalkKeeps E I (hrdEntry x) := h.rdUe.bind fun _ => h.rdUe.bind fun _ => (h.rdU 1).bind fun _ => .pure ()
  exact h.rdUe.bind fun cc => (h.rdU 4).bind fun _ => (h.rdU 4).bind fun _ => (hentry.times (cc + 1)).bind fun _ =>
    (h.rdU 5).bind fun _ => (h.rdU 5).bind fun _ => (h.rdU 5).bind fun _ => (h.rdU 5).bind fun _ => .pure ()

theorem hrd : WalkKeeps E I (walkHrd x) := fun c hc => (h.hrdParse c hc).bind fun _ _ => h.copyBits _ c hc

theorem vuiHrd : WalkKeeps E I (walkVuiHrd x) :=
  (h.cpU 1).bind fun _ => (WalkKeeps.onlyIf _ h.hrd).bind fun _ => (h.cpU 1).bind fun _ => (WalkKeeps.onlyIf _ h.hrd).bind fun _ =>
    .onlyIf _ (h.keepU 1)

theorem vui : WalkKeeps E I (walkVui x) :=
  h.vuiDisplay.bind fun _ => (h.cpU 1).bind fun _ => (WalkKeeps.onlyIf _ h.timing).bind fun _ => h.vuiHrd.bind fun _ =>
    (h.keepU 1).bind fun _ => (h.cpU 1).bind fun _ => .onlyIf _ <| (h.keepU 1).bind fun _ => .times 6 h.keepUe

/-! ### The walk and the trailing copy -/

theorem sps : WalkKeeps E I (walkSps x) :=
  h.profile.bind fun _ => (h.keepU 8).bind fun _ => h.level.bind fun _ => h.keepUe.bind fun _ =>
    (WalkKeeps.onlyIf _ h.high).bind fun _ => h.keepUe.bind fun _ => h.poc.bind fun _ => h.frame.bind fun _ =>
    (h.cpU 1).bind fun _ => .onlyIf _ h.vui

theorem tail : WalkKeeps E I (walkTail x) := fun c hc => h.copyBits _ c hc

end WalkRule

end Sys2Proof.Proofs
end

section
/-! PROOF. The register map, and what an idle write of a register stores and leaves (10_state.md R24 to R46). -/

namespace Sys2Proof.Proofs

open Sys2Proof.Machine Sys2Proof.Claims

/-! ### The register map -/

/-- Every row of the register map is what a look-up of its offset finds. -/
theorem regAt_of_mem : ∀ p ∈ registerMap, regAt p.1 = some p.2 := by decide

/-- The offsets are aligned and inside the block (10_state.md R23). -/
theorem offset_aligned_of_mem : ∀ p ∈ registerMap, p.1 < 256 ∧ p.1 % 4 = 0 := by decide

theorem mem_of_regAt {offset : Nat} {x : Reg} (h : regAt offset = some x) : (offset, x) ∈ registerMap := by
  obtain ⟨l₁, l₂, hl, -⟩ := List.lookup_eq_some_iff.mp h
  rw [hl]
  exact List.mem_append_right l₁ List.mem_cons_self

/-- A register has one offset. -/
theorem regAt_injective {a b : Nat} {x : Reg} (ha : regAt a = some x) (hb : regAt b = some x) : a = b := by
  have hone : ∀ p ∈ registerMap, ∀ q ∈ registerMap, p.2 = q.2 → p.1 = q.1 := by decide
  exact hone (a, x) (mem_of_regAt ha) (b, x) (mem_of_regAt hb) rfl

theorem readOffset_of_regAt {r : Regs} {offset : Nat} {x : Reg} (h : regAt offset = some x) :
    readOffset r offset = readReg r x := by
  simp [readOffset, h]

theorem readOffset_of_reserved {r : Regs} {offset : Nat} (h : regAt offset = none) : readOffset r offset = 0 := by
  simp [readOffset, h]

/-- The bits a host write stores in a register, for the registers that only store (10_state.md R24, R37, R46). -/
def storedBits : Reg → Option Word
  | .id | .cmd | .status | .ctrl | .res0 | .res1 | .res2 | .bwAcc => none
  | .brLen | .bwCap | .srcLen | .dstCap | .locCursor => some 0x1FFFFFFF
  | .spsOvr => some 0x0000FF0F
  | .dcaPhase | .dcaLock => some 0x00000007
  | .arg0 | .brBase | .brPos | .bwBase | .bwPos | .srcBase | .dstBase | .spsFpsNum | .spsFpsDen | .profileAllow _ | .dcaWinLo
  | .dcaWinHi | .dcaCount | .dcaFsize | .dcaStart => some 0xFFFFFFFF

/-- The rows of the claims' table name the storing registers and their bits. -/
theorem regAt_of_rwTable {row : Nat × Word} (h : row ∈ rwTable) : ∃ x, regAt row.1 = some x ∧ storedBits x = some row.2 := by
  have htable : ∀ row ∈ rwTable, (regAt row.1).bind storedBits = some row.2 := by decide
  exact Option.bind_eq_some_iff.mp (htable row h)

/-! ### A register after a write -/

@[simp] theorem storeReg_cmd (r : Regs) (v : Word) (x : Reg) : (storeReg r v x).cmd = r.cmd := by cases x <;> rfl

@[simp] theorem storeReg_status (r : Regs) (v : Word) (x : Reg) : (storeReg r v x).status = r.status := by cases x <;> rfl

theorem zeroExtend_setWidth (v : Word) {n : Nat} (hn : n ≤ 32) :
    (v.setWidth n).zeroExtend 32 = v &&& BitVec.ofNat 32 (2 ^ n - 1) := by
  have hpow : 2 ^ n ≤ 2 ^ 32 := Nat.pow_le_pow_right (by omega) hn
  have hpos := Nat.two_pow_pos n
  refine BitVec.eq_of_toNat_eq ?_
  rw [BitVec.toNat_and, BitVec.toNat_ofNat, Nat.mod_eq_of_lt (by omega), Nat.and_two_pow_sub_one_eq_mod,
    BitVec.zeroExtend, BitVec.toNat_setWidth, BitVec.toNat_setWidth, Nat.mod_eq_of_lt ((Nat.mod_lt _ hpos).trans_le hpow)]

theorem flagBit_getLsbD (b : Bool) (j : Nat) {i : Nat} (hi : i < 32) : (flagBit b j).getLsbD i = (decide (j = i) && b) := by
  cases b with
  | false => simp [flagBit]
  | true =>
    change (BitVec.ofNat 32 (1 <<< j)).getLsbD i = _
    rw [BitVec.getLsbD_ofNat, Nat.one_shiftLeft, Nat.testBit_two_pow, decide_eq_true hi, Bool.true_and, Bool.and_true]

/-- SPS_OVR keeps bits 3:0 and 15:8. -/
theorem spsOvrWord_spsOvrOfWord (v : Word) : spsOvrWord (spsOvrOfWord v) = v &&& 0x0000FF0F := by
  refine BitVec.eq_of_getLsbD_eq fun i hi => ?_
  simp only [spsOvrWord, spsOvrOfWord, BitVec.getLsbD_or, BitVec.getLsbD_and, flagBit_getLsbD _ _ hi]
  interval_cases i <;> simp

theorem readReg_storeReg_same {x : Reg} {mask : Word} (h : storedBits x = some mask) (r : Regs) (v : Word) :
    readReg (storeReg r v x) x = v &&& mask := by
  cases x <;> cases h
  case brLen | bwCap | srcLen | dstCap | locCursor => exact zeroExtend_setWidth v (n := 29) (by omega)
  case dcaPhase | dcaLock => exact zeroExtend_setWidth v (n := 3) (by omega)
  case spsOvr => exact spsOvrWord_spsOvrOfWord v
  all_goals rw [show (0xFFFFFFFF : Word) = BitVec.allOnes 32 from rfl, BitVec.and_allOnes]
  case profileAllow i => exact Vector.getElem_set_self _
  case dcaWinLo => exact BitVec.extractLsb'_append_eq_right
  case dcaWinHi => exact BitVec.extractLsb'_append_eq_left
  all_goals rfl

theorem readReg_storeReg_other {x y : Reg} (h : x ≠ y) (hacc : ¬(x = .bwPos ∧ y = .bwAcc)) (r : Regs) (v : Word) :
    readReg (storeReg r v x) y = readReg r y := by
  cases x
  case profileAllow i =>
    cases y
    case profileAllow j => exact Vector.getElem_set_ne i.isLt j.isLt fun hij => h (by rw [Fin.ext hij])
    all_goals rfl
  case dcaWinLo =>
    cases y
    case dcaWinLo => exact absurd rfl h
    case dcaWinHi => exact BitVec.extractLsb'_append_eq_left
    all_goals rfl
  case dcaWinHi =>
    cases y
    case dcaWinHi => exact absurd rfl h
    case dcaWinLo => exact BitVec.extractLsb'_append_eq_right
    all_goals rfl
  case bwPos =>
    cases y
    case bwPos => exact absurd rfl h
    case bwAcc => exact absurd ⟨rfl, rfl⟩ hacc
    all_goals rfl
  -- The others have a field of their own.
  all_goals cases y <;> trivial

theorem append_eq_ofNat (hi lo : Word) : hi ++ lo = BitVec.ofNat 64 (hi.toNat * 2 ^ 32 + lo.toNat) := by
  have hhi := hi.isLt
  have hlo := lo.isLt
  refine BitVec.eq_of_toNat_eq ?_
  rw [BitVec.toNat_append, ← Nat.shiftLeft_add_eq_or_of_lt hlo, Nat.shiftLeft_eq, BitVec.toNat_ofNat,
    Nat.mod_eq_of_lt (by omega)]

/-- The claims' table of stored registers is what the model stores, over the storing registers of the map. -/
theorem storedRegs_eq (r : Regs) (v : Word) :
    storedRegs r v = (registerMap.filter fun p => (storedBits p.2).isSome).map fun p => (p.1, storeReg r v p.2) := by
  have hlow : BitVec.ofNat 64 (r.dca.win.toNat / 2 ^ 32 * 2 ^ 32 + v.toNat) = r.dca.win.extractLsb' 32 32 ++ v := by
    rw [append_eq_ofNat, BitVec.extractLsb'_toNat, Nat.shiftRight_eq_div_pow, Nat.mod_eq_of_lt (by have := r.dca.win.isLt; omega)]
  have hhigh : BitVec.ofNat 64 (v.toNat * 2 ^ 32 + r.dca.win.toNat % 2 ^ 32) = v ++ r.dca.win.extractLsb' 0 32 := by
    rw [append_eq_ofNat, BitVec.extractLsb'_toNat, Nat.shiftRight_zero]
  have hlevel : BitVec.ofNat 8 (v.toNat / 2 ^ 8) = v.extractLsb' 8 8 := by
    rw [BitVec.extractLsb', Nat.shiftRight_eq_div_pow]
  simp only [storedRegs, hlow, hhigh, hlevel, BitVec.ofNat_toNat]
  rfl

/-! ### The host's write while idle -/

theorem hostWrite_regAddr (s : State) {offset : Nat} (hlt : offset < 256) (halign : offset % 4 = 0) (v : Word) :
    hostWrite s (regAddr s offset) 4 v = writeOffset s offset v := by
  have hoffset : offsetOf s.platform (regAddr s offset) = offset := by
    rw [offsetOf, regAddr, BitVec.add_comm, BitVec.add_sub_cancel, BitVec.toNat_ofNat, Nat.mod_eq_of_lt (by omega)]
  have htarget : target s.platform (regAddr s offset) 4 = .register offset := by
    rw [target, hoffset, if_pos ⟨hlt, rfl, halign⟩]
  rw [hostWrite, htarget]

/-- The step of a host's aligned write at an offset. -/
theorem step_regWrite {s : State} {offset : Nat} {v : Word} {rest : List Move} (hlt : offset < 256) (halign : offset % 4 = 0)
    (hp : s.program = .host (.regWrite (regAddr s offset) 4 v) :: rest) :
    step s = .next (writeOffset { s with program := rest } offset v) := by
  simp only [step, hp, hostMove]
  exact congrArg _ (hostWrite_regAddr { s with program := rest } hlt halign v)

/-- An idle write of a register that only stores. -/
theorem writeOffset_stores {s : State} {offset : Nat} {x : Reg} (hb : s.regs.status.busy = false) (hx : regAt offset = some x)
    (hstores : (storedBits x).isSome = true) (v : Word) : writeOffset s offset v = { s with regs := storeReg s.regs v x } := by
  have hctrl : x ≠ .ctrl := by rintro rfl; cases hstores
  have hcmd : x ≠ .cmd := by rintro rfl; cases hstores
  simp [writeOffset, hx, hb, writeIdle, hctrl]

/-- What stands at the offsets that take no write: nothing, or a read-only register (10_state.md R24, R25). -/
def writeIgnored : List (Option Reg) := [none, some .id, some .status, some .res0, some .res1, some .res2, some .bwAcc]

theorem writeOffset_ignored {s : State} {offset : Nat} (hb : s.regs.status.busy = false)
    (hx : regAt offset ∈ writeIgnored) (v : Word) :
    writeOffset s offset v = s := by
  simp only [writeIgnored, List.mem_cons, List.not_mem_nil, or_false] at hx
  obtain hx | hx | hx | hx | hx | hx | hx := hx <;> simp [writeOffset, hx, hb, writeIdle, storeReg]

/-! ### The statements -/

/-- Settles O10: the claims' tables are the model's register map, so each row is one register. -/
theorem writtenRegisterReadsBack : Obligations.WrittenRegisterReadsBack := by
  refine ⟨fun row hrow s v hb => ?_, fun s v hb row hrow => ?_⟩
  · obtain ⟨x, hx, hbits⟩ := regAt_of_rwTable hrow
    rw [writeOffset_stores hb hx (Option.isSome_of_eq_some hbits), readOffset_of_regAt hx]
    exact readReg_storeReg_same hbits s.regs v
  · rw [storedRegs_eq] at hrow
    obtain ⟨⟨offset, x⟩, hmem, rfl⟩ := List.mem_map.mp hrow
    obtain ⟨hmap, hstores⟩ := List.mem_filter.mp hmem
    have hx : regAt offset = some x := regAt_of_mem (offset, x) hmap
    obtain ⟨hlt, halign⟩ := offset_aligned_of_mem (offset, x) hmap
    exact ⟨writeOffset_stores hb hx hstores v, fun rest hp => by
      rw [step_regWrite hlt halign hp, writeOffset_stores (s := { s with program := rest }) hb hx hstores]⟩

/-- Settles O11: offsets name registers one to one, and no storing register has a part in another one's value. -/
theorem registerWriteTouchesNoOtherRegister : Obligations.RegisterWriteTouchesNoOtherRegister := by
  intro row hrow s v other hb hother
  obtain ⟨x, hx, hbits⟩ := regAt_of_rwTable hrow
  rw [writeOffset_stores hb hx (Option.isSome_of_eq_some hbits)]
  refine ⟨?_, rfl⟩
  by_cases hacc : row.1 = 0x038 ∧ other = 0x03C
  · obtain ⟨h, rfl⟩ := hacc
    rw [h] at hx
    cases hx
    rw [if_pos ⟨h, rfl⟩]
    rfl
  · rw [if_neg hacc]
    cases hy : regAt other with
    | none => rw [readOffset_of_reserved hy, readOffset_of_reserved hy]
    | some y =>
      rw [readOffset_of_regAt hy, readOffset_of_regAt hy]
      refine readReg_storeReg_other (fun hxy => ?_) (fun hpos => hacc ?_) s.regs v
      · subst hxy
        exact hother (regAt_injective hy hx)
      · obtain ⟨rfl, rfl⟩ := hpos
        exact ⟨regAt_injective hx rfl, regAt_injective hy rfl⟩

/-- Settles O12: no register that stores stands at these offsets. -/
theorem readOnlyAndReservedIgnoreWrites : Obligations.ReadOnlyAndReservedIgnoreWrites := by
  have hignored : ∀ offset ∈ roOffsets ++ reservedOffsets, (offset < 256 ∧ offset % 4 = 0) ∧
      regAt offset ∈ writeIgnored := by decide
  have hreserved : ∀ offset ∈ reservedOffsets, regAt offset = none := by decide
  refine fun s => ⟨fun hb offset ho v => ?_, fun offset ho => readOffset_of_reserved (hreserved offset ho), rfl, rfl⟩
  obtain ⟨⟨hlt, halign⟩, hx⟩ := hignored offset ho
  exact ⟨writeOffset_ignored hb hx v, fun rest hp => by
    rw [step_regWrite hlt halign hp, writeOffset_ignored (s := { s with program := rest }) hb hx]⟩

/-- Settles O13: the fields do not overlap, so the word is their sum. -/
theorem statusWordHasItsFields : Obligations.StatusWordHasItsFields := by
  intro s
  change (statusWord s.regs.status).toNat = _
  obtain ⟨busy, err, code⟩ := s.regs.status
  cases code <;> decide +revert

end Sys2Proof.Proofs
end

section
/-! PROOF. The clauses of the invariant, and that every command keeps them. -/

namespace Sys2Proof.Proofs

open Sys2Proof.Machine

/-! ### The clauses of the invariant -/

theorem inv_iff {s : State} :
    s.inv = true ↔ s.mem.wf = true ∧ accOk s.regs = true ∧ statusOk s.regs.status = true ∧ engineOk s = true := by
  simp only [State.inv, Bool.and_eq_true, and_assoc]

theorem statusOk_iff {st : Status} : statusOk st = true ↔ st.err = codeIsError st.code ∧ st.code ≠ .malformedFrameHeader := by
  simp [statusOk]

theorem engineOk_of_wordInProgress {s : State} {w : Word} (hw : wordInProgress s.engine = some w) :
    engineOk s = true ↔ s.regs.status.busy = true ∧ s.regs.cmd = w := by
  simp [engineOk, hw]

theorem engineOk_of_idle {s : State} (h : s.engine = .idle) : engineOk s = true ↔ s.regs.status.busy = false := by
  simp [engineOk, h, wordInProgress]

/-! ### The partial byte -/

/-- The bits of the partial byte from the position on are 0 (10_state.md R34). -/
def ZeroFilled (acc : Byte) (pos : Nat) : Prop := acc.toNat % 2 ^ (8 - pos % 8) = 0

theorem accOk_iff {r : Regs} : accOk r = true ↔ ZeroFilled r.bwAcc r.bwPos.toNat := by
  simp [accOk, ZeroFilled]

theorem zeroFilled_zero (pos : Nat) : ZeroFilled 0 pos := Nat.zero_mod _

/-- One more bit, before the byte is full. -/
theorem ZeroFilled.or_streamBit {acc : Byte} {pos : Nat} (h : ZeroFilled acc pos) (b : Bool) (hopen : (pos + 1) % 8 ≠ 0) :
    ZeroFilled (acc ||| streamBit b pos) (pos + 1) := by
  have hnext : 8 - (pos + 1) % 8 = 7 - pos % 8 := by omega
  have hbit : (streamBit b pos).toNat % 2 ^ (7 - pos % 8) = 0 := by
    have hpos : pos % 8 < 8 := Nat.mod_lt _ (by omega)
    unfold streamBit
    generalize pos % 8 = r at hpos
    clear h hopen hnext
    decide +revert
  have hacc : acc.toNat % 2 ^ (7 - pos % 8) = 0 :=
    Nat.mod_eq_zero_of_dvd ((Nat.pow_dvd_pow 2 (by omega)).trans (Nat.dvd_of_mod_eq_zero h))
  rw [ZeroFilled, hnext, BitVec.toNat_or, Nat.or_mod_two_pow, hacc, hbit, Nat.zero_or]

theorem emitLoop_zeroFilled {pl : Platform} {bits : List Bool} {w w' : WCursor} (h : emitLoop pl bits w = .ok w')
    (hw : ZeroFilled w.acc w.pos) : ZeroFilled w'.acc w'.pos := by
  induction bits generalizing w with
  | nil =>
    unfold emitLoop at h
    split at h
    · cases h
      exact hw
    · obtain ⟨m, -, h⟩ := cmd_bind_ok.mp h
      cases h
      exact hw
  | cons b bs ih =>
    unfold emitLoop at h
    split at h
    · obtain ⟨m, -, h⟩ := cmd_bind_ok.mp h
      exact ih h (zeroFilled_zero _)
    · rename_i hopen
      exact ih h (hw.or_streamBit b hopen)

theorem emit_zeroFilled {pl : Platform} {bits : List Bool} {w w' : WCursor} (h : emit pl bits w = .ok w')
    (hw : ZeroFilled w.acc w.pos) : ZeroFilled w'.acc w'.pos := by
  unfold emit at h
  split at h
  · split at h
    · cases h
      exact hw
    · exact emitLoop_zeroFilled h hw
  · simp at h

theorem flush_wf {pl : Platform} {w w' : WCursor} (h : flush pl w = .ok w') (hw : w.mem.wf = true) : w'.mem.wf = true := by
  obtain ⟨-, -, -, -, -, hmem⟩ := flush_ok h
  rw [hmem]
  split
  · exact hw
  · exact Memory.wf_write hw ..

/-! ### The end of a command -/

/-- A code a command may end with: code 3 is reserved (60_exceptions.md R324). -/
def Reported (c : Code) : Prop := c ≠ .malformedFrameHeader

theorem reported_outOfRange : Reported .outOfRange := nofun

theorem reported_illegalCommand : Reported .illegalCommand := nofun

/-- What a command commits is fit for the invariant. -/
structure Sound (d : Done) : Prop where
  wf   : d.mem.wf = true
  acc  : accOk d.regs = true
  code : Reported d.code

theorem commit_inv (s : State) {d : Done} (h : Sound d) : (commit s d.regs d.mem d.code).inv = true :=
  inv_iff.mpr ⟨h.wf, h.acc, statusOk_iff.mpr ⟨rfl, h.code⟩, (engineOk_of_idle rfl).mpr rfl⟩

theorem failWith_inv {s : State} {c : Code} (hwf : s.mem.wf = true) (hacc : accOk s.regs = true) (hc : Reported c) :
    (failWith s c).inv = true := commit_inv s (d := ⟨s.regs, s.mem, c⟩) ⟨hwf, hacc, hc⟩

theorem stick_inv {s : State} {w : Word} (hs : s.inv = true) (hw : s.engine = .pending w) : (stick s).inv = true := by
  obtain ⟨hwf, hacc, hstatus, hengine⟩ := inv_iff.mp hs
  rw [engineOk_of_wordInProgress (w := w) (by rw [hw]; rfl)] at hengine
  exact inv_iff.mpr ⟨hwf, hacc, hstatus, (engineOk_of_wordInProgress rfl).mpr ⟨hengine.1, rfl⟩⟩

section Commands

variable {s t : State} {w : Word} (hs : s.inv = true) (hw : s.engine = .pending w)
include hs

theorem inv_of_guarded {i : Instr} {body : Host.Outcome State Fault Refusal} (hbody : body = .next t → t.inv = true)
    (h : guarded i s body = .next t) : t.inv = true := by
  obtain ⟨hwf, hacc, -, -⟩ := inv_iff.mp hs
  obtain ⟨-, -, h⟩ | ⟨-, rfl⟩ := guarded_next h
  · exact hbody h
  · exact failWith_inv hwf hacc reported_illegalCommand

include hw

theorem inv_of_conclude {r : Cmd Done} (hr : Ends Reported Sound r) (h : conclude s r = .next t) : t.inv = true := by
  obtain ⟨hwf, hacc, -, -⟩ := inv_iff.mp hs
  obtain ⟨d, rfl, rfl⟩ | ⟨c, rfl, rfl⟩ | ⟨-, rfl⟩ := conclude_next h
  · exact commit_inv s hr
  · exact failWith_inv hwf hacc hr
  · exact stick_inv hs hw

theorem inv_of_concludeDst {r : Cmd Done} (hr : Ends Reported Sound r) (h : concludeDst s r = .next t) : t.inv = true := by
  obtain ⟨hwf, hacc, -, -⟩ := inv_iff.mp hs
  obtain ⟨d, rfl, rfl⟩ | ⟨c, rfl, rfl⟩ | ⟨-, rfl⟩ := concludeDst_next h
  · exact commit_inv s hr
  · exact failWith_inv (Memory.wf_scramble hwf ..) hacc hr
  · exact stick_inv hs hw

end Commands

/-! ### The commands' rules -/

section Rules

variable {s : State}

section
variable (hwf : s.mem.wf = true) (hacc : accOk s.regs = true)
include hwf hacc

theorem readerFixed_sound (n : Nat) : Ends Reported Sound (readerFixed n s) :=
  (ends_readFixed reported_outOfRange ..).bind fun _ _ => ⟨hwf, hacc, nofun⟩

theorem readerGolomb_sound (value : Nat → Word) : Ends Reported Sound (readerGolomb value s) :=
  (ends_readUe reported_outOfRange ..).bind fun _ _ => ⟨hwf, hacc, nofun⟩

/-- BW_POS does not wrap: it stays within 8 · BW_CAP < 2^32. -/
theorem writerEmit_sound (operandOk : Bool) (bits : List Bool) : Ends Reported Sound (writerEmit operandOk bits s) := by
  refine (ends_require reported_illegalCommand).bind fun _ _ => (ends_emit reported_outOfRange ..).bind_ok fun w' hw' => ?_
  obtain ⟨hpos, hroom, -, -, hnext, hwf', -⟩ := emit_frame hw'
  have hfits : w'.pos < 2 ^ 32 := by
    have hlimit : (writerCursor s).limit = 8 * s.regs.bwCap.toNat := rfl
    have := s.regs.bwCap.isLt
    omega
  have hpos' : (BitVec.ofNat 32 w'.pos).toNat = w'.pos := Nat.mod_eq_of_lt hfits
  exact ⟨hwf' hwf, accOk_iff.mpr (hpos'.symm ▸ emit_zeroFilled hw' (accOk_iff.mp hacc)), nofun⟩

theorem locateAb_sound : Ends Reported Sound (locateAb s) := by
  refine (ends_require reported_outOfRange).bind fun _ _ => (ends_findStartCode ..).bind fun found _ => ?_
  cases found with
  | none => exact ⟨hwf, hacc, nofun⟩
  | some i => exact (ends_sourceByte ..).bind fun _ _ => ⟨hwf, hacc, nofun⟩

theorem locateLp_sound (n c : Nat) : Ends Reported Sound (locateLp s n c) := by
  refine (ends_require reported_outOfRange).bind fun _ _ => ?_
  split
  · exact ⟨hwf, hacc, nofun⟩
  · exact (ends_require reported_outOfRange).bind fun _ _ => (ends_sizeField ..).bind fun _ _ =>
      (ends_require reported_outOfRange).bind fun _ _ => (ends_sourceByte ..).bind fun _ _ => ⟨hwf, hacc, nofun⟩

theorem dcaScanRule_sound (f : Bool) : Ends Reported Sound (dcaScanRule f s) := by
  unfold dcaScanRule
  split
  · exact ⟨hwf, hacc, nofun⟩
  · refine (ends_require reported_illegalCommand).bind fun _ _ => (ends_scanLoop ..).bind fun r _ => ?_
    split <;> exact ⟨hwf, hacc, nofun⟩

end

/-- The flush clears the partial byte. -/
theorem writerFlush_sound (hwf : s.mem.wf = true) : Ends Reported Sound (writerFlush s) :=
  (ends_flush reported_outOfRange ..).bind_ok fun w' hw' => by
    obtain ⟨-, -, -, hzero, -, -⟩ := flush_ok hw'
    exact ⟨flush_wf hw' hwf, accOk_iff.mpr (hzero ▸ zeroFilled_zero _), nofun⟩

theorem codecDone_sound (hacc : accOk s.regs = true) {x : Cmd (Nat × Memory)}
    (hx : Ends Reported (fun r => r.2.wf = true) x) : Ends Reported Sound (codecDone s <$> x) := by
  rw [map_eq_pure_bind]
  exact hx.bind fun _ hm => ⟨hm, hacc, nofun⟩

theorem spsBody_sound (hwf : s.mem.wf = true) (hacc : accOk s.regs = true) : Ends Reported Sound (spsBody s) := by
  have hrule : WalkRule (spsInput s) Reported (fun w => w.mem.wf = true) :=
    ⟨nofun, reported_outOfRange, fun _ _ _ hw hw' => by
      obtain ⟨-, -, -, -, -, hwf', -⟩ := emit_frame hw'
      exact hwf' hw⟩
  exact (hrule.sps.bind (fun _ => hrule.tail) (spsCursors s) hwf).bind fun r hr =>
    (ends_flush reported_outOfRange ..).bind_ok fun w' hw' => ⟨flush_wf hw' hr, hacc, nofun⟩

end Rules

/-- The engine's step on a decoded command keeps the invariant. -/
theorem exec_inv {s t : State} {w : Word} {i : Instr} (hs : s.inv = true) (hw : s.engine = .pending w) (h : exec i s = .next t) :
    t.inv = true := by
  obtain ⟨hwf, hacc, -, -⟩ := inv_iff.mp hs
  have hstore : ∀ m : Memory, m.wf = true → ∀ o < (codecIO s).cap, ∀ b, (m.write ((codecIO s).dstBase + o) b).wf = true :=
    fun m hm _ _ _ => Memory.wf_write hm ..
  cases i with
  | rdBits n => exact inv_of_guarded hs (inv_of_conclude hs hw (readerFixed_sound hwf hacc n)) h
  | rdBit => exact inv_of_guarded hs (inv_of_conclude hs hw (readerFixed_sound hwf hacc 1)) h
  | rdUe => exact inv_of_guarded hs (inv_of_conclude hs hw (readerGolomb_sound hwf hacc _)) h
  | rdSe => exact inv_of_guarded hs (inv_of_conclude hs hw (readerGolomb_sound hwf hacc _)) h
  | wrBits n => exact inv_of_guarded hs (inv_of_conclude hs hw (writerEmit_sound hwf hacc _ _)) h
  | wrBit => exact inv_of_guarded hs (inv_of_conclude hs hw (writerEmit_sound hwf hacc _ _)) h
  | wrUe => exact inv_of_guarded hs (inv_of_conclude hs hw (writerEmit_sound hwf hacc _ _)) h
  | wrSe => exact inv_of_guarded hs (inv_of_conclude hs hw (writerEmit_sound hwf hacc _ _)) h
  | wrAlignFlush => exact inv_of_guarded hs (inv_of_conclude hs hw (writerFlush_sound hwf)) h
  | nalUnescape =>
    exact inv_of_guarded hs (inv_of_concludeDst hs hw
      (codecDone_sound hacc (ends_unescapeLoop reported_outOfRange hstore hwf ..))) h
  | nalEscape =>
    exact inv_of_guarded hs (inv_of_concludeDst hs hw
      (codecDone_sound hacc (ends_escapeLoop reported_outOfRange hstore hwf ..))) h
  | nalLocateAb => exact inv_of_guarded hs (inv_of_conclude hs hw (locateAb_sound hwf hacc)) h
  | nalLocateLp => exact inv_of_guarded hs (inv_of_conclude hs hw (locateLp_sound hwf hacc _ _)) h
  | spsRewrite =>
    refine inv_of_guarded hs (fun hbody => ?_) h
    split at hbody
    · cases hbody
      exact failWith_inv hwf hacc nofun
    · exact inv_of_concludeDst hs hw (spsBody_sound hwf hacc) hbody
  | dcaScan f => exact inv_of_guarded hs (inv_of_conclude hs hw (dcaScanRule_sound hwf hacc f)) h
  | dcaReset =>
    exact inv_of_guarded (i := .dcaReset) hs (inv_of_conclude hs hw (r := .ok ⟨{ s.regs with dca := Dca.reset }, s.mem, .ok⟩)
      ⟨hwf, hacc, nofun⟩) h

end Sys2Proof.Proofs
end

section
/-! PROOF. Every step keeps the invariant: the engine's turn, and the host's moves. -/

namespace Sys2Proof.Proofs

open Sys2Proof.Machine

/-! ### The engine's turn -/

/-- Everything an engine's turn can answer (40_command_protocol.md R131). -/
theorem engineTurn_next {s t : State} (h : engineTurn s = .next t) :
    t = s ∨ ∃ w, s.engine = .pending w ∧ ((∃ i, decode w = .ok i ∧ exec i s = .next t) ∨ t = failWith s .illegalCommand) := by
  unfold engineTurn at h
  split at h
  · cases h
    exact .inl rfl
  · rename_i w hw
    have hpending : s.engine = .pending w := by
      cases he : s.engine with
      | pending w' => rw [he] at hw; exact congrArg Engine.pending (Option.some.inj hw)
      | idle | stuck => rw [he] at hw; cases hw
    refine .inr ⟨w, hpending, ?_⟩
    split at h
    · rename_i i hi
      exact .inl ⟨i, hi, h⟩
    · cases h
      exact .inr rfl

theorem engineTurn_inv {s t : State} (hs : s.inv = true) (h : engineTurn s = .next t) : t.inv = true := by
  obtain rfl | ⟨w, hw, ⟨i, -, h⟩ | rfl⟩ := engineTurn_next h
  · exact hs
  · exact exec_inv hs hw h
  · obtain ⟨hwf, hacc, -, -⟩ := inv_iff.mp hs
    exact failWith_inv hwf hacc reported_illegalCommand

/-! ### The host's moves -/

theorem launch_inv {s : State} (hs : s.inv = true) (w : Word) : (launch s w).inv = true := by
  obtain ⟨hwf, hacc, hstatus, -⟩ := inv_iff.mp hs
  exact inv_iff.mpr ⟨hwf, hacc, hstatus, (engineOk_of_wordInProgress rfl).mpr ⟨rfl, rfl⟩⟩

theorem hardReset_inv {s : State} (hwf : s.mem.wf = true) : (hardReset s).inv = true :=
  inv_iff.mpr ⟨hwf, rfl, rfl, rfl⟩

theorem writeCtrl_inv {s : State} (hs : s.inv = true) (v : Word) : (writeCtrl s v).inv = true := by
  obtain ⟨hwf, -, -, -⟩ := inv_iff.mp hs
  unfold writeCtrl softReset
  split
  · split
    · exact hardReset_inv hwf
    · exact hardReset_inv (Memory.wf_scramble hwf ..)
  · exact hs

/-- A write of BW_POS clears the partial byte; no other write changes the writer's position or its partial byte. -/
theorem storeReg_accOk {r : Regs} (h : accOk r = true) (v : Word) (x : Reg) : accOk (storeReg r v x) = true := by
  cases x
  case bwPos => exact accOk_iff.mpr (zeroFilled_zero _)
  all_goals exact h

theorem writeIdle_inv {s : State} (hs : s.inv = true) (v : Word) (x : Option Reg) : (writeIdle s v x).inv = true := by
  obtain ⟨hwf, hacc, hstatus, hengine⟩ := inv_iff.mp hs
  unfold writeIdle
  split
  · exact launch_inv hs v
  · exact inv_iff.mpr ⟨hwf, storeReg_accOk hacc v _, by simpa using hstatus, by simpa [engineOk] using hengine⟩
  · exact hs

theorem writeOffset_inv {s : State} (hs : s.inv = true) (offset : Nat) (v : Word) : (writeOffset s offset v).inv = true := by
  unfold writeOffset
  split
  · exact writeCtrl_inv hs v
  · split
    · exact hs
    · exact writeIdle_inv hs v _

/-- Everything a host access of memory can answer. -/
theorem hostMemory_next {s t u : State} {a n : Nat} (h : hostMemory s a n u = .next t) :
    a + n ≤ addressSpace ∧ racesCommand s a n = false ∧ t = u := by
  unfold hostMemory at h
  split at h
  · cases h
  · split at h
    · cases h
    · rename_i hspace hrace
      cases h
      exact ⟨by omega, by simpa using hrace, rfl⟩

theorem hostMove_inv {a : HostAction} {s t : State} (hs : s.inv = true) (h : hostMove a s = .next t) : t.inv = true := by
  obtain ⟨hwf, hacc, hstatus, hengine⟩ := inv_iff.mp hs
  cases a with
  | regWrite addr width v =>
    cases h
    unfold hostWrite
    split
    · exact writeOffset_inv hs ..
    · exact hs
    · exact hs
  | regRead addr width =>
    cases h
    unfold hostRead
    split <;> exact hs
  | poke addr bytes =>
    obtain ⟨-, -, rfl⟩ := hostMemory_next h
    exact inv_iff.mpr ⟨Memory.wf_writeList hwf .., hacc, hstatus, hengine⟩
  | peek addr n =>
    obtain ⟨-, -, rfl⟩ := hostMemory_next h
    exact hs
  | hardwareReset =>
    cases h
    exact hardReset_inv hwf

/-! ### The step -/

/-- Everything a step can answer: the engine's turn, when no move is left, in a wait, or as a move of its own; the end of a wait; or a
host's move. -/
theorem step_next {s t : State} (h : step s = .next t) :
    ((s.program = [] ∨ s.regs.status.busy = true ∧ ∃ rest, s.program = .wait :: rest) ∧ engineTurn s = .next t) ∨
    ∃ rest, (s.program = .engine :: rest ∧ engineTurn { s with program := rest } = .next t) ∨
      (s.program = .wait :: rest ∧ s.regs.status.busy = false ∧ t = { s with program := rest }) ∨
      ∃ a, s.program = .host a :: rest ∧ hostMove a { s with program := rest } = .next t := by
  unfold step at h
  split at h
  · rename_i hp
    exact .inl ⟨.inl hp, h⟩
  · rename_i rest hp
    exact .inr ⟨rest, .inl ⟨hp, h⟩⟩
  · rename_i rest hp
    split at h
    · rename_i hbusy
      exact .inl ⟨.inr ⟨hbusy, rest, hp⟩, h⟩
    · rename_i hbusy
      cases h
      exact .inr ⟨rest, .inr (.inl ⟨hp, by simpa using hbusy, rfl⟩)⟩
  · rename_i a rest hp
    exact .inr ⟨rest, .inr (.inr ⟨a, hp, h⟩)⟩

/-- Settles O28: the invariant does not speak of the program, and the engine's turn and every host's move keep it. -/
theorem stepKeepsInvariant : Obligations.StepKeepsInvariant := fun s t hs h => by
  obtain ⟨-, h⟩ | ⟨rest, ⟨-, h⟩ | ⟨-, -, rfl⟩ | ⟨a, -, h⟩⟩ := step_next h
  · exact engineTurn_inv hs h
  · exact engineTurn_inv (s := { s with program := rest }) hs h
  · exact hs
  · exact hostMove_inv (s := { s with program := rest }) hs h

end Sys2Proof.Proofs
end

section
/-! PROOF. No command changes a byte outside its write range (20_memory.md R71). -/

namespace Sys2Proof.Proofs

open Sys2Proof.Machine Sys2Proof.Claims

/-! ### Stores of the writer -/

section Stores

variable {pl : Platform} {w w' : WCursor} {cap a : Nat} (hlimit : w.limit = 8 * cap) (ha : ¬(w.base ≤ a ∧ a < w.base + cap))
include hlimit ha

/-- An emit that fits stores inside the buffer only. -/
theorem read_emit {bits : List Bool} (h : emit pl bits w = .ok w') : w'.mem.read a = w.mem.read a := by
  obtain ⟨hpos, hroom, -, -, -, -, hframe⟩ := emit_frame h
  exact hframe a (by omega)

theorem read_flush (h : flush pl w = .ok w') : w'.mem.read a = w.mem.read a := by
  obtain ⟨hpos, -, -, -, -, hmem⟩ := flush_ok h
  rw [hmem]
  split
  · rfl
  · exact Memory.read_write_other _ _ (by omega)

end Stores

/-! ### The commands' rules -/

/-- What a command commits leaves the byte at `a` as it was. -/
def Spares (s : State) (a : Nat) (d : Done) : Prop := d.mem.read a = s.mem.read a

/-- Any code: what a rule stores when it succeeds is the same whatever it may raise. -/
def AnyCode (_ : Code) : Prop := True

variable {s t : State} {a : Nat}

theorem readerFixed_spares (n : Nat) : Ends AnyCode (Spares s a) (readerFixed n s) :=
  (ends_readFixed trivial ..).bind fun _ _ => rfl

theorem readerGolomb_spares (value : Nat → Word) : Ends AnyCode (Spares s a) (readerGolomb value s) :=
  (ends_readUe trivial ..).bind fun _ _ => rfl

theorem locateAb_spares : Ends AnyCode (Spares s a) (locateAb s) := by
  refine (ends_require trivial).bind fun _ _ => (ends_findStartCode ..).bind fun found _ => ?_
  cases found with
  | none => rfl
  | some i => exact (ends_sourceByte ..).bind fun _ _ => rfl

theorem locateLp_spares (n c : Nat) : Ends AnyCode (Spares s a) (locateLp s n c) := by
  refine (ends_require trivial).bind fun _ _ => ?_
  split
  · rfl
  · exact (ends_require trivial).bind fun _ _ => (ends_sizeField ..).bind fun _ _ => (ends_require trivial).bind fun _ _ =>
      (ends_sourceByte ..).bind fun _ _ => rfl

theorem dcaScanRule_spares (f : Bool) : Ends AnyCode (Spares s a) (dcaScanRule f s) := by
  unfold dcaScanRule
  split
  · rfl
  · refine (ends_require trivial).bind fun _ _ => (ends_scanLoop ..).bind fun r _ => ?_
    split <;> rfl

section Writer

variable (ha : ¬(s.regs.bwBase.toNat ≤ a ∧ a < s.regs.bwBase.toNat + s.regs.bwCap.toNat))
include ha

theorem writerEmit_spares (operandOk : Bool) (bits : List Bool) : Ends AnyCode (Spares s a) (writerEmit operandOk bits s) :=
  (ends_require trivial).bind fun _ _ => (ends_emit trivial ..).bind_ok fun _ hw => read_emit (w := writerCursor s) rfl ha hw

theorem writerFlush_spares : Ends AnyCode (Spares s a) (writerFlush s) :=
  (ends_flush trivial ..).bind_ok fun _ hw => read_flush (w := writerCursor s) rfl ha hw

end Writer

theorem codecDone_spares {x : Cmd (Nat × Memory)} (hx : Ends AnyCode (fun r => r.2.read a = s.mem.read a) x) :
    Ends AnyCode (Spares s a) (codecDone s <$> x) := by
  rw [map_eq_pure_bind]
  exact hx.bind fun _ hm => hm

section Destination

variable (ha : ¬(s.regs.dstBase.toNat ≤ a ∧ a < s.regs.dstBase.toNat + s.regs.dstCap.toNat))
include ha

/-- A store of the codec is below the capacity. -/
theorem codecStore_spares (m : Memory) (hm : m.read a = s.mem.read a) :
    ∀ o < (codecIO s).cap, ∀ b, (m.write ((codecIO s).dstBase + o) b).read a = s.mem.read a := fun o ho b => by
  have ho' : o < s.regs.dstCap.toNat := ho
  have hother : s.regs.dstBase.toNat + o ≠ a := by omega
  exact (Memory.read_write_other m b hother).trans hm

/-- The writer of the walk stays on the destination, so its emits and the flush store there only. -/
theorem spsBody_spares : Ends AnyCode (Spares s a) (spsBody s) := by
  have hrule : WalkRule (spsInput s) AnyCode fun w =>
      w.base = s.regs.dstBase.toNat ∧ w.limit = 8 * s.regs.dstCap.toNat ∧ w.mem.read a = s.mem.read a :=
    ⟨trivial, trivial, fun bits w w' ⟨hbase, hlimit, hmem⟩ hw => by
      obtain ⟨-, -, hbase', hlimit', -, -, -⟩ := emit_frame hw
      exact ⟨hbase'.trans hbase, hlimit'.trans hlimit, (read_emit hlimit (by rwa [hbase]) hw).trans hmem⟩⟩
  refine (hrule.sps.bind (fun _ => hrule.tail) (spsCursors s) ⟨rfl, rfl, rfl⟩).bind fun r ⟨hbase, hlimit, hmem⟩ => ?_
  exact (ends_flush trivial ..).bind_ok fun w' hw => (read_flush hlimit (by rwa [hbase]) hw).trans hmem

end Destination

/-! ### The end of a command -/

theorem read_of_guarded {i : Instr} {body : Host.Outcome State Fault Refusal}
    (hbody : body = .next t → t.mem.read a = s.mem.read a) (h : guarded i s body = .next t) : t.mem.read a = s.mem.read a := by
  obtain ⟨-, -, h⟩ | ⟨-, rfl⟩ := guarded_next h
  · exact hbody h
  · rfl

theorem read_of_conclude {r : Cmd Done} (hr : Ends AnyCode (Spares s a) r) (h : conclude s r = .next t) :
    t.mem.read a = s.mem.read a := by
  obtain ⟨d, rfl, rfl⟩ | ⟨c, -, rfl⟩ | ⟨-, rfl⟩ := conclude_next h
  · exact hr
  · rfl
  · rfl

/-- The unspecified bytes of a failure lie in the destination. -/
theorem read_of_concludeDst {r : Cmd Done} (ha : ¬(s.regs.dstBase.toNat ≤ a ∧ a < s.regs.dstBase.toNat + s.regs.dstCap.toNat))
    (hr : Ends AnyCode (Spares s a) r) (h : concludeDst s r = .next t) : t.mem.read a = s.mem.read a := by
  obtain ⟨d, rfl, rfl⟩ | ⟨c, -, rfl⟩ | ⟨-, rfl⟩ := concludeDst_next h
  · exact hr
  · exact Memory.read_scramble_outside _ _ _ _ (by omega)
  · rfl

/-- Settles O21: a rule stores in its range only, and so does the end of a command. -/
theorem noByteOutsideTheWriteRangeChanges : Obligations.NoByteOutsideTheWriteRangeChanges := fun i s t h a ha => by
  cases i with
  | rdBits n => exact read_of_guarded (read_of_conclude (readerFixed_spares n)) h
  | rdBit => exact read_of_guarded (read_of_conclude (readerFixed_spares 1)) h
  | rdUe => exact read_of_guarded (read_of_conclude (readerGolomb_spares _)) h
  | rdSe => exact read_of_guarded (read_of_conclude (readerGolomb_spares _)) h
  | wrBits n => exact read_of_guarded (read_of_conclude (writerEmit_spares ha _ _)) h
  | wrBit => exact read_of_guarded (read_of_conclude (writerEmit_spares ha _ _)) h
  | wrUe => exact read_of_guarded (read_of_conclude (writerEmit_spares ha _ _)) h
  | wrSe => exact read_of_guarded (read_of_conclude (writerEmit_spares ha _ _)) h
  | wrAlignFlush => exact read_of_guarded (read_of_conclude (writerFlush_spares ha)) h
  | nalUnescape =>
    exact read_of_guarded (read_of_concludeDst ha (codecDone_spares
      (ends_unescapeLoop (I := fun m => m.read a = s.mem.read a) trivial (codecStore_spares ha) rfl ..))) h
  | nalEscape =>
    exact read_of_guarded (read_of_concludeDst ha (codecDone_spares
      (ends_escapeLoop (I := fun m => m.read a = s.mem.read a) trivial (codecStore_spares ha) rfl ..))) h
  | nalLocateAb => exact read_of_guarded (read_of_conclude locateAb_spares) h
  | nalLocateLp => exact read_of_guarded (read_of_conclude (locateLp_spares _ _)) h
  | spsRewrite =>
    refine read_of_guarded (fun hbody => ?_) h
    split at hbody
    · cases hbody
      rfl
    · exact read_of_concludeDst ha (spsBody_spares ha) hbody
  | dcaScan f => exact read_of_guarded (read_of_conclude (dcaScanRule_spares f)) h
  | dcaReset =>
    exact read_of_guarded (i := .dcaReset) (read_of_conclude (r := .ok ⟨{ s.regs with dca := Dca.reset }, s.mem, .ok⟩) rfl) h

end Sys2Proof.Proofs
end

section
/-! PROOF. The SPS walk is made of its fields: what holds of the fields, and is kept by sequences and look-aheads, holds of the walk
(45_sps_rewriter.md R232 to R252). -/

namespace Sys2Proof.Proofs

open Sys2Proof.Machine

/-- The input with another memory. -/
abbrev withInput (x : SpsInput) (m : Memory) : SpsInput := { x with input := m }

/-- `R` relates parts of the walk on the input `x` to parts on `x` with the memory `m`: it holds of the fields, and every construction of
the walk keeps it. With `x.input` for `m`, and an `R` that ignores its second part, it is a property of the parts of one walk. -/
structure WalkCongruence (x : SpsInput) (m : Memory) (R : (α : Type) → Walk α → Walk α → Prop) : Prop where
  pure (α : Type) (a : α) : R α (pure a) (pure a)
  bind (α β : Type) (part part' : Walk α) (f f' : α → Walk β) : R α part part' → (∀ a, R β (f a) (f' a)) →
    R β (part >>= f) (part' >>= f')
  malformed : R Unit (throw (.raise .malformedSps)) (throw (.raise .malformedSps))
  rdU (n : Nat) : R Nat (rdU x n) (rdU (withInput x m) n)
  rdUe : R Nat (rdUe x) (rdUe (withInput x m))
  wrList (bits : List Bool) : R Unit (wrList x bits) (wrList (withInput x m) bits)
  /-- A part chosen by the reader's position. -/
  fromHere (f f' : Nat → Walk Unit) : (∀ p, R Unit (f p) (f' p)) → R Unit (fun c => f c.rpos c) (fun c => f' c.rpos c)
  /-- A part chosen by how far a look-ahead reads. -/
  lookAhead (part part' : Walk Unit) (f f' : Nat → Nat → Walk Unit) : R Unit part part' → (∀ p q, R Unit (f p q) (f' p q)) →
    R Unit (fun c => part c >>= fun r => f c.rpos r.2.rpos c) (fun c => part' c >>= fun r => f' c.rpos r.2.rpos c)

namespace WalkCongruence

variable {x : SpsInput} {m : Memory} {R : (α : Type) → Walk α → Walk α → Prop} (h : WalkCongruence x m R)
include h

/-- One part after another. -/
theorem seq {α β : Type} {part part' : Walk α} {f f' : α → Walk β} (hpart : R α part part') (hf : ∀ a, R β (f a) (f' a)) :
    R β (part >>= f) (part' >>= f') := h.bind α β part part' f f' hpart hf

theorem onlyIf (b : Bool) {part part' : Walk Unit} (hpart : R Unit part part') : R Unit (onlyIf b part) (onlyIf b part') := by
  cases b with
  | true => exact hpart
  | false => exact h.pure Unit ()

theorem times (n : Nat) {part part' : Walk Unit} (hpart : R Unit part part') : R Unit (times n part) (times n part') := by
  induction n with
  | zero => exact h.pure Unit ()
  | succ n ih => exact h.seq hpart fun _ => ih

/-! ### Fields -/

theorem rdSe : R Int (rdSe x) (rdSe (withInput x m)) := h.seq h.rdUe fun _ => h.pure _ _

theorem cpU (n : Nat) : R Nat (cpU x n) (cpU (withInput x m) n) :=
  h.seq (h.rdU n) fun _ => h.seq (h.wrList _) fun _ => h.pure _ _

theorem cpUe : R Nat (cpUe x) (cpUe (withInput x m)) := h.seq h.rdUe fun _ => h.seq (h.wrList _) fun _ => h.pure _ _

theorem cpSe : R Int (cpSe x) (cpSe (withInput x m)) := h.seq h.rdSe fun _ => h.seq (h.wrList _) fun _ => h.pure _ _

theorem keepU (n : Nat) : R Unit (keepU x n) (keepU (withInput x m) n) := h.seq (h.cpU n) fun _ => h.pure _ _

theorem keepUe : R Unit (keepUe x) (keepUe (withInput x m)) := h.seq h.cpUe fun _ => h.pure _ _

theorem keepSe : R Unit (keepSe x) (keepSe (withInput x m)) := h.seq h.cpSe fun _ => h.pure _ _

/-! ### Rows of the sequence parameter set -/

theorem profile : R Nat (walkProfile x) (walkProfile (withInput x m)) := by
  refine h.seq (h.rdU 8) fun p => h.seq (α := Unit) ?_ fun _ => h.seq (h.wrList _) fun _ => h.pure _ p
  change R Unit (if (x.allow.toList.getD (p / 32) 0).getLsbD (p % 32) then _ else _) (if _ then _ else _)
  split
  · exact h.pure Unit ()
  · exact h.malformed

theorem level : R Unit (walkLevel x) (walkLevel (withInput x m)) := h.seq (h.rdU 8) fun _ => h.wrList _

theorem scalingEntries (n : Nat) (last next : Int) :
    R Unit (scalingEntries x n last next) (scalingEntries (withInput x m) n last next) := by
  induction n generalizing last next with
  | zero => exact h.pure Unit ()
  | succ n ih =>
    unfold Machine.scalingEntries
    split
    · exact h.seq h.cpSe fun _ => ih _ _
    · exact ih _ _

theorem scalingLists (n i : Nat) : R Unit (scalingLists x n i) (scalingLists (withInput x m) n i) := by
  induction n generalizing i with
  | zero => exact h.pure Unit ()
  | succ n ih => exact h.seq (h.cpU 1) fun _ => h.seq (h.onlyIf _ (h.scalingEntries _ _ _)) fun _ => ih (i + 1)

theorem high : R Unit (walkHigh x) (walkHigh (withInput x m)) :=
  h.seq h.cpUe fun _ => h.seq (h.onlyIf _ (h.keepU 1)) fun _ => h.seq h.keepUe fun _ => h.seq h.keepUe fun _ =>
    h.seq (h.keepU 1) fun _ => h.seq (h.cpU 1) fun _ => h.onlyIf _ (h.scalingLists _ _)

theorem pocCycle : R Unit (walkPocCycle x) (walkPocCycle (withInput x m)) :=
  h.seq (h.keepU 1) fun _ => h.seq h.keepSe fun _ => h.seq h.keepSe fun _ => h.seq h.cpUe fun n => h.times n h.keepSe

theorem poc : R Unit (walkPoc x) (walkPoc (withInput x m)) :=
  h.seq h.cpUe fun _ => h.seq (h.onlyIf _ h.keepUe) fun _ => h.onlyIf _ h.pocCycle

theorem frame : R Unit (walkFrame x) (walkFrame (withInput x m)) :=
  h.seq h.keepUe fun _ => h.seq (h.keepU 1) fun _ => h.seq h.keepUe fun _ => h.seq h.keepUe fun _ => h.seq (h.cpU 1) fun _ =>
    h.seq (h.onlyIf _ (h.keepU 1)) fun _ => h.seq (h.keepU 1) fun _ => h.seq (h.cpU 1) fun _ => h.onlyIf _ (h.times 4 h.keepUe)

/-! ### VUI parameters -/

theorem aspect : R Unit (walkAspect x) (walkAspect (withInput x m)) :=
  h.seq (h.cpU 8) fun _ => h.onlyIf _ <| h.seq (h.keepU 16) fun _ => h.keepU 16

theorem signal : R Unit (walkSignal x) (walkSignal (withInput x m)) :=
  h.seq (h.keepU 3) fun _ => h.seq (h.keepU 1) fun _ => h.seq (h.cpU 1) fun _ => h.onlyIf _ <|
    h.seq (h.keepU 8) fun _ => h.seq (h.keepU 8) fun _ => h.keepU 8

theorem vuiDisplay : R Unit (walkVuiDisplay x) (walkVuiDisplay (withInput x m)) :=
  h.seq (h.cpU 1) fun _ => h.seq (h.onlyIf _ h.aspect) fun _ => h.seq (h.cpU 1) fun _ => h.seq (h.onlyIf _ (h.keepU 1)) fun _ =>
    h.seq (h.cpU 1) fun _ => h.seq (h.onlyIf _ h.signal) fun _ => h.seq (h.cpU 1) fun _ => h.onlyIf _ <|
    h.seq h.keepUe fun _ => h.keepUe

theorem timing : R Unit (walkTiming x) (walkTiming (withInput x m)) :=
  h.seq (h.rdU 32) fun _ => h.seq (h.wrList _) fun _ => h.seq (h.rdU 32) fun _ => h.seq (h.wrList _) fun _ =>
    h.seq (h.rdU 1) fun _ => h.wrList _

theorem copyBits (len : Nat) : R Unit (copyBits x len) (copyBits (withInput x m) len) := by
  unfold Machine.copyBits
  generalize len / 24 + 1 = fuel
  induction fuel generalizing len with
  | zero => exact h.pure Unit ()
  | succ fuel ih =>
    unfold copyChunks
    split
    · exact h.pure Unit ()
    · exact h.seq (h.keepU _) fun _ => ih _

theorem hrdParse : R Unit (hrdParse x) (hrdParse (withInput x m)) := by
  have hentry : R Unit (hrdEntry x) (hrdEntry (withInput x m)) :=
    h.seq h.rdUe fun _ => h.seq h.rdUe fun _ => h.seq (h.rdU 1) fun _ => h.pure _ _
  exact h.seq h.rdUe fun cc => h.seq (h.rdU 4) fun _ => h.seq (h.rdU 4) fun _ => h.seq (h.times (cc + 1) hentry) fun _ =>
    h.seq (h.rdU 5) fun _ => h.seq (h.rdU 5) fun _ => h.seq (h.rdU 5) fun _ => h.seq (h.rdU 5) fun _ => h.pure _ _

theorem hrd : R Unit (walkHrd x) (walkHrd (withInput x m)) :=
  h.lookAhead _ _ (fun p q => Machine.copyBits x (q - p)) (fun p q => Machine.copyBits (withInput x m) (q - p)) h.hrdParse
    fun _ _ => h.copyBits _

theorem vuiHrd : R Unit (walkVuiHrd x) (walkVuiHrd (withInput x m)) :=
  h.seq (h.cpU 1) fun _ => h.seq (h.onlyIf _ h.hrd) fun _ => h.seq (h.cpU 1) fun _ => h.seq (h.onlyIf _ h.hrd) fun _ =>
    h.onlyIf _ (h.keepU 1)

theorem restriction : R Unit (walkRestriction x) (walkRestriction (withInput x m)) :=
  h.seq (h.keepU 1) fun _ => h.times 6 h.keepUe

theorem vui : R Unit (walkVui x) (walkVui (withInput x m)) :=
  h.seq h.vuiDisplay fun _ => h.seq (h.cpU 1) fun _ => h.seq (h.onlyIf _ h.timing) fun _ => h.seq h.vuiHrd fun _ =>
    h.seq (h.keepU 1) fun _ => h.seq (h.cpU 1) fun _ => h.onlyIf _ h.restriction

/-! ### The walk and the trailing copy -/

theorem sps : R Unit (walkSps x) (walkSps (withInput x m)) :=
  h.seq h.profile fun _ => h.seq (h.keepU 8) fun _ => h.seq h.level fun _ => h.seq h.keepUe fun _ =>
    h.seq (h.onlyIf _ h.high) fun _ => h.seq h.keepUe fun _ => h.seq h.poc fun _ => h.seq h.frame fun _ =>
    h.seq (h.cpU 1) fun _ => h.onlyIf _ h.vui

theorem tail : R Unit (walkTail x) (walkTail (withInput x m)) :=
  h.fromHere (fun p => Machine.copyBits x (x.limit - p)) (fun p => Machine.copyBits (withInput x m) (x.limit - p))
    fun _ => h.copyBits _

end WalkCongruence

end Sys2Proof.Proofs
end

section
/-! PROOF. Two runs of a piece of a command on two memories: reads inside the same bytes, and stores, which read nothing. -/

namespace Sys2Proof.Proofs

open Sys2Proof.Machine Sys2Proof.Claims

/-! ### Two runs of a piece of a command -/

/-- Two runs end alike: both succeed, with results related by `R`, or both stop for the same reason. -/
def EndsAlike {α : Type} (R : α → α → Prop) : Cmd α → Cmd α → Prop
  | .ok a, .ok b => R a b
  | .error e, .error e' => e = e'
  | .ok _, .error _ | .error _, .ok _ => False

section

variable {α β : Type} {R : α → α → Prop} {S : β → β → Prop} {x y : Cmd α} {f g : α → Cmd β}

theorem EndsAlike.bind (hx : EndsAlike R x y) (hf : ∀ a b, R a b → EndsAlike S (f a) (g b)) :
    EndsAlike S (x >>= f) (y >>= g) := by
  match x, y with
  | .ok a, .ok b => exact hf a b hx
  | .error _, .error _ => exact hx

/-- Everything two runs that end alike can be. -/
theorem EndsAlike.cases (h : EndsAlike R x y) :
    (∃ a b, x = .ok a ∧ y = .ok b ∧ R a b) ∨ ∃ e, x = .error e ∧ y = .error e := by
  match x, y with
  | .ok a, .ok b => exact .inl ⟨a, b, rfl, rfl, h⟩
  | .error e, .error _ => exact .inr ⟨e, rfl, congrArg _ (Eq.symm h)⟩

/-- The first part is the same in both runs, and the second may use what is known of its success. -/
theorem EndsAlike.bind_eq (hxy : y = x) (hf : ∀ a, x = .ok a → EndsAlike S (f a) (g a)) :
    EndsAlike S (x >>= f) (y >>= g) := by
  subst hxy
  match y with
  | .ok a => exact hf a rfl
  | .error _ => rfl

/-- Equal results of the first part's success are enough for equal results. -/
theorem cmd_bind_congr (hf : ∀ a, x = .ok a → g a = f a) : (x >>= g) = (x >>= f) := by
  match x with
  | .ok a => exact hf a rfl
  | .error _ => rfl

end

/-! ### Reads inside the buffer -/

section Reads

variable {pl : Platform} {m m' : Memory} {base limit : Nat}

theorem fetchByte_congr {a : Nat} (h : m'.read a = m.read a) : fetchByte pl m' a = fetchByte pl m a := by
  rw [fetchByte, h, fetchByte]

theorem bitsAt_congr {p n : Nat} (h : ∀ i < n, bitAt m' base (p + i) = bitAt m base (p + i)) :
    bitsAt m' base p n = bitsAt m base p n := by
  induction n with
  | zero => rfl
  | succ n ih => rw [bitsAt, ih fun i hi => h i (by omega), h n (by omega), bitsAt]

theorem readBits_congr {p n : Nat} (h : ∀ i < n, bitAt m' base (p + i) = bitAt m base (p + i)) :
    readBits pl m' base p n = readBits pl m base p n := by
  rw [readBits, bitsAt_congr h, readBits]

variable (h : ∀ p < limit, bitAt m' base p = bitAt m base p) (pos : Nat)
include h

theorem readFixed_congr (n : Nat) : readFixed pl m' base limit pos n = readFixed pl m base limit pos n := by
  refine cmd_bind_congr fun _ hpos => cmd_bind_congr fun _ hn => readBits_congr fun i hi => h _ ?_
  simp only [require_ok, decide_eq_true_eq] at hpos hn
  omega

theorem zeroRun_congr (fuel k : Nat) : zeroRun pl m' base limit pos fuel k = zeroRun pl m base limit pos fuel k := by
  induction fuel generalizing k with
  | zero => rfl
  | succ fuel ih =>
    refine cmd_bind_congr fun _ hk => ?_
    simp only [require_ok, decide_eq_true_eq] at hk
    simp only [readBit, h _ hk, ih]

theorem readUe_congr : readUe pl m' base limit pos = readUe pl m base limit pos := by
  rw [readUe, zeroRun_congr h, readUe]
  refine cmd_bind_congr fun _ _ => cmd_bind_congr fun k _ => cmd_bind_congr fun _ _ => cmd_bind_congr fun _ hfits => ?_
  simp only [require_ok, decide_eq_true_eq] at hfits
  rw [readBits_congr fun i hi => h _ (by omega)]

end Reads

/-- The bits of a byte range on which two memories agree. -/
theorem bitAt_congr_range {m m' : Memory} {base len : Nat} (h : ∀ a, base ≤ a ∧ a < base + len → m'.read a = m.read a) :
    ∀ p < 8 * len, bitAt m' base p = bitAt m base p := fun p _ => bitAt_congr (h _ (by omega))

/-! ### Stores depend on no memory -/

section Stores

variable (pl : Platform)

theorem storeByte_alike (m m' : Memory) (a : Nat) (v : Byte) :
    EndsAlike (fun _ _ => True) (storeByte pl m a v) (storeByte pl m' a v) := by
  unfold storeByte
  split
  · trivial
  · rfl

/-- The same writer on another memory. -/
def SameWriter (w w' : WCursor) : Prop := w' = { w with mem := w'.mem }

theorem emitLoop_alike (bits : List Bool) (w : WCursor) (m : Memory) :
    EndsAlike SameWriter (emitLoop pl bits w) (emitLoop pl bits { w with mem := m }) := by
  induction bits generalizing w m with
  | nil =>
    unfold emitLoop
    split
    · rfl
    · exact (storeByte_alike ..).bind fun _ _ _ => rfl
  | cons b bs ih =>
    unfold emitLoop
    split
    · exact (storeByte_alike ..).bind fun n n' _ => ih { w with pos := w.pos + 1, acc := 0, mem := n } n'
    · exact ih { w with pos := w.pos + 1, acc := w.acc ||| streamBit b w.pos } m

theorem emit_alike (bits : List Bool) (w : WCursor) (m : Memory) :
    EndsAlike SameWriter (emit pl bits w) (emit pl bits { w with mem := m }) := by
  unfold emit
  split
  · split
    · rfl
    · exact emitLoop_alike ..
  · rfl

theorem flush_alike (w : WCursor) (m : Memory) : EndsAlike SameWriter (flush pl w) (flush pl { w with mem := m }) := by
  unfold flush
  split
  · split
    · rfl
    · exact (storeByte_alike ..).bind fun _ _ _ => rfl
  · rfl

end Stores

/-! ### The codec -/

section Codec

variable {io : CodecIO} {m' : Memory}

theorem putOut_alike (o : Nat) (m n : Memory) (b : Byte) :
    EndsAlike (fun _ _ => True) (putOut io o m b) (putOut { io with input := m' } o n b) :=
  .bind_eq rfl fun _ _ => storeByte_alike ..

/-- Two outputs of the codec of one length. -/
def SameLength (r r' : Nat × Memory) : Prop := r'.1 = r.1

theorem unescapeLoop_alike {n i : Nat} (h : ∀ j, i ≤ j → j < i + n → m'.read (io.srcBase + j) = io.input.read (io.srcBase + j))
    (z o : Nat) (m q : Memory) :
    EndsAlike SameLength (unescapeLoop io n i z o m) (unescapeLoop { io with input := m' } n i z o q) := by
  induction n generalizing i z o m q with
  | zero => rfl
  | succ n ih =>
    have hrest := ih (i := i + 1) fun j h1 h2 => h j (by omega) (by omega)
    refine .bind_eq (fetchByte_congr (h i le_rfl (by omega))) fun b _ => ?_
    split
    · exact hrest ..
    · exact (putOut_alike ..).bind fun _ _ _ => hrest ..

theorem escapeLoop_alike {n i : Nat} (h : ∀ j, i ≤ j → j < i + n → m'.read (io.srcBase + j) = io.input.read (io.srcBase + j))
    (z o : Nat) (m q : Memory) :
    EndsAlike SameLength (escapeLoop io n i z o m) (escapeLoop { io with input := m' } n i z o q) := by
  induction n generalizing i z o m q with
  | zero => rfl
  | succ n ih =>
    have hrest := ih (i := i + 1) fun j h1 h2 => h j (by omega) (by omega)
    refine .bind_eq (fetchByte_congr (h i le_rfl (by omega))) fun b _ => ?_
    split
    · exact (putOut_alike ..).bind fun _ _ _ => (putOut_alike ..).bind fun _ _ _ => hrest ..
    · exact (putOut_alike ..).bind fun _ _ _ => hrest ..

end Codec

/-! ### The scanner -/

theorem scanLoop_congr {pl : Platform} {m m' : Memory} {base n i : Nat} (d : Dca)
    (h : ∀ j, i ≤ j → j < i + n → m'.read (base + j) = m.read (base + j)) :
    scanLoop pl m' base n i d = scanLoop pl m base n i d := by
  induction n generalizing i d with
  | zero => rfl
  | succ n ih =>
    rw [scanLoop, fetchByte_congr (h i le_rfl (by omega)), scanLoop]
    refine cmd_bind_congr fun b _ => ?_
    split
    · rfl
    · exact ih _ fun j h1 h2 => h j (by omega) (by omega)

end Sys2Proof.Proofs
end

section
/-! PROOF. What a command does to the registers depends on no byte outside its read range (20_memory.md R71). -/

namespace Sys2Proof.Proofs

open Sys2Proof.Machine Sys2Proof.Claims

/-! ### The SPS walk -/

/-- The same cursors, with the writer on another memory. -/
structure SameCursors (c c' : SpsCursors) : Prop where
  rpos : c'.rpos = c.rpos
  w    : SameWriter c.w c'.w

/-- The same result, at the same cursors. -/
def SameWalk {α : Type} (r r' : α × SpsCursors) : Prop := r'.1 = r.1 ∧ SameCursors r.2 r'.2

/-- From the same cursors the two parts end alike. -/
def WalksAlike (α : Type) (part part' : Walk α) : Prop := ∀ c c', SameCursors c c' → EndsAlike SameWalk (part c) (part' c')

/-- Every part of the walk reads inside the source only, and never the destination. -/
theorem walkCongruence_alike {x : SpsInput} {m : Memory} (h : ∀ p < x.limit, bitAt m x.base p = bitAt x.input x.base p) :
    WalkCongruence x m WalksAlike where
  pure _ _ _ _ hc := ⟨rfl, hc⟩
  bind _ _ _ _ f f' hpart hf c c' hc := (hpart c c' hc).bind fun (a, d) (a', d') ⟨ha, hd⟩ => by
    cases ha
    exact hf a d d' hd
  malformed _ _ _ := rfl
  rdU n := fun c c' ⟨hpos, hw⟩ => by
    refine .bind_eq (by rw [hpos]; exact congrArg asMalformed (readFixed_congr h c.rpos n)) fun v _ => ?_
    exact ⟨rfl, by rw [hpos], hw⟩
  rdUe := fun c c' ⟨hpos, hw⟩ => by
    refine .bind_eq (by rw [hpos]; exact congrArg asMalformed (readUe_congr h c.rpos)) fun r _ => ?_
    exact ⟨rfl, rfl, hw⟩
  wrList bits := fun c c' ⟨hpos, hw⟩ => by
    have halike := emit_alike x.platform bits c.w c'.w.mem
    rw [← hw] at halike
    exact halike.bind fun _ _ hw' => ⟨rfl, hpos, hw'⟩
  fromHere f f' hf c c' hc := by
    change EndsAlike SameWalk (f c.rpos c) (f' c'.rpos c')
    rw [hc.rpos]
    exact hf _ c c' hc
  lookAhead part part' f f' hpart hf c c' hc := (hpart c c' hc).bind fun r r' ⟨_, hr⟩ => by
    rw [hc.rpos, hr.rpos]
    exact hf _ _ c c' hc

/-! ### The commands' rules -/

/-- Two commits of the same registers and code. -/
def SameCommit (d d' : Done) : Prop := d'.regs = d.regs ∧ d'.code = d.code

section Rules

variable {s : State} {m : Memory}

section Reader

variable (h : ∀ a, s.regs.brBase.toNat ≤ a ∧ a < s.regs.brBase.toNat + s.regs.brLen.toNat → m.read a = s.mem.read a)
include h

theorem readerFixed_alike (n : Nat) : EndsAlike SameCommit (readerFixed n s) (readerFixed n { s with mem := m }) :=
  .bind_eq (readFixed_congr (bitAt_congr_range h) _ n) fun _ _ => ⟨rfl, rfl⟩

theorem readerGolomb_alike (value : Nat → Word) :
    EndsAlike SameCommit (readerGolomb value s) (readerGolomb value { s with mem := m }) :=
  .bind_eq (readUe_congr (bitAt_congr_range h) _) fun _ _ => ⟨rfl, rfl⟩

end Reader

theorem writerEmit_alike (operandOk : Bool) (bits : List Bool) :
    EndsAlike SameCommit (writerEmit operandOk bits s) (writerEmit operandOk bits { s with mem := m }) :=
  .bind_eq rfl fun _ _ => (emit_alike s.platform bits (writerCursor s) m).bind fun w w' hw => by
    rw [hw]
    exact ⟨rfl, rfl⟩

theorem writerFlush_alike : EndsAlike SameCommit (writerFlush s) (writerFlush { s with mem := m }) :=
  (flush_alike s.platform (writerCursor s) m).bind fun w w' hw => by
    rw [hw]
    exact ⟨rfl, rfl⟩

theorem codecDone_alike {x y : Cmd (Nat × Memory)} (hxy : EndsAlike SameLength x y) :
    EndsAlike SameCommit (codecDone s <$> x) (codecDone { s with mem := m } <$> y) := by
  rw [map_eq_pure_bind, map_eq_pure_bind]
  exact hxy.bind fun r r' hr => ⟨by rw [codecDone, hr, codecDone], rfl⟩

/-- A start code is found with its header byte inside the source. -/
theorem findStartCode_inside {fuel i j : Nat} (hj : findStartCode s fuel i = .ok (some j)) : j + 3 < s.regs.srcLen.toNat := by
  induction fuel generalizing i with
  | zero => cases hj
  | succ fuel ih =>
    unfold findStartCode at hj
    split at hj
    · rename_i hi
      obtain ⟨_, -, hj⟩ := cmd_bind_ok.mp hj
      obtain ⟨_, -, hj⟩ := cmd_bind_ok.mp hj
      obtain ⟨_, -, hj⟩ := cmd_bind_ok.mp hj
      split at hj
      · cases hj
        exact hi
      · exact ih hj
    · cases hj

section Source

variable (h : ∀ a, s.regs.srcBase.toNat ≤ a ∧ a < s.regs.srcBase.toNat + s.regs.srcLen.toNat → m.read a = s.mem.read a)
include h

/-- The source bytes as the loops over them count. -/
theorem sourceRead_congr (i : Nat) (_ : 0 ≤ i) (hi : i < 0 + s.regs.srcLen.toNat) :
    m.read (s.regs.srcBase.toNat + i) = s.mem.read (s.regs.srcBase.toNat + i) := h _ (by omega)

theorem sourceByte_congr {i : Nat} (hi : i < s.regs.srcLen.toNat) : sourceByte { s with mem := m } i = sourceByte s i :=
  fetchByte_congr (h _ ⟨Nat.le_add_right .., Nat.add_lt_add_left hi _⟩)

theorem findStartCode_congr (fuel i : Nat) : findStartCode { s with mem := m } fuel i = findStartCode s fuel i := by
  induction fuel generalizing i with
  | zero => rfl
  | succ fuel ih =>
    unfold findStartCode
    split
    · rename_i hi
      have hinside : i + 3 < s.regs.srcLen.toNat := hi
      rw [sourceByte_congr h (by omega), sourceByte_congr h (by omega), sourceByte_congr h (by omega)]
      simp only [ih]
    · rfl

theorem locateAb_alike : EndsAlike SameCommit (locateAb s) (locateAb { s with mem := m }) := by
  refine .bind_eq rfl fun _ _ => .bind_eq (findStartCode_congr h ..) fun found hfound => ?_
  cases found with
  | none => exact ⟨rfl, rfl⟩
  | some i => exact .bind_eq (sourceByte_congr h (findStartCode_inside hfound)) fun _ _ => ⟨rfl, rfl⟩

theorem sizeField_congr {c : Nat} (hc : c + 4 ≤ s.regs.srcLen.toNat) : sizeField { s with mem := m } c = sizeField s c := by
  unfold sizeField
  rw [sourceByte_congr h (by omega), sourceByte_congr h (by omega), sourceByte_congr h (by omega), sourceByte_congr h (by omega)]

theorem locateLp_alike (c : Nat) :
    EndsAlike SameCommit (locateLp s s.regs.srcLen.toNat c) (locateLp { s with mem := m } s.regs.srcLen.toNat c) := by
  refine .bind_eq rfl fun _ _ => ?_
  split
  · exact ⟨rfl, rfl⟩
  · refine .bind_eq rfl fun _ hroom => ?_
    simp only [require_ok, decide_eq_true_eq] at hroom
    refine .bind_eq (sizeField_congr h (by omega)) fun size _ => .bind_eq rfl fun _ hsize => ?_
    simp only [require_ok, decide_eq_true_eq] at hsize
    exact .bind_eq (sourceByte_congr h (by omega)) fun _ _ => ⟨rfl, rfl⟩

theorem spsBody_alike : EndsAlike SameCommit (spsBody s) (spsBody { s with mem := m }) := by
  have hwalk := walkCongruence_alike (x := spsInput s) (m := m) (bitAt_congr_range h)
  refine EndsAlike.bind (hwalk.seq hwalk.sps (fun _ => hwalk.tail) (spsCursors s) (spsCursors { s with mem := m }) ⟨rfl, rfl⟩)
    fun r r' ⟨_, hr⟩ => ?_
  have hflush := flush_alike s.platform r.2.w r'.2.w.mem
  rw [← hr.w] at hflush
  exact hflush.bind fun w w' hw => by
    rw [hw]
    exact ⟨rfl, rfl⟩

theorem dcaScanRule_alike (f : Bool) : EndsAlike SameCommit (dcaScanRule f s) (dcaScanRule f { s with mem := m }) := by
  unfold dcaScanRule
  split
  · exact ⟨rfl, rfl⟩
  · refine .bind_eq rfl fun _ _ => .bind_eq (scanLoop_congr _ (sourceRead_congr h)) fun r _ => ?_
    split <;> exact ⟨rfl, rfl⟩

end Source

end Rules

/-! ### The end of a command -/

/-- Where the first command ends, the second ends with the same registers and the same engine. -/
def OutcomesAlike (o o' : Host.Outcome State Fault Refusal) : Prop :=
  ∀ t, o = .next t → ∃ t', o' = .next t' ∧ t'.regs = t.regs ∧ t'.engine = t.engine

section Ending

variable {s : State} {m : Memory}

theorem OutcomesAlike.next {u u' : State} (hregs : u'.regs = u.regs) (hengine : u'.engine = u.engine) :
    OutcomesAlike (.next u) (.next u') := by
  rintro t ⟨⟩
  exact ⟨u', rfl, hregs, hengine⟩

theorem commit_alike {d d' : Done} (h : SameCommit d d') :
    OutcomesAlike (.next (commit s d.regs d.mem d.code)) (.next (commit { s with mem := m } d'.regs d'.mem d'.code)) := by
  obtain ⟨hregs, hcode⟩ := h
  exact .next (by rw [commit_regs, commit_regs, hregs, hcode]) rfl

theorem guarded_alike {i : Instr} {body body' : Host.Outcome State Fault Refusal} (h : OutcomesAlike body body') :
    OutcomesAlike (guarded i s body) (guarded i { s with mem := m } body') := by
  unfold guarded
  split
  · exact h
  · exact .next rfl rfl

theorem conclude_alike {r r' : Cmd Done} (h : EndsAlike SameCommit r r') :
    OutcomesAlike (conclude s r) (conclude { s with mem := m } r') := by
  obtain ⟨d, d', rfl, rfl, hd⟩ | ⟨e, rfl, rfl⟩ := h.cases
  · exact commit_alike hd
  · cases e <;> exact .next rfl rfl

theorem concludeDst_alike {r r' : Cmd Done} (h : EndsAlike SameCommit r r') :
    OutcomesAlike (concludeDst s r) (concludeDst { s with mem := m } r') := by
  obtain ⟨d, d', rfl, rfl, hd⟩ | ⟨e, rfl, rfl⟩ := h.cases
  · exact commit_alike hd
  · cases e <;> exact .next rfl rfl

end Ending

/-- Settles O22: both runs of a command read the same bytes, and what a command stores has no part in its registers. -/
theorem registersIndependentOfUnreadMemory : Obligations.RegistersIndependentOfUnreadMemory := fun i s t m h => by
  suffices OutcomesAlike (exec i s) (exec i { s with mem := m }) from this t
  cases i with
  | rdBits n => exact guarded_alike (conclude_alike (readerFixed_alike h n))
  | rdBit => exact guarded_alike (conclude_alike (readerFixed_alike h 1))
  | rdUe => exact guarded_alike (conclude_alike (readerGolomb_alike h _))
  | rdSe => exact guarded_alike (conclude_alike (readerGolomb_alike h _))
  | wrBits n => exact guarded_alike (conclude_alike (writerEmit_alike _ _))
  | wrBit => exact guarded_alike (conclude_alike (writerEmit_alike _ _))
  | wrUe => exact guarded_alike (conclude_alike (writerEmit_alike _ _))
  | wrSe => exact guarded_alike (conclude_alike (writerEmit_alike _ _))
  | wrAlignFlush => exact guarded_alike (conclude_alike writerFlush_alike)
  | nalUnescape =>
    exact guarded_alike (concludeDst_alike (codecDone_alike
      (unescapeLoop_alike (io := codecIO s) (sourceRead_congr h) 0 0 s.mem m)))
  | nalEscape =>
    exact guarded_alike (concludeDst_alike (codecDone_alike
      (escapeLoop_alike (io := codecIO s) (sourceRead_congr h) 0 0 s.mem m)))
  | nalLocateAb => exact guarded_alike (conclude_alike (locateAb_alike h))
  | nalLocateLp => exact guarded_alike (conclude_alike (locateLp_alike h _))
  | spsRewrite =>
    refine guarded_alike ?_
    change OutcomesAlike _ (if fpsUnsupported s.regs then _ else _)
    split
    · exact .next rfl rfl
    · exact concludeDst_alike (spsBody_alike h)
  | dcaScan f => exact guarded_alike (conclude_alike (dcaScanRule_alike h f))
  | dcaReset =>
    exact guarded_alike (s := s) (m := m) (i := .dcaReset) (conclude_alike (r := .ok ⟨{ s.regs with dca := Dca.reset }, s.mem, .ok⟩)
      (r' := .ok ⟨{ s.regs with dca := Dca.reset }, m, .ok⟩) ⟨rfl, rfl⟩)

end Sys2Proof.Proofs
end

section
/-! PROOF. Refused host accesses (20_memory.md R77, 40_command_protocol.md R133). -/

namespace Sys2Proof.Proofs

open Sys2Proof.Machine Sys2Proof.Claims

theorem offsetOf_regAddr (s : State) {offset : Nat} (h : offset < 256) : offsetOf s.platform (regAddr s offset) = offset := by
  rw [offsetOf, regAddr, BitVec.add_comm, BitVec.add_sub_cancel, BitVec.toNat_ofNat, Nat.mod_eq_of_lt (by omega)]

/-- An access that begins in the block and is no aligned 32-bit word (20_memory.md R77). -/
theorem target_misfit (s : State) {offset width : Nat} (h : offset < 256) (hwidth : 0 < width)
    (hmisfit : width ≠ 4 ∨ offset % 4 ≠ 0) :
    target s.platform (regAddr s offset) width = .misfit := by
  have hfirst : (List.range width).any (fun k => decide (offsetOf s.platform (regAddr s offset + BitVec.ofNat 32 k) < blockSize)) =
      true :=
    List.any_eq_true.mpr ⟨0, List.mem_range.mpr hwidth, by simpa [offsetOf_regAddr s h, blockSize] using h⟩
  rw [target, offsetOf_regAddr s h, if_neg (by omega), if_pos hfirst]

theorem writeOffset_refused {s : State} {offset : Nat} (hctrl : offset ≠ 0x00C) (hbusy : s.regs.status.busy = true) (v : Word) :
    writeOffset s offset v = refuse s := by
  rw [writeOffset, if_neg fun h => hctrl (regAt_injective h rfl), if_pos hbusy]

/-- Settles O8: a busy write of any offset but CTRL is refused, and so is an access whose target is a misfit. -/
theorem refusedAccessOnlySetsTheMark : Obligations.RefusedAccessOnlySetsTheMark := by
  refine fun s offset width v rest hlt =>
    ⟨fun halign hctrl hbusy hp => ?_, fun hwidth hmisfit hp => ?_, fun hwidth hmisfit hp => ?_⟩
  · rw [step_regWrite hlt halign hp, writeOffset_refused (s := { s with program := rest }) hctrl hbusy]
    rfl
  · simp only [step, hp, hostMove, hostWrite, target_misfit s hlt hwidth hmisfit, refuse]
  · simp only [step, hp, hostMove, hostRead, target_misfit s hlt hwidth hmisfit, refuse]

end Sys2Proof.Proofs
end

section
/-! PROOF. A command whose first access is at an address that is not admitted leaves the engine stuck (20_memory.md R78). -/

namespace Sys2Proof.Proofs

open Sys2Proof.Machine Sys2Proof.Claims

/-! ### Checks -/

/-- A piece stuck at its first part is stuck. -/
theorem stuck_bind {α β : Type} {x : Cmd α} {f : α → Cmd β} (h : x = .error .stuck) : (x >>= f) = .error .stuck :=
  cmd_bind_error.mpr (.inl h)

theorem stuck_walk_bind {α β : Type} {x : Walk α} {f : α → Walk β} {c : SpsCursors} (h : x c = .error .stuck) :
    (x >>= f) c = .error .stuck := stuck_bind h

/-- A check that passes is no obstacle. -/
theorem require_bind {β : Type} {b : Bool} {c : Code} {f : Unit → Cmd β} (h : b = true) : (require b c >>= f) = f () := by
  rw [h]
  rfl

/-- A command with one range passes the common checks when the range is well-formed (40_command_protocol.md R134). -/
theorem rangesOk_of_readRange {r : Regs} {i : Instr} {q : Range} (hread : readRange r i = some q) (hwrite : writeRange r i = none)
    (h : inSpace q.base q.len) : rangesOk r i = true := by
  have hq : q.wellFormed = true := decide_eq_true h
  simp [rangesOk, hread, hwrite, rangeOk, disjointRanges, hq]

theorem rangesOk_of_writeRange {r : Regs} {i : Instr} {q : Range} (hread : readRange r i = none) (hwrite : writeRange r i = some q)
    (h : inSpace q.base q.len) : rangesOk r i = true := by
  have hq : q.wellFormed = true := decide_eq_true h
  simp [rangesOk, hread, hwrite, rangeOk, disjointRanges, hq]

/-- A command that passes its checks and is stuck in its rule. -/
theorem guarded_conclude_stuck {i : Instr} {s : State} {x : Cmd Done} (hi : i.wellFormed = true) (hr : rangesOk s.regs i = true)
    (hx : x = .error .stuck) : guarded i s (conclude s x) = .next (stuckState s) := by
  rw [guarded_pass hi hr, hx]
  rfl

theorem guarded_concludeDst_stuck {i : Instr} {s : State} {x : Cmd Done} (hi : i.wellFormed = true) (hr : rangesOk s.regs i = true)
    (hx : x = .error .stuck) : guarded i s (concludeDst s x) = .next (stuckState s) := by
  rw [guarded_pass hi hr, hx]
  rfl

/-! ### Reads -/

theorem fetchByte_stuck {pl : Platform} {m : Memory} {a : Nat} (h : admits pl a = false) : fetchByte pl m a = .error .stuck :=
  fetchByte_error.mpr ⟨h, rfl⟩

/-- A read before a piece that is stuck whatever the byte. -/
theorem fetch_bind_stuck {β : Type} {pl : Platform} {m : Memory} {a : Nat} {f : Byte → Cmd β} (hf : ∀ b, f b = .error .stuck) :
    (fetchByte pl m a >>= f) = .error .stuck := by
  cases hadmitted : admits pl a with
  | false => exact stuck_bind (fetchByte_stuck hadmitted)
  | true => rw [fetchByte_admitted m hadmitted]; exact hf _

section Reads

variable {s : State} {m : Memory} {base limit pos : Nat}

theorem readBits_stuck {n : Nat} (h : BitsBlocked s base pos n) : readBits s.platform m base pos n = .error .stuck := by
  obtain ⟨i, hi, hblocked⟩ := h
  rw [readBits, if_neg]
  intro hadmitted
  rw [admitsBits_iff.mp hadmitted i hi] at hblocked
  cases hblocked

theorem readFixed_stuck {n : Nat} (hfits : pos + n ≤ limit) (h : BitsBlocked s base pos n) :
    readFixed s.platform m base limit pos n = .error .stuck := by
  rw [readFixed, require_bind (by simp; omega), require_bind (by simp; omega), readBits_stuck h]

/-- A code is read from its first bit on. -/
theorem readUe_stuck (hpos : pos < limit) (h : BitsBlocked s base pos 1) : readUe s.platform m base limit pos = .error .stuck := by
  have hfirst : admits s.platform (base + pos / 8) = false := by
    obtain ⟨i, hi, hblocked⟩ := h
    rwa [show pos + i = pos by omega] at hblocked
  have hrun : zeroRun s.platform m base limit pos 32 0 = .error .stuck := by
    rw [zeroRun, require_bind (by simpa using hpos)]
    exact stuck_bind (by simp [readBit, hfirst])
  rw [readUe, require_bind (by simp; omega), hrun]
  rfl

end Reads

/-! ### Stores -/

section Stores

variable {pl : Platform} {w : WCursor}

theorem storeByte_stuck {m : Memory} {a : Nat} {v : Byte} (h : admits pl a = false) : storeByte pl m a v = .error .stuck :=
  storeByte_error.mpr ⟨h, rfl⟩

/-- Every byte that holds a bit of the partial byte or an emitted bit is stored. -/
theorem emitLoop_stuck {bits : List Bool} {p : Nat} (hfrom : 8 * (w.pos / 8) ≤ p) (hto : p < w.pos + bits.length)
    (h : admits pl (w.base + p / 8) = false) : emitLoop pl bits w = .error .stuck := by
  induction bits generalizing w with
  | nil =>
    simp only [List.length_nil, Nat.add_zero] at hto
    rw [emitLoop, if_neg (by omega), show w.pos / 8 = p / 8 by omega]
    exact stuck_bind (storeByte_stuck h)
  | cons b bs ih =>
    simp only [List.length_cons] at hto
    rw [emitLoop]
    split
    · rw [cmd_bind_error]
      by_cases hfirst : p / 8 = w.pos / 8
      · rw [show w.base + (w.pos + 1) / 8 - 1 = w.base + p / 8 by omega]
        exact .inl (storeByte_stuck h)
      · cases hadmitted : admits pl (w.base + (w.pos + 1) / 8 - 1) with
        | false => exact .inl (storeByte_stuck hadmitted)
        | true => exact .inr ⟨_, storeByte_admitted _ _ hadmitted, ih (by simp; omega) (by simp; omega) h⟩
    · exact ih (by simp; omega) (by simp; omega) h

theorem emit_stuck {bits : List Bool} (hroom : w.pos + bits.length ≤ w.limit)
    (h : ∃ i < bits.length, admits pl (w.base + (w.pos + i) / 8) = false) : emit pl bits w = .error .stuck := by
  obtain ⟨i, hi, hblocked⟩ := h
  have hbits : bits ≠ [] := List.ne_nil_of_length_pos (by omega)
  rw [emit, if_pos (by omega), if_neg hbits]
  exact emitLoop_stuck (by omega) (by omega) hblocked

theorem flush_stuck (hroom : w.pos ≤ w.limit) (hpartial : w.pos % 8 ≠ 0) (h : admits pl (w.base + w.pos / 8) = false) :
    flush pl w = .error .stuck := by
  rw [flush, if_pos hroom, if_neg hpartial]
  exact stuck_bind (storeByte_stuck h)

end Stores

/-! ### Code numbers -/

theorem codeOf_eq_seCode (v : Int) : codeOf v = seCode v := by
  unfold codeOf seCode
  split <;> omega

/-- The k of R176 is the one the writer uses. -/
theorem ueBits_length_of_isPrefix {c k : Nat} (h : IsPrefix c k) : (ueBits c).length = 2 * k + 1 := by
  rw [ueBits_length, (Nat.log2_eq_iff (by omega)).mpr h]

/-! ### The commands' rules -/

section Rules

variable {s : State}

theorem writerEmit_stuck {operandOk : Bool} {bits : List Bool} {n : Nat} (hn : bits.length = n) (hoperand : operandOk = true)
    (hroom : HasRoom s n) (h : BitsBlocked s s.regs.bwBase.toNat s.regs.bwPos.toNat n) :
    writerEmit operandOk bits s = .error .stuck := by
  subst hn
  rw [writerEmit, require_bind hoperand]
  exact stuck_bind (emit_stuck (w := writerCursor s) hroom h)

theorem writerFlush_stuck (hpartial : s.regs.bwPos.toNat % 8 ≠ 0) (hroom : HasRoom s 0)
    (h : BitsBlocked s s.regs.bwBase.toNat s.regs.bwPos.toNat 1) : writerFlush s = .error .stuck := by
  obtain ⟨i, hi, hblocked⟩ := h
  rw [show s.regs.bwPos.toNat + i = s.regs.bwPos.toNat by omega] at hblocked
  exact stuck_bind (flush_stuck (w := writerCursor s) hroom hpartial hblocked)

/-- The search begins with the byte at the cursor. -/
theorem locateAb_stuck (hroom : s.regs.locCursor.toNat + 3 < s.regs.srcLen.toNat)
    (h : admits s.platform (s.regs.srcBase.toNat + s.regs.locCursor.toNat) = false) : locateAb s = .error .stuck := by
  obtain ⟨fuel, hfuel⟩ := Nat.exists_eq_add_one_of_ne_zero (n := s.regs.srcLen.toNat) (by omega)
  rw [locateAb, require_bind (by simp; omega)]
  refine stuck_bind ?_
  rw [hfuel, findStartCode, if_pos hroom]
  exact stuck_bind (fetchByte_stuck h)

theorem sizeField_stuck {c k : Nat} (hk : k < 4) (h : admits s.platform (s.regs.srcBase.toNat + c + k) = false) :
    sizeField s c = .error .stuck := by
  unfold sizeField sourceByte
  interval_cases k
  · exact stuck_bind (fetchByte_stuck h)
  · exact fetch_bind_stuck fun _ => stuck_bind (fetchByte_stuck h)
  · exact fetch_bind_stuck fun _ => fetch_bind_stuck fun _ => stuck_bind (fetchByte_stuck h)
  · exact fetch_bind_stuck fun _ => fetch_bind_stuck fun _ => fetch_bind_stuck fun _ => stuck_bind (fetchByte_stuck h)

theorem locateLp_stuck {c k : Nat} (hroom : c + 4 ≤ s.regs.srcLen.toNat) (hk : k < 4)
    (h : admits s.platform (s.regs.srcBase.toNat + c + k) = false) : locateLp s s.regs.srcLen.toNat c = .error .stuck := by
  rw [locateLp, require_bind (by simp; omega), if_neg (by omega), require_bind (by simp; omega)]
  exact stuck_bind (sizeField_stuck hk h)

theorem dcaStateOk_iff {d : Dca} : dcaStateOk d = true ↔ ScanAccepts d := by
  simp [dcaStateOk, ScanAccepts, ← BitVec.toNat_inj, and_assoc]

section Source

variable (hlen : 0 < s.regs.srcLen.toNat) (h : admits s.platform s.regs.srcBase.toNat = false)
include hlen h

theorem dcaScanRule_stuck (haccepts : ScanAccepts s.regs.dca) : dcaScanRule false s = .error .stuck := by
  obtain ⟨n, hn⟩ := Nat.exists_eq_add_one_of_ne_zero hlen.ne'
  rw [dcaScanRule, if_neg Bool.false_ne_true, require_bind (dcaStateOk_iff.mpr haccepts), hn, scanLoop]
  exact stuck_bind (stuck_bind (fetchByte_stuck h))

theorem unescapeLoop_stuck : unescapeLoop (codecIO s) s.regs.srcLen.toNat 0 0 0 s.mem = .error .stuck := by
  obtain ⟨n, hn⟩ := Nat.exists_eq_add_one_of_ne_zero hlen.ne'
  rw [hn, unescapeLoop]
  exact stuck_bind (fetchByte_stuck h)

theorem escapeLoop_stuck : escapeLoop (codecIO s) s.regs.srcLen.toNat 0 0 0 s.mem = .error .stuck := by
  obtain ⟨n, hn⟩ := Nat.exists_eq_add_one_of_ne_zero hlen.ne'
  rw [hn, escapeLoop]
  exact stuck_bind (fetchByte_stuck h)

/-- The walk begins with the profile, in the first byte. -/
theorem spsBody_stuck : spsBody s = .error .stuck := by
  have hread : readFixed s.platform s.mem s.regs.srcBase.toNat (8 * s.regs.srcLen.toNat) 0 8 = .error .stuck :=
    readFixed_stuck (by omega) ⟨0, by omega, h⟩
  have hprofile : rdU (spsInput s) 8 (spsCursors s) = .error .stuck := stuck_bind (congrArg asMalformed hread)
  exact stuck_bind (stuck_walk_bind (stuck_walk_bind (stuck_walk_bind hprofile)))

end Source

end Rules

/-! ### The statement -/

/-- Settles O25: the checks before the first access pass, and the access is stuck. -/
theorem firstAccessNotAdmittedSticks : Obligations.FirstAccessNotAdmittedSticks := by
  refine fun s => ⟨fun hspace => ?_, fun hspace => ?_, fun hspace => ?_, fun hbuffers hlen h => ?_⟩
  · refine ⟨fun n hn hfits h => ?_, fun hpos h => ⟨?_, ?_, ?_⟩⟩
    · exact guarded_conclude_stuck (decide_eq_true hn) (rangesOk_of_readRange rfl rfl hspace) (stuck_bind (readFixed_stuck hfits h))
    · exact guarded_conclude_stuck rfl (rangesOk_of_readRange rfl rfl hspace) (stuck_bind (readFixed_stuck hpos h))
    · exact guarded_conclude_stuck rfl (rangesOk_of_readRange rfl rfl hspace) (stuck_bind (readUe_stuck hpos h))
    · exact guarded_conclude_stuck rfl (rangesOk_of_readRange rfl rfl hspace) (stuck_bind (readUe_stuck hpos h))
  · refine ⟨fun n hn hoperand hroom h => ?_, fun hoperand hroom h => ?_, fun k hoperand hk hroom h => ?_,
      fun k hoperand hk hroom h => ?_, fun hpartial hroom h => ?_⟩
    · exact guarded_conclude_stuck (decide_eq_true hn) (rangesOk_of_writeRange rfl rfl hspace)
        (writerEmit_stuck (bitsMsb_length ..) (decide_eq_true hoperand) hroom h)
    · exact guarded_conclude_stuck rfl (rangesOk_of_writeRange rfl rfl hspace)
        (writerEmit_stuck rfl (decide_eq_true hoperand) hroom h)
    · exact guarded_conclude_stuck rfl (rangesOk_of_writeRange rfl rfl hspace)
        (writerEmit_stuck (ueBits_length_of_isPrefix hk) (decide_eq_true hoperand) hroom h)
    · rw [codeOf_eq_seCode] at hk
      exact guarded_conclude_stuck rfl (rangesOk_of_writeRange rfl rfl hspace)
        (writerEmit_stuck (ueBits_length_of_isPrefix hk) (decide_eq_true hoperand) hroom h)
    · exact guarded_conclude_stuck rfl (rangesOk_of_writeRange rfl rfl hspace) (writerFlush_stuck hpartial hroom h)
  · refine ⟨fun hroom h => ?_, fun hroom ⟨k, hk, h⟩ => ?_, fun hlen h haccepts => ?_⟩
    · exact guarded_conclude_stuck rfl (rangesOk_of_readRange rfl rfl hspace) (locateAb_stuck hroom h)
    · exact guarded_conclude_stuck rfl (rangesOk_of_readRange rfl rfl hspace) (locateLp_stuck hroom hk h)
    · exact guarded_conclude_stuck rfl (rangesOk_of_readRange rfl rfl hspace) (dcaScanRule_stuck hlen h haccepts)
  · refine ⟨?_, ?_, fun hfps => ?_⟩
    · exact guarded_concludeDst_stuck (i := .nalUnescape) rfl (rangesOk_spsRewrite hbuffers)
        (congrArg (codecDone s <$> ·) (unescapeLoop_stuck hlen h))
    · exact guarded_concludeDst_stuck (i := .nalEscape) rfl (rangesOk_spsRewrite hbuffers)
        (congrArg (codecDone s <$> ·) (escapeLoop_stuck hlen h))
    · have hsupported : fpsUnsupported s.regs = false := by simpa [fpsUnsupported, FpsFits] using hfps
      rw [exec_spsRewrite, execSpsRewrite, hsupported]
      exact guarded_concludeDst_stuck rfl (rangesOk_spsRewrite hbuffers) (spsBody_stuck hlen h)

end Sys2Proof.Proofs
end

section
/-! PROOF. The fields of a command word, and which command a word with given fields decodes to (30_encoding.md R100 to R107). -/

namespace Sys2Proof.Proofs

open Sys2Proof.Machine

/-! ### The fields of a word -/

theorem opcField_toNat (w : Word) : (opcField w).toNat = w.toNat % 2 ^ 8 := by
  simp [opcField, BitVec.extractLsb'_toNat]

theorem nField_eq (w : Word) : nField w = w.toNat / 2 ^ 8 % 2 ^ 6 := by
  simp [nField, BitVec.extractLsb'_toNat, Nat.shiftRight_eq_div_pow]

theorem fField_toNat (w : Word) : (fField w).toNat = w.toNat / 2 ^ 14 % 2 := by
  rw [fField, BitVec.getLsbD, Nat.toNat_testBit]

theorem rsvField_toNat (w : Word) : (rsvField w).toNat = w.toNat / 2 ^ 15 := by
  simp only [rsvField, BitVec.extractLsb'_toNat, Nat.shiftRight_eq_div_pow]
  omega

/-- A word by its fields RSV, F, N and OPC (30_encoding.md R100, R102). -/
def fields (w : Word) : BitVec 17 × Bool × Nat × BitVec 8 := (rsvField w, fField w, nField w, opcField w)

/-- The four fields are the whole word. -/
theorem fields_injective : Function.Injective fields := fun v w h => by
  simp only [fields, Prod.mk.injEq] at h
  obtain ⟨hrsv, hf, hn, hopc⟩ := h
  have hrsv := congrArg BitVec.toNat hrsv
  have hf := congrArg Bool.toNat hf
  have hopc := congrArg BitVec.toNat hopc
  rw [rsvField_toNat, rsvField_toNat] at hrsv
  rw [fField_toNat, fField_toNat] at hf
  rw [nField_eq, nField_eq] at hn
  rw [opcField_toNat, opcField_toNat] at hopc
  exact BitVec.eq_of_toNat_eq (by omega)

/-! ### The fields of a command -/

/-- The fields of a command (30_encoding.md R102, R103): the opcode, and N or F where the command has it. -/
def fieldsOf : Instr → BitVec 17 × Bool × Nat × BitVec 8
  | .rdBits n => (0, false, n, 0x01)
  | .rdBit => (0, false, 0, 0x02)
  | .rdUe => (0, false, 0, 0x03)
  | .rdSe => (0, false, 0, 0x04)
  | .wrBits n => (0, false, n, 0x11)
  | .wrBit => (0, false, 0, 0x12)
  | .wrUe => (0, false, 0, 0x13)
  | .wrSe => (0, false, 0, 0x14)
  | .wrAlignFlush => (0, false, 0, 0x15)
  | .nalUnescape => (0, false, 0, 0x21)
  | .nalEscape => (0, false, 0, 0x22)
  | .nalLocateAb => (0, false, 0, 0x31)
  | .nalLocateLp => (0, false, 0, 0x32)
  | .spsRewrite => (0, false, 0, 0x41)
  | .dcaScan f => (0, f, 0, 0x51)
  | .dcaReset => (0, false, 0, 0x52)

/-- The count of a legal command fits the field N. -/
theorem fields_encode_counted {n : Nat} (h : n ≤ 32) :
    fields (encode (.rdBits n)) = (0, false, n, 0x01) ∧ fields (encode (.wrBits n)) = (0, false, n, 0x11) := by
  decide +revert

theorem fields_encode {i : Instr} (h : i.wellFormed = true) : fields (encode i) = fieldsOf i := by
  cases i with
  | rdBits n => exact (fields_encode_counted (of_decide_eq_true h)).1
  | wrBits n => exact (fields_encode_counted (of_decide_eq_true h)).2
  | dcaScan f => cases f <;> rfl
  | _ => rfl

/-! ### The rows of the opcode map -/

theorem buildRow_plain_ok {i j : Instr} {n : Nat} {f : Bool} :
    buildRow (.plain i) n f = .ok j ↔ (n = 0 ∧ f = false) ∧ i = j := by
  by_cases hn : n = 0 <;> cases f <;> simp [buildRow, hn]

theorem buildRow_counted_ok {write : Bool} {j : Instr} {n : Nat} {f : Bool} :
    buildRow (.counted write) n f = .ok j ↔ f = false ∧ n ≤ 32 ∧ (if write then Instr.wrBits n else .rdBits n) = j := by
  by_cases hn : 32 < n <;> cases f <;> simp [buildRow, hn]
  all_goals omega

theorem buildRow_flagged_ok {j : Instr} {n : Nat} {f : Bool} :
    buildRow .flagged n f = .ok j ↔ n = 0 ∧ Instr.dcaScan f = j := by
  by_cases hn : n = 0 <;> simp [buildRow, hn]

/-- An opcode has one row. -/
theorem rowOf_eq_some {opc : BitVec 8} {row : RowShape} : rowOf opc = some row ↔ (opc, row) ∈ opcodeMap := by
  have hone : ∀ p ∈ opcodeMap, rowOf p.1 = some p.2 := by decide
  refine ⟨fun h => ?_, hone (opc, row)⟩
  obtain ⟨l₁, l₂, hl, -⟩ := List.lookup_eq_some_iff.mp h
  rw [hl]
  exact List.mem_append_right l₁ List.mem_cons_self

/-- Everything the decoder checks (40_command_protocol.md R132). -/
theorem decode_ok_iff_row {w : Word} {i : Instr} :
    decode w = .ok i ↔
      rsvField w = 0 ∧ ∃ row, (opcField w, row) ∈ opcodeMap ∧ buildRow row (nField w) (fField w) = .ok i := by
  simp only [← rowOf_eq_some, decode]
  by_cases hrsv : rsvField w = 0
  · rw [if_neg (not_not.mpr hrsv)]
    cases rowOf (opcField w) <;> simp [hrsv]
  · rw [if_pos hrsv]
    exact iff_of_false nofun fun h => hrsv h.1

/-- No plain row is one of a command with an operand. -/
theorem fieldsOf_of_plain_row {opc : BitVec 8} {i : Instr} (h : (opc, .plain i) ∈ opcodeMap) :
    i.wellFormed = true ∧ fieldsOf i = (0, false, 0, opc) := by
  cases i <;> simp_all [opcodeMap, fieldsOf, Instr.wellFormed]

theorem opcode_of_counted_row {opc : BitVec 8} {write : Bool} (h : (opc, .counted write) ∈ opcodeMap) :
    opc = if write then 0x11 else 0x01 := by
  cases write <;> simpa [opcodeMap] using h

theorem opcode_of_flagged_row {opc : BitVec 8} (h : (opc, .flagged) ∈ opcodeMap) : opc = 0x51 := by
  simpa [opcodeMap] using h

/-- A row gives the legal commands that have its fields. -/
theorem fieldsOf_buildRow {opc : BitVec 8} {row : RowShape} {n : Nat} {f : Bool} {i : Instr} (hrow : (opc, row) ∈ opcodeMap)
    (h : buildRow row n f = .ok i) : i.wellFormed = true ∧ fieldsOf i = (0, f, n, opc) := by
  cases row with
  | plain j =>
    obtain ⟨⟨rfl, rfl⟩, rfl⟩ := buildRow_plain_ok.mp h
    exact fieldsOf_of_plain_row hrow
  | counted write =>
    obtain ⟨rfl, hn, rfl⟩ := buildRow_counted_ok.mp h
    rw [opcode_of_counted_row hrow]
    cases write <;> exact ⟨decide_eq_true hn, rfl⟩
  | flagged =>
    obtain ⟨rfl, rfl⟩ := buildRow_flagged_ok.mp h
    rw [opcode_of_flagged_row hrow]
    exact ⟨rfl, rfl⟩

/-- A legal command is what the row of its opcode gives. -/
theorem exists_row_of_wellFormed {i : Instr} (h : i.wellFormed = true) :
    ∃ row, ((fieldsOf i).2.2.2, row) ∈ opcodeMap ∧ buildRow row (fieldsOf i).2.2.1 (fieldsOf i).2.1 = .ok i := by
  cases i with
  | rdBits n => exact ⟨.counted false, rowOf_eq_some.mp rfl, buildRow_counted_ok.mpr ⟨rfl, of_decide_eq_true h, rfl⟩⟩
  | wrBits n => exact ⟨.counted true, rowOf_eq_some.mp rfl, buildRow_counted_ok.mpr ⟨rfl, of_decide_eq_true h, rfl⟩⟩
  | dcaScan f => exact ⟨.flagged, rowOf_eq_some.mp rfl, buildRow_flagged_ok.mpr ⟨rfl, rfl⟩⟩
  | _ => exact ⟨.plain _, rowOf_eq_some.mp rfl, buildRow_plain_ok.mpr ⟨⟨rfl, rfl⟩, rfl⟩⟩

/-- The decoder gives a command exactly when it is legal and the word has its fields. -/
theorem decode_ok_iff {w : Word} {i : Instr} : decode w = .ok i ↔ i.wellFormed = true ∧ fields w = fieldsOf i := by
  rw [decode_ok_iff_row]
  constructor
  · rintro ⟨hrsv, row, hrow, hbuild⟩
    obtain ⟨hwf, hfields⟩ := fieldsOf_buildRow hrow hbuild
    exact ⟨hwf, by rw [hfields, fields, hrsv]⟩
  · rintro ⟨hwf, hfields⟩
    have hrsv : (fieldsOf i).1 = 0 := by cases i <;> rfl
    have hrow := exists_row_of_wellFormed hwf
    rw [← hfields] at hrsv hrow
    exact ⟨hrsv, hrow⟩

/-! ### The round trips -/

/-- Settles O2: the encoded word has the command's fields. -/
theorem decodeOfEncodeIsTheCommand : Obligations.DecodeOfEncodeIsTheCommand := fun _ h =>
  decode_ok_iff.mpr ⟨h, fields_encode h⟩

/-- Settles O3: the word has the fields of the command's own word, and the fields are the whole word. -/
theorem decodedWordIsItsEncoding : Obligations.DecodedWordIsItsEncoding := fun _ _ h =>
  have ⟨hwf, hfields⟩ := decode_ok_iff.mp h
  ⟨fields_injective ((fields_encode hwf).trans hfields.symm), hwf⟩

end Sys2Proof.Proofs
end

section
/-! PROOF. The decoder against the (match, mask) table of the opcode map (30_encoding.md R103, R104). -/

namespace Sys2Proof.Proofs

open Sys2Proof.Machine Sys2Proof.Claims

/-! ### The columns of the table -/

/-- The bits of a word that a row fixes: all but those of the field it uses. -/
def rowMask : RowShape → Word
  | .plain _ => 0xFFFFFFFF
  | .counted _ => 0xFFFFC0FF
  | .flagged => 0xFFFFBFFF

/-- The fields N and F are 0 where the row does not use them (30_encoding.md R104 (c)). -/
def UnusedZero : RowShape → Nat → Bool → Prop
  | .plain _, n, f => n = 0 ∧ f = false
  | .counted _, _, f => f = false
  | .flagged, n, _ => n = 0

/-- The columns of the table are the opcodes and the masks of the opcode map's rows. -/
theorem matchMaskTable_eq : matchMaskTable = opcodeMap.map fun p => (p.1.setWidth 32, rowMask p.2) := rfl

theorem fields_and (v w : Word) :
    fields (v &&& w) = (rsvField v &&& rsvField w, fField v && fField w, nField v &&& nField w, opcField v &&& opcField w) := by
  simp [fields, rsvField, fField, nField, opcField, BitVec.extractLsb'_and]

theorem fields_setWidth (opc : BitVec 8) : fields (opc.setWidth 32) = (0, false, 0, opc) := by
  decide +revert

theorem nField_and_ones (w : Word) : nField w &&& 63 = nField w := by
  rw [nField, Nat.and_two_pow_sub_one_eq_mod _ 6, Nat.mod_eq_of_lt (BitVec.isLt _)]

/-- A mask of the table keeps RSV and OPC whole, and so decides them. -/
theorem and_eq_opcode_iff {w mask : Word} {opc : BitVec 8} {f : Bool} {n : Nat}
    (h : fields mask = (BitVec.allOnes 17, f, n, BitVec.allOnes 8)) :
    w &&& mask = opc.setWidth 32 ↔ rsvField w = 0 ∧ opcField w = opc ∧ nField w &&& n = 0 ∧ (fField w && f) = false := by
  simp only [fields, Prod.mk.injEq] at h
  obtain ⟨hrsv, rfl, rfl, hopc⟩ := h
  rw [← fields_injective.eq_iff, fields_and, fields_setWidth, hrsv, hopc, BitVec.and_allOnes, BitVec.and_allOnes]
  simp only [Prod.mk.injEq]
  tauto

/-- `(word & mask) = match` in terms of the fields. -/
theorem selects_iff {w : Word} {opc : BitVec 8} {row : RowShape} :
    w &&& rowMask row = opc.setWidth 32 ↔ rsvField w = 0 ∧ opcField w = opc ∧ UnusedZero row (nField w) (fField w) := by
  have hplain : fields 0xFFFFFFFF = (BitVec.allOnes 17, true, 63, BitVec.allOnes 8) := by decide
  have hcounted : fields 0xFFFFC0FF = (BitVec.allOnes 17, true, 0, BitVec.allOnes 8) := by decide
  have hflagged : fields 0xFFFFBFFF = (BitVec.allOnes 17, false, 63, BitVec.allOnes 8) := by decide
  cases row with
  | plain i => rw [rowMask, and_eq_opcode_iff hplain, nField_and_ones, Bool.and_true, UnusedZero]
  | counted write => simp only [rowMask, and_eq_opcode_iff hcounted, Nat.and_zero, Bool.and_true, true_and, UnusedZero]
  | flagged => simp only [rowMask, and_eq_opcode_iff hflagged, nField_and_ones, Bool.and_false, and_true, UnusedZero]

/-! ### Rows and legal words -/

/-- A row gives a command exactly when the fields it does not use are 0 and the count, if it has one, is at most 32. -/
theorem exists_buildRow_iff {row : RowShape} {n : Nat} {f : Bool} :
    (∃ i, buildRow row n f = .ok i) ↔ UnusedZero row n f ∧ ((∃ write, row = .counted write) → n ≤ 32) := by
  cases row with
  | plain i => simp [buildRow_plain_ok, UnusedZero]
  | counted write => simp [buildRow_counted_ok, UnusedZero]
  | flagged => simp [buildRow_flagged_ok, UnusedZero]

/-- The opcodes 0x01 and 0x11, RD_BITS and WR_BITS, are those with a count. -/
theorem counted_iff_opcode {opc : BitVec 8} {row : RowShape} (h : (opc, row) ∈ opcodeMap) :
    (∃ write, row = .counted write) ↔ opc = 0x01 ∨ opc = 0x11 := by
  have hmap : ∀ p ∈ opcodeMap, (∃ write, p.2 = .counted write) ↔ (p.1 = 0x01 ∨ p.1 = 0x11) := by decide
  exact hmap (opc, row) h

theorem and_opcode_iff {w : Word} (opc : BitVec 8) : w &&& 0xFF = opc.setWidth 32 ↔ opcField w = opc := by
  rw [← BitVec.toNat_inj, ← BitVec.toNat_inj, opcField_toNat, BitVec.toNat_and, BitVec.toNat_setWidth_of_le (by decide)]
  exact Eq.congr_left (Nat.and_two_pow_sub_one_eq_mod _ 8)

theorem and_count_toNat (w : Word) : ((w >>> 8) &&& 0x3F).toNat = nField w := by
  rw [nField_eq, BitVec.toNat_and, BitVec.toNat_ushiftRight, Nat.shiftRight_eq_div_pow]
  exact Nat.and_two_pow_sub_one_eq_mod _ 6

/-- The words of the table with N ≤ 32, in terms of the opcode map. -/
theorem legalWord_iff {w : Word} :
    legalWord w ↔ rsvField w = 0 ∧ ∃ row, (opcField w, row) ∈ opcodeMap ∧ UnusedZero row (nField w) (fField w) ∧
      ((∃ write, row = .counted write) → nField w ≤ 32) := by
  have hone : w &&& 0xFF = 0x01 ↔ opcField w = 0x01 := and_opcode_iff 0x01
  have heleven : w &&& 0xFF = 0x11 ↔ opcField w = 0x11 := and_opcode_iff 0x11
  rw [legalWord, hone, heleven, and_count_toNat, matchMaskTable_eq]
  constructor
  · rintro ⟨⟨_, hmem, hselects⟩, hcount⟩
    obtain ⟨⟨opc, row⟩, hrow, rfl⟩ := List.mem_map.mp hmem
    obtain ⟨hrsv, rfl, hunused⟩ := selects_iff.mp hselects
    exact ⟨hrsv, row, hrow, hunused, fun h => hcount ((counted_iff_opcode hrow).mp h)⟩
  · rintro ⟨hrsv, row, hrow, hunused, hcount⟩
    exact ⟨⟨_, List.mem_map_of_mem hrow, selects_iff.mpr ⟨hrsv, rfl, hunused⟩⟩,
      fun h => hcount ((counted_iff_opcode hrow).mpr h)⟩

/-- Settles O4: a row is selected when its opcode is the word's and the fields it does not use are 0, and then it gives a command when N
is at most 32. -/
theorem decoderFollowsMatchMaskTable : Obligations.DecoderFollowsMatchMaskTable := fun w => by
  rw [legalWord_iff]
  simp only [decode_ok_iff_row, ← exists_buildRow_iff]
  tauto

end Sys2Proof.Proofs
end

section
/-! PROOF. Illegal command words (30_encoding.md R104). -/

namespace Sys2Proof.Proofs

open Sys2Proof.Machine Sys2Proof.Claims

/-- The word meets one of (a) to (d) of R104, by its fields. -/
theorem illegalWord_iff {w : Word} :
    IllegalWord w ↔
      (rsvField w).toNat ≠ 0 ∨
      (opcField w).toNat ∉ [0x01, 0x02, 0x03, 0x04, 0x11, 0x12, 0x13, 0x14, 0x15, 0x21, 0x22, 0x31, 0x32, 0x41, 0x51, 0x52] ∨
      (nField w ≠ 0 ∧ (opcField w).toNat ∉ [0x01, 0x11]) ∨ ((fField w).toNat ≠ 0 ∧ (opcField w).toNat ≠ 0x51) ∨
      ((opcField w).toNat ∈ [0x01, 0x11] ∧ 32 < nField w) := by
  rw [IllegalWord, rsvField_toNat, opcField_toNat, nField_eq, fField_toNat]

/-- No legal command has the fields of an illegal word. -/
theorem decode_ne_ok_of_illegalWord {w : Word} (h : IllegalWord w) (i : Instr) : decode w ≠ .ok i := fun hi => by
  obtain ⟨hwf, hfields⟩ := decode_ok_iff.mp hi
  rw [illegalWord_iff] at h
  cases i with
  | rdBits n | wrBits n =>
    have hn : n ≤ 32 := of_decide_eq_true hwf
    simp only [fields, fieldsOf, Prod.mk.injEq] at hfields
    simp [hfields] at h
    omega
  | _ =>
    simp only [fields, fieldsOf, Prod.mk.injEq] at hfields
    simp [hfields] at h

theorem engineTurn_of_illegal {s : State} {w : Word} (hw : s.engine = .pending w) (h : ∀ i, decode w ≠ .ok i) :
    engineTurn s = .next (errorState s .illegalCommand) := by
  cases hd : decode w with
  | ok i => exact absurd hd (h i)
  | error e =>
    simp only [engineTurn, hw, pendingWord, hd, execIllegal]
    rfl

/-- Settles O6: in each of the three places the step is the engine's turn, and the word does not decode. -/
theorem illegalWordChangesOnlyStatus : Obligations.IllegalWordChangesOnlyStatus := fun s w hw h => by
  have hdecode := decode_ne_ok_of_illegalWord h
  refine ⟨fun hp => ?_, fun rest hp => ?_, fun rest hp hbusy => ?_⟩
  · rw [step, hp]
    exact engineTurn_of_illegal hw hdecode
  · rw [step, hp]
    exact engineTurn_of_illegal (s := { s with program := rest }) hw hdecode
  · simp only [step, hp, hbusy]
    exact engineTurn_of_illegal hw hdecode

end Sys2Proof.Proofs
end

section
/-! PROOF. The worked encodings, and the single-bit forms of the counted commands (30_encoding.md R106, R109). -/

namespace Sys2Proof.Proofs

open Sys2Proof.Machine Sys2Proof.Claims

/-- Settles O5: the legal words are the encodings of their commands, and the others meet R104. -/
theorem workedEncodingsDecode : Obligations.WorkedEncodingsDecode := by
  refine ⟨decodeOfEncodeIsTheCommand (.rdBits 4) rfl, decodeOfEncodeIsTheCommand (.rdBits 32) rfl,
    decodeOfEncodeIsTheCommand (.wrBits 32) rfl, decodeOfEncodeIsTheCommand (.wrBits 0) rfl,
    decodeOfEncodeIsTheCommand .nalUnescape rfl, decodeOfEncodeIsTheCommand .nalLocateAb rfl,
    decodeOfEncodeIsTheCommand .spsRewrite rfl, decodeOfEncodeIsTheCommand (.dcaScan true) rfl,
    decodeOfEncodeIsTheCommand .dcaReset rfl, fun w hw => decode_ne_ok_of_illegalWord ?_⟩
  have hillegal : ∀ w ∈ ([0x00002101, 0x00000102, 0x00008001, 0x00004052, 0x00000000] : List Word), IllegalWord w := by
    simp [IllegalWord]
  exact hillegal w hw

/-- Two commands with the same checks and the same rule have the same effect. -/
theorem guarded_congr {i j : Instr} {s : State} {body body' : Host.Outcome State Fault Refusal}
    (hwf : i.wellFormed = j.wellFormed) (hranges : rangesOk s.regs i = rangesOk s.regs j) (hbody : body = body') :
    guarded i s body = guarded j s body' := by
  rw [guarded, guarded, hwf, hranges, hbody]

/-- ARG0 ∈ {0, 1} and ARG0 < 2 are the same check. -/
theorem writerEmit_bit (s : State) :
    writerEmit (decide (s.regs.arg0.toNat ≤ 1)) [s.regs.arg0.getLsbD 0] s =
      writerEmit (decide (s.regs.arg0.toNat < 2 ^ 1)) (bitsMsb 1 s.regs.arg0.toNat) s := by
  rw [decide_eq_decide.mpr (show s.regs.arg0.toNat ≤ 1 ↔ s.regs.arg0.toNat < 2 ^ 1 by omega)]
  rfl

/-- Settles O31: the commands agree in their checks, and their rules are the same. -/
theorem singleBitFormsAgree : Obligations.SingleBitFormsAgree := fun s =>
  ⟨guarded_congr rfl rfl rfl, guarded_congr rfl rfl (congrArg (conclude s) (writerEmit_bit s))⟩

end Sys2Proof.Proofs
end

section
/-! PROOF. Why a piece of a command may stop: the codes it raises, and the addresses that are not admitted (20_memory.md R78). -/

namespace Sys2Proof.Proofs

open Sys2Proof.Machine Sys2Proof.Claims

/-- The piece succeeds with a value of `P`, or stops for a reason of `H`. -/
def Halts {α : Type} (H : Halt → Prop) (P : α → Prop) : Cmd α → Prop
  | .ok a => P a
  | .error e => H e

/-- An address of [base, base + len) that is not admitted is a reason of `H` to be stuck. -/
def StuckIn (H : Halt → Prop) (pl : Platform) (base len : Nat) : Prop :=
  ∀ a, base ≤ a ∧ a < base + len → admits pl a = false → H .stuck

variable {α β : Type} {H : Halt → Prop} {P : α → Prop} {Q : β → Prop} {pl : Platform} {base len : Nat}

theorem Halts.bind {x : Cmd α} {f : α → Cmd β} (hx : Halts H P x) (hf : ∀ a, P a → Halts H Q (f a)) : Halts H Q (x >>= f) := by
  match x with
  | .ok a => exact hf a hx
  | .error _ => exact hx

/-- What is known of the piece's success may be added to `P`. -/
theorem Halts.mono {R : α → Prop} {x : Cmd α} (hx : Halts H P x) (hR : ∀ a, x = .ok a → P a → R a) : Halts H R x := by
  match x with
  | .ok a => exact hR a rfl hx
  | .error _ => exact hx

/-! ### Checks and accesses -/

theorem halts_require {b : Bool} {c : Code} (hc : H (.raise c)) : Halts H (fun _ => b = true) (require b c) := by
  cases b with
  | true => rfl
  | false => exact hc

theorem halts_fetchByte (hin : StuckIn H pl base len) (m : Memory) {i : Nat} (hi : i < len) :
    Halts H (fun _ => True) (fetchByte pl m (base + i)) := by
  unfold fetchByte
  split
  · trivial
  · rename_i hblocked
    exact hin (base + i) (by omega) (Bool.eq_false_iff.mpr hblocked)

theorem halts_storeByte (hin : StuckIn H pl base len) (m : Memory) {a : Nat} (v : Byte) (ha : base ≤ a ∧ a < base + len) :
    Halts H (fun _ => True) (storeByte pl m a v) := by
  unfold storeByte
  split
  · trivial
  · rename_i hblocked
    exact hin a ha (Bool.eq_false_iff.mpr hblocked)

/-! ### Reads at a cursor -/

theorem halts_readBits (hin : StuckIn H pl base len) (m : Memory) {pos n : Nat} (h : pos + n ≤ 8 * len) :
    Halts H (fun _ => True) (readBits pl m base pos n) := by
  unfold readBits
  split
  · trivial
  · rename_i hblocked
    rw [admitsBits_iff] at hblocked
    push Not at hblocked
    obtain ⟨i, hi, hbit⟩ := hblocked
    exact hin (base + (pos + i) / 8) (by omega) (Bool.eq_false_iff.mpr hbit)

theorem halts_readBit (hin : StuckIn H pl base len) (m : Memory) {pos : Nat} (h : pos < 8 * len) :
    Halts H (fun _ => True) (readBit pl m base pos) := by
  unfold readBit
  split
  · trivial
  · rename_i hblocked
    exact hin (base + pos / 8) (by omega) (Bool.eq_false_iff.mpr hblocked)

section Reads

variable (hrange : H (.raise .outOfRange)) (hin : StuckIn H pl base len) (m : Memory) (pos : Nat)
include hrange hin

theorem halts_readFixed (n : Nat) : Halts H (fun _ => True) (readFixed pl m base (8 * len) pos n) :=
  (halts_require hrange).bind fun _ hpos => (halts_require hrange).bind fun _ hn =>
    halts_readBits hin m (by simp only [decide_eq_true_eq] at hpos hn; omega)

theorem halts_zeroRun (fuel k : Nat) : Halts H (fun _ => True) (zeroRun pl m base (8 * len) pos fuel k) := by
  induction fuel generalizing k with
  | zero => trivial
  | succ fuel ih =>
    refine (halts_require hrange).bind fun _ hk => (halts_readBit hin m (of_decide_eq_true hk)).bind fun b _ => ?_
    cases b with
    | true => trivial
    | false => exact ih (k + 1)

theorem halts_readUe : Halts H (fun _ => True) (readUe pl m base (8 * len) pos) :=
  (halts_require hrange).bind fun _ _ => (halts_zeroRun hrange hin m pos 32 0).bind fun k _ =>
    (halts_require hrange).bind fun _ _ => (halts_require hrange).bind fun _ hfits =>
    (halts_readBits hin m (by simp only [decide_eq_true_eq] at hfits; omega)).bind fun _ _ => trivial

end Reads

/-! ### The emit and the flush -/

theorem halts_emitLoop {bits : List Bool} {w : WCursor} (hin : StuckIn H pl w.base len) (hfits : w.pos + bits.length ≤ 8 * len) :
    Halts H (fun _ => True) (emitLoop pl bits w) := by
  induction bits generalizing w with
  | nil =>
    unfold emitLoop
    simp only [List.length_nil, Nat.add_zero] at hfits
    split
    · trivial
    · exact (halts_storeByte hin _ _ (by omega)).bind fun _ _ => trivial
  | cons b bs ih =>
    unfold emitLoop
    simp only [List.length_cons] at hfits
    split
    · exact (halts_storeByte hin _ _ (by omega)).bind fun _ _ => ih hin (by simp; omega)
    · exact ih hin (by simp; omega)

/-- The writer is at the buffer of `cap` bytes from `base` on. -/
def WritesAt (base cap : Nat) (w : WCursor) : Prop := w.base = base ∧ w.limit = 8 * cap

section Writer

variable {w : WCursor} (hrange : H (.raise .outOfRange)) (hin : StuckIn H pl base len) (hw : WritesAt base len w)
include hrange hin hw

theorem halts_emit (bits : List Bool) : Halts H (WritesAt base len) (emit pl bits w) := by
  obtain ⟨rfl, hlimit⟩ := hw
  refine Halts.mono (P := fun _ => True) ?_ fun w' hw' _ => ?_
  · unfold emit
    split
    · split
      · trivial
      · exact halts_emitLoop hin (by omega)
    · exact hrange
  · obtain ⟨-, -, hbase', hlimit', -⟩ := emit_frame hw'
    exact ⟨hbase', hlimit'.trans hlimit⟩

theorem halts_flush : Halts H (fun _ => True) (flush pl w) := by
  obtain ⟨rfl, hlimit⟩ := hw
  unfold flush
  split
  · split
    · trivial
    · exact (halts_storeByte hin _ _ (by omega)).bind fun _ _ => trivial
  · exact hrange

end Writer

/-! ### The codec -/

section Codec

variable {io : CodecIO} (hrange : H (.raise .outOfRange)) (hsrc : StuckIn H io.platform io.srcBase len)
  (hdst : StuckIn H io.platform io.dstBase io.cap)
include hrange hdst

theorem halts_putOut (o : Nat) (m : Memory) (b : Byte) : Halts H (fun _ => True) (putOut io o m b) :=
  (halts_require hrange).bind fun _ ho =>
    halts_storeByte hdst m b ⟨Nat.le_add_right .., Nat.add_lt_add_left (of_decide_eq_true ho) _⟩

include hsrc

theorem halts_unescapeLoop {n i : Nat} (hi : i + n ≤ len) (z o : Nat) (m : Memory) :
    Halts H (fun _ => True) (unescapeLoop io n i z o m) := by
  induction n generalizing i z o m with
  | zero => trivial
  | succ n ih =>
    refine (halts_fetchByte hsrc _ (by omega)).bind fun b _ => ?_
    split
    · exact ih (by omega) ..
    · exact (halts_putOut hrange hdst ..).bind fun _ _ => ih (by omega) ..

theorem halts_escapeLoop {n i : Nat} (hi : i + n ≤ len) (z o : Nat) (m : Memory) :
    Halts H (fun _ => True) (escapeLoop io n i z o m) := by
  induction n generalizing i z o m with
  | zero => trivial
  | succ n ih =>
    refine (halts_fetchByte hsrc _ (by omega)).bind fun b _ => ?_
    split
    · exact (halts_putOut hrange hdst ..).bind fun _ _ => (halts_putOut hrange hdst ..).bind fun _ _ => ih (by omega) ..
    · exact (halts_putOut hrange hdst ..).bind fun _ _ => ih (by omega) ..

end Codec

/-! ### The locator and the scanner -/

section Source

variable {s : State} (hin : StuckIn H s.platform s.regs.srcBase.toNat s.regs.srcLen.toNat)
include hin

theorem halts_sourceByte {i : Nat} (hi : i < s.regs.srcLen.toNat) : Halts H (fun _ => True) (sourceByte s i) :=
  halts_fetchByte hin s.mem hi

theorem halts_findStartCode (fuel i : Nat) :
    Halts H (fun found => ∀ j, found = some j → j + 3 < s.regs.srcLen.toNat) (findStartCode s fuel i) := by
  refine Halts.mono (P := fun _ => True) ?_ fun found hfound _ j hj => findStartCode_inside (hj ▸ hfound)
  induction fuel generalizing i with
  | zero => trivial
  | succ fuel ih =>
    unfold findStartCode
    split
    · refine (halts_sourceByte hin (by omega)).bind fun _ _ => (halts_sourceByte hin (by omega)).bind fun _ _ =>
        (halts_sourceByte hin (by omega)).bind fun _ _ => ?_
      split
      · trivial
      · exact ih (i + 1)
    · trivial

theorem halts_sizeField {c : Nat} (hc : c + 4 ≤ s.regs.srcLen.toNat) : Halts H (fun _ => True) (sizeField s c) :=
  (halts_sourceByte hin (by omega)).bind fun _ _ => (halts_sourceByte hin (by omega)).bind fun _ _ =>
    (halts_sourceByte hin (by omega)).bind fun _ _ => (halts_sourceByte hin (by omega)).bind fun _ _ => trivial

end Source

theorem halts_scanLoop (hin : StuckIn H pl base len) (m : Memory) {n i : Nat} (hi : i + n ≤ len) (d : Dca) :
    Halts H (fun _ => True) (scanLoop pl m base n i d) := by
  induction n generalizing i d with
  | zero => trivial
  | succ n ih =>
    refine (halts_fetchByte hin m (by omega)).bind fun b _ => ?_
    split
    · trivial
    · exact ih (by omega) _

/-! ### The SPS walk -/

/-- Started with a writer at the buffer, the part stops for a reason of `H` or leaves the writer at the buffer. The second part is not
looked at. -/
def WalkHalts (H : Halt → Prop) (base cap : Nat) (α : Type) (part _ : Walk α) : Prop :=
  ∀ c, WritesAt base cap c.w → Halts H (fun r => WritesAt base cap r.2.w) (part c)

theorem halts_asMalformed {x : Cmd α} (hmalformed : H (.raise .malformedSps)) (hx : Halts H P x) : Halts H P (asMalformed x) := by
  match x with
  | .ok _ => exact hx
  | .error (.raise _) => exact hmalformed
  | .error .stuck => exact hx

/-- Every part of the walk reads inside the source and writes inside the destination. -/
theorem walkCongruence_halts {x : SpsInput} {cap : Nat} (hmalformed : H (.raise .malformedSps)) (hrange : H (.raise .outOfRange))
    (hlimit : x.limit = 8 * len) (hsrc : StuckIn H x.platform x.base len) (hdst : StuckIn H x.platform base cap) :
    WalkCongruence x x.input (WalkHalts H base cap) where
  pure _ _ _ hc := hc
  bind _ _ _ _ _ _ hpart hf c hc := (hpart c hc).bind fun r hr => hf r.1 r.2 hr
  malformed _ _ := hmalformed
  rdU n c hc := (halts_asMalformed hmalformed (by rw [hlimit]; exact halts_readFixed hrange hsrc ..)).bind fun _ _ => hc
  rdUe c hc := (halts_asMalformed hmalformed (by rw [hlimit]; exact halts_readUe hrange hsrc ..)).bind fun _ _ => hc
  wrList bits c hc := (halts_emit hrange hdst hc bits).bind fun _ hw => hw
  fromHere _ _ hf c hc := hf c.rpos c hc
  lookAhead _ _ _ _ hpart hf c hc := (hpart c hc).bind fun _ _ => hf _ _ c hc

end Sys2Proof.Proofs
end

section
/-! PROOF. Everything a command can answer, and the statements that follow (40_command_protocol.md R131, R135, R136, R139). -/

namespace Sys2Proof.Proofs

open Sys2Proof.Machine Sys2Proof.Claims

/-! ### Commands by their rule -/

/-- The command's own rule, which runs after the common checks (40_command_protocol.md R134). -/
def commandRule (s : State) : Instr → Cmd Done
  | .rdBits n => readerFixed n s
  | .rdBit => readerFixed 1 s
  | .rdUe => readerGolomb (fun c => BitVec.ofNat 32 c) s
  | .rdSe => readerGolomb (fun c => BitVec.ofInt 32 (seValue c)) s
  | .wrBits n => writerEmit (decide (s.regs.arg0.toNat < 2 ^ n)) (bitsMsb n s.regs.arg0.toNat) s
  | .wrBit => writerEmit (decide (s.regs.arg0.toNat ≤ 1)) [s.regs.arg0.getLsbD 0] s
  | .wrUe => writerEmit (decide (s.regs.arg0 ≠ 0xFFFFFFFF)) (ueBits s.regs.arg0.toNat) s
  | .wrSe => writerEmit (decide (s.regs.arg0 ≠ 0x80000000)) (ueBits (seCode s.regs.arg0.toInt)) s
  | .wrAlignFlush => writerFlush s
  | .nalUnescape => codecDone s <$> unescapeLoop (codecIO s) s.regs.srcLen.toNat 0 0 0 s.mem
  | .nalEscape => codecDone s <$> escapeLoop (codecIO s) s.regs.srcLen.toNat 0 0 0 s.mem
  | .nalLocateAb => locateAb s
  | .nalLocateLp => locateLp s s.regs.srcLen.toNat s.regs.locCursor.toNat
  | .spsRewrite => spsBody s
  | .dcaScan f => dcaScanRule f s
  | .dcaReset => .ok ⟨{ s.regs with dca := Dca.reset }, s.mem, .ok⟩

/-- The end of a command whose rule gives `r` (40_command_protocol.md R135, R136); SPS_REWRITE checks the frame rate before its rule
(45_sps_rewriter.md R231). -/
def commandEnd (i : Instr) (s : State) (r : Cmd Done) : Host.Outcome State Fault Refusal :=
  if keepsMemoryOnFailure i = true then conclude s r
  else if i = .spsRewrite ∧ fpsUnsupported s.regs = true then .next (failWith s .unsupportedConfiguration)
  else concludeDst s r

/-- Every command is the common checks, its rule and its end. -/
theorem exec_eq_guarded (i : Instr) (s : State) : exec i s = guarded i s (commandEnd i s (commandRule s i)) := by
  cases i with
  | spsRewrite => simp only [commandEnd, true_and]; rfl
  | _ => rfl

/-! ### Why a rule may stop -/

/-- The codes a command may fail with (40_command_protocol.md R136, 60_exceptions.md R320): ERR = 1, but for the reserved code 3. -/
def failureCodes : List Code := [.outOfRange, .malformedSps, .unsupportedConfiguration, .illegalCommand]

theorem codeIsError_of_mem : ∀ c ∈ failureCodes, codeIsError c = true := by decide

theorem reported_of_mem : ∀ c ∈ failureCodes, Reported c := by
  unfold Reported
  decide

/-- A range of the command has an address that is not admitted (20_memory.md R71, R78). -/
def Barred (s : State) (i : Instr) : Prop := ∃ a, (MayRead s.regs a i ∨ MayWrite s.regs a i) ∧ admits s.platform a = false

/-- Why the rule of a command may stop: it fails, or an address of its ranges is not admitted. -/
def MayHalt (s : State) (i : Instr) : Halt → Prop
  | .raise c => c ∈ failureCodes
  | .stuck => Barred s i

/-- A rule that succeeds ends with a code that is no error. -/
def Succeeds (d : Done) : Prop := codeIsError d.code = false

theorem Succeeds.reported {d : Done} (h : Succeeds d) : Reported d.code := fun hc => by
  rw [Succeeds, hc] at h
  cases h

/-- The rule ends as its command may: it stops for a reason of `MayHalt`, or succeeds. -/
abbrev Concludes (s : State) (i : Instr) (r : Cmd Done) : Prop := Halts (MayHalt s i) Succeeds r

section Rules

variable {s : State} {i : Instr}

theorem mayHalt_outOfRange : MayHalt s i (.raise .outOfRange) := show Code.outOfRange ∈ failureCodes by decide

theorem mayHalt_malformedSps : MayHalt s i (.raise .malformedSps) := show Code.malformedSps ∈ failureCodes by decide

theorem mayHalt_illegalCommand : MayHalt s i (.raise .illegalCommand) := show Code.illegalCommand ∈ failureCodes by decide

section Reader

variable (hin : StuckIn (MayHalt s i) s.platform s.regs.brBase.toNat s.regs.brLen.toNat)
include hin

theorem readerFixed_halts (n : Nat) : Concludes s i (readerFixed n s) :=
  (halts_readFixed mayHalt_outOfRange hin ..).bind fun _ _ => rfl

theorem readerGolomb_halts (value : Nat → Word) : Concludes s i (readerGolomb value s) :=
  (halts_readUe mayHalt_outOfRange hin ..).bind fun _ _ => rfl

end Reader

section Writer

variable (hin : StuckIn (MayHalt s i) s.platform s.regs.bwBase.toNat s.regs.bwCap.toNat)
include hin

theorem writerEmit_halts (operandOk : Bool) (bits : List Bool) : Concludes s i (writerEmit operandOk bits s) :=
  (halts_require mayHalt_illegalCommand).bind fun _ _ =>
    (halts_emit (w := writerCursor s) mayHalt_outOfRange hin ⟨rfl, rfl⟩ bits).bind fun _ _ => rfl

theorem writerFlush_halts : Concludes s i (writerFlush s) :=
  (halts_flush (w := writerCursor s) mayHalt_outOfRange hin ⟨rfl, rfl⟩).bind fun _ _ => rfl

end Writer

theorem codecDone_halts {x : Cmd (Nat × Memory)} (hx : Halts (MayHalt s i) (fun _ => True) x) : Concludes s i (codecDone s <$> x) := by
  rw [map_eq_pure_bind]
  exact hx.bind fun _ _ => rfl

section Source

variable (hin : StuckIn (MayHalt s i) s.platform s.regs.srcBase.toNat s.regs.srcLen.toNat)
include hin

theorem locateAb_halts : Concludes s i (locateAb s) := by
  refine (halts_require mayHalt_outOfRange).bind fun _ _ => (halts_findStartCode hin ..).bind fun found hfound => ?_
  cases found with
  | none => rfl
  | some j => exact (halts_sourceByte hin (hfound j rfl)).bind fun _ _ => rfl

theorem locateLp_halts (c : Nat) : Concludes s i (locateLp s s.regs.srcLen.toNat c) := by
  refine (halts_require mayHalt_outOfRange).bind fun _ _ => ?_
  split
  · rfl
  · refine (halts_require mayHalt_outOfRange).bind fun _ hroom => ?_
    rw [decide_eq_true_eq] at hroom
    refine (halts_sizeField hin (by omega)).bind fun size _ => (halts_require mayHalt_outOfRange).bind fun _ hsize => ?_
    rw [decide_eq_true_eq] at hsize
    exact (halts_sourceByte hin (by omega)).bind fun _ _ => rfl

theorem dcaScanRule_halts (f : Bool) : Concludes s i (dcaScanRule f s) := by
  unfold dcaScanRule
  split
  · rfl
  · refine (halts_require mayHalt_illegalCommand).bind fun _ _ => (halts_scanLoop hin s.mem (by omega) _).bind fun r _ => ?_
    split <;> rfl

theorem spsBody_halts (hdst : StuckIn (MayHalt s i) s.platform s.regs.dstBase.toNat s.regs.dstCap.toNat) :
    Concludes s i (spsBody s) := by
  have hwalk : WalkCongruence (spsInput s) s.mem (WalkHalts (MayHalt s i) s.regs.dstBase.toNat s.regs.dstCap.toNat) :=
    walkCongruence_halts mayHalt_malformedSps mayHalt_outOfRange rfl hin hdst
  exact (hwalk.seq hwalk.sps (fun _ => hwalk.tail) (spsCursors s) ⟨rfl, rfl⟩).bind fun r hr =>
    (halts_flush mayHalt_outOfRange hdst hr).bind fun _ _ => rfl

end Source

end Rules

theorem commandRule_halts (s : State) (i : Instr) : Concludes s i (commandRule s i) := by
  have hread : ∀ {base len}, (∀ a, base ≤ a ∧ a < base + len → MayRead s.regs a i) →
      StuckIn (MayHalt s i) s.platform base len :=
    fun h a ha hblocked => ⟨a, .inl (h a ha), hblocked⟩
  have hwrite : ∀ {base len}, (∀ a, base ≤ a ∧ a < base + len → MayWrite s.regs a i) →
      StuckIn (MayHalt s i) s.platform base len :=
    fun h a ha hblocked => ⟨a, .inr (h a ha), hblocked⟩
  cases i with
  | rdBits n => exact readerFixed_halts (hread fun _ => id) n
  | rdBit => exact readerFixed_halts (hread fun _ => id) 1
  | rdUe => exact readerGolomb_halts (hread fun _ => id) _
  | rdSe => exact readerGolomb_halts (hread fun _ => id) fun c => BitVec.ofInt 32 (seValue c)
  | wrBits n | wrBit | wrUe | wrSe => exact writerEmit_halts (hwrite fun _ => id) _ _
  | wrAlignFlush => exact writerFlush_halts (hwrite fun _ => id)
  | nalUnescape =>
    exact codecDone_halts (halts_unescapeLoop (io := codecIO s) mayHalt_outOfRange (hread fun _ => id) (hwrite fun _ => id)
      (Nat.zero_add _).le ..)
  | nalEscape =>
    exact codecDone_halts (halts_escapeLoop (io := codecIO s) mayHalt_outOfRange (hread fun _ => id) (hwrite fun _ => id)
      (Nat.zero_add _).le ..)
  | nalLocateAb => exact locateAb_halts (hread fun _ => id)
  | nalLocateLp => exact locateLp_halts (hread fun _ => id) _
  | spsRewrite => exact spsBody_halts (hread fun _ => id) (hwrite fun _ => id)
  | dcaScan f => exact dcaScanRule_halts (hread fun _ => id) f
  | dcaReset => rfl

/-! ### Everything a command can answer -/

/-- The states a command may answer. -/
inductive Answer (i : Instr) (s : State) : State → Prop
  /-- The commit of a success (40_command_protocol.md R135). -/
  | done (d : Done) (h : Succeeds d) : Answer i s (commit s d.regs d.mem d.code)
  /-- A failure that leaves memory alone (R136). -/
  | failed (c : Code) (h : c ∈ failureCodes) : Answer i s (failWith s c)
  /-- A failure that leaves the destination unspecified (R136). -/
  | failedDst (c : Code) (h : c ∈ failureCodes) (hi : keepsMemoryOnFailure i = false) :
    Answer i s (failWith (unspecify s s.regs.dstBase.toNat s.regs.dstCap.toNat) c)
  /-- An address that is not admitted (20_memory.md R78). -/
  | stuck (h : Barred s i) : Answer i s (stick s)

theorem answer_commandEnd {i : Instr} {s t : State} (h : commandEnd i s (commandRule s i) = .next t) : Answer i s t := by
  have hrule := commandRule_halts s i
  unfold commandEnd at h
  split at h
  · obtain ⟨d, hr, rfl⟩ | ⟨c, hr, rfl⟩ | ⟨hr, rfl⟩ := conclude_next h <;> rw [hr] at hrule
    · exact .done d hrule
    · exact .failed c hrule
    · exact .stuck hrule
  · rename_i hi
    split at h
    · cases h
      exact .failed _ (by decide)
    · obtain ⟨d, hr, rfl⟩ | ⟨c, hr, rfl⟩ | ⟨hr, rfl⟩ := concludeDst_next h <;> rw [hr] at hrule
      · exact .done d hrule
      · exact .failedDst c hrule (by simpa using hi)
      · exact .stuck hrule

/-- The engine's step on a decoded command always answers a next state. -/
theorem exec_isNext (i : Instr) (s : State) : ∃ t, exec i s = .next t := by
  rw [exec_eq_guarded]
  refine guarded_isNext i s ?_
  unfold commandEnd
  split
  · exact conclude_isNext ..
  · split
    · exact ⟨_, rfl⟩
    · exact concludeDst_isNext ..

theorem exec_next {i : Instr} {s t : State} (h : exec i s = .next t) : Answer i s t := by
  rw [exec_eq_guarded] at h
  obtain ⟨-, -, h⟩ | ⟨-, rfl⟩ := guarded_next h
  · exact answer_commandEnd h
  · exact .failed _ (by decide)

/-! ### The statements -/

/-- ERR says that CODE is an error, by the list of R320. -/
theorem codeIsError_iff {c : Code} :
    codeIsError c = true ↔
      c ∈ [Code.outOfRange, .malformedSps, .malformedFrameHeader, .unsupportedConfiguration, .illegalCommand] := by
  cases c <;> decide

/-- Settles O18: each answer is a commit, with the ERR of its code, or the stuck state. -/
theorem everyCommandStepEnds : Obligations.EveryCommandStepEnds := fun i s => by
  obtain ⟨t, ht⟩ := exec_isNext i s
  refine ⟨t, ht, ?_⟩
  cases exec_next ht with
  | done d h => exact .inl ⟨rfl, rfl, h.reported, codeIsError_iff⟩
  | failed c h => exact .inl ⟨rfl, rfl, reported_of_mem c h, codeIsError_iff⟩
  | failedDst c h hi => exact .inl ⟨rfl, rfl, reported_of_mem c h, codeIsError_iff⟩
  | stuck h => exact .inr ⟨rfl, h⟩

/-- Settles O19: an answer with ERR = 1 is one of the two failures; what they leave of memory is O21. -/
theorem failureChangesOnlyStatus : Obligations.FailureChangesOnlyStatus := fun i s t ht hidle herr => by
  have hframe := noByteOutsideTheWriteRangeChanges i s t ht
  cases exec_next ht with
  | done d h => exact absurd (h.symm.trans herr) Bool.false_ne_true
  | failed c h => exact ⟨h, by rw [failWith_regs, codeIsError_of_mem c h], fun _ => rfl, hframe⟩
  | failedDst c h hi =>
    exact ⟨h, by rw [failWith_regs, codeIsError_of_mem c h]; rfl,
      fun hkeeps => absurd (hi.symm.trans hkeeps) Bool.false_ne_true, hframe⟩
  | stuck h => cases hidle

end Sys2Proof.Proofs
end

section
/-! PROOF. No command reads STATUS (40_command_protocol.md R138). -/

namespace Sys2Proof.Proofs

open Sys2Proof.Machine

/-- The state with another STATUS. -/
abbrev withStatus (s : State) (st : Status) : State := { s with regs := { s.regs with status := st } }

/-- The same commit, but for the STATUS that the commit overwrites. -/
def SameButStatus (st : Status) (d d' : Done) : Prop := d' = { d with regs := { d.regs with status := st } }

variable {s : State} {st : Status}

/-! ### The commands' rules -/

theorem codecDone_withStatus (x : Cmd (Nat × Memory)) :
    EndsAlike (SameButStatus st) (codecDone s <$> x) (codecDone (withStatus s st) <$> x) := by
  rw [map_eq_pure_bind, map_eq_pure_bind]
  exact .bind_eq rfl fun _ _ => rfl

theorem findStartCode_withStatus (fuel i : Nat) : findStartCode (withStatus s st) fuel i = findStartCode s fuel i := by
  induction fuel generalizing i with
  | zero => rfl
  | succ fuel ih =>
    unfold findStartCode
    simp only [ih]
    rfl

theorem locateAb_withStatus : EndsAlike (SameButStatus st) (locateAb s) (locateAb (withStatus s st)) := by
  refine .bind_eq rfl fun _ _ => .bind_eq (findStartCode_withStatus ..) fun found _ => ?_
  cases found with
  | none => rfl
  | some i => exact .bind_eq rfl fun _ _ => rfl

theorem locateLp_withStatus (n c : Nat) : EndsAlike (SameButStatus st) (locateLp s n c) (locateLp (withStatus s st) n c) := by
  refine .bind_eq rfl fun _ _ => ?_
  split
  · rfl
  · exact .bind_eq rfl fun _ _ => .bind_eq rfl fun _ _ => .bind_eq rfl fun _ _ => .bind_eq rfl fun _ _ => rfl

theorem dcaScanRule_withStatus (f : Bool) :
    EndsAlike (SameButStatus st) (dcaScanRule f s) (dcaScanRule f (withStatus s st)) := by
  unfold dcaScanRule
  split
  · rfl
  · refine .bind_eq rfl fun _ _ => .bind_eq rfl fun r _ => ?_
    split <;> rfl

theorem commandRule_withStatus (i : Instr) : EndsAlike (SameButStatus st) (commandRule s i) (commandRule (withStatus s st) i) := by
  cases i with
  | rdBits | rdBit | rdUe | rdSe => exact .bind_eq rfl fun _ _ => rfl
  | wrBits | wrBit | wrUe | wrSe => exact .bind_eq rfl fun _ _ => .bind_eq rfl fun _ _ => rfl
  | wrAlignFlush => exact .bind_eq rfl fun _ _ => rfl
  | nalUnescape | nalEscape => exact codecDone_withStatus _
  | nalLocateAb => exact locateAb_withStatus
  | nalLocateLp => exact locateLp_withStatus ..
  | spsRewrite => exact .bind_eq rfl fun _ _ => .bind_eq rfl fun _ _ => rfl
  | dcaScan f => exact dcaScanRule_withStatus f
  | dcaReset => rfl

/-! ### The statement -/

/-- A commit and a failure overwrite STATUS; only the stuck state keeps it. -/
theorem commandEnd_withStatus {i : Instr} {r r' : Cmd Done} (h : EndsAlike (SameButStatus st) r r') (hr : r ≠ .error .stuck) :
    commandEnd i (withStatus s st) r' = commandEnd i s r := by
  obtain ⟨d, d', rfl, rfl, rfl⟩ | ⟨e, rfl, rfl⟩ := h.cases
  · rfl
  · cases e with
    | raise c => rfl
    | stuck => exact absurd rfl hr

theorem rangesOk_withStatus (r : Regs) (i : Instr) : rangesOk { r with status := st } i = rangesOk r i := by
  cases i <;> rfl

/-- Settles O23: the checks and the rule do not read STATUS, and with every address admitted no rule is stuck. -/
theorem effectIndependentOfPreviousCode : Obligations.EffectIndependentOfPreviousCode := fun i s st hadmits => by
  have hr : commandRule s i ≠ .error .stuck := fun hstuck => by
    have hrule := commandRule_halts s i
    rw [hstuck] at hrule
    obtain ⟨a, -, hblocked⟩ := hrule
    exact absurd ((hadmits a).symm.trans hblocked) Bool.noConfusion
  rw [exec_eq_guarded, exec_eq_guarded, guarded, rangesOk_withStatus, commandEnd_withStatus (commandRule_withStatus i) hr]
  rfl

end Sys2Proof.Proofs
end

section
/-! PROOF. The common checks: ranges past the address space, and buffers that overlap (40_command_protocol.md R134). -/

namespace Sys2Proof.Proofs

open Sys2Proof.Machine Sys2Proof.Claims

/-- The claims' ranges of a command are those of the common checks. -/
theorem bufferRanges_eq (r : Regs) (i : Instr) :
    bufferRanges r i = ((readRange r i).toList ++ (writeRange r i).toList).map fun q => (q.base, q.len) := by
  cases i <;> rfl

theorem range_wellFormed_iff {q : Range} : q.wellFormed = true ↔ q.base + q.len ≤ 2 ^ 32 := decide_eq_true_iff

theorem rangeOk_iff {o : Option Range} : rangeOk o = true ↔ ∀ q ∈ o, q.base + q.len ≤ 2 ^ 32 := by
  cases o with
  | none => simp [rangeOk]
  | some q => simp [rangeOk, range_wellFormed_iff]

/-- A byte of both ranges is an overlap (20_memory.md R82). -/
theorem overlaps_of_holds {q p : Range} {a : Nat} (hq : q.holds a = true) (hp : p.holds a = true) : q.overlaps p = true := by
  simp only [Range.holds, Range.overlaps, Bool.and_eq_true, decide_eq_true_eq] at *
  omega

/-- Everything the common checks ask for. -/
theorem rangesOk_iff {r : Regs} {i : Instr} :
    rangesOk r i = true ↔
      (∀ q ∈ bufferRanges r i, q.1 + q.2 ≤ 2 ^ 32) ∧ disjointRanges (readRange r i) (writeRange r i) = true := by
  simp [rangesOk, rangeOk_iff, bufferRanges_eq, or_imp, forall_and]

theorem exec_of_rangesOk_false {i : Instr} {s : State} (h : rangesOk s.regs i = false) :
    exec i s = .next (errorState s .illegalCommand) := by
  rw [exec_eq_guarded, guarded, h, Bool.and_false]
  rfl

/-- Settles O24: the common checks fail, and they come before the rule. -/
theorem unusableRangesAreIllegal : Obligations.UnusableRangesAreIllegal := fun i s => by
  refine ⟨fun ⟨q, hq, hlong⟩ => ?_, fun hi a hsrc hsrc' hdst hdst' => ?_⟩
  · refine exec_of_rangesOk_false (Bool.eq_false_iff.mpr fun hok => ?_)
    exact absurd ((rangesOk_iff.mp hok).1 q hq) (by omega)
  · refine exec_of_rangesOk_false (Bool.eq_false_iff.mpr fun hok => ?_)
    have hdisjoint := (rangesOk_iff.mp hok).2
    have hoverlap : (sourceRange s.regs).overlaps (destRange s.regs) = true :=
      overlaps_of_holds (a := a) (by simp [Range.holds, sourceRange, hsrc, hsrc']) (by simp [Range.holds, destRange, hdst, hdst'])
    obtain rfl | rfl | rfl := hi <;> simp [disjointRanges, readRange, writeRange, hoverlap] at hdisjoint

end Sys2Proof.Proofs
end

section
/-! PROOF. What a host's move may launch, and what a register read gives (40_command_protocol.md R130, R131, R133, 10_state.md R24). -/

namespace Sys2Proof.Proofs

open Sys2Proof.Machine Sys2Proof.Claims

/-! ### Accesses of a register -/

/-- Everything an access of a register is (10_state.md R23). -/
theorem target_register_iff {s : State} {addr : Word} {width offset : Nat} (h : offset < 256) (halign : offset % 4 = 0) :
    target s.platform addr width = .register offset ↔ addr = regAddr s offset ∧ width = 4 := by
  constructor
  · intro ht
    unfold target at ht
    split at ht
    · rename_i hword
      obtain ⟨-, rfl, -⟩ := hword
      cases ht
      refine ⟨?_, rfl⟩
      rw [regAddr, offsetOf, BitVec.ofNat_toNat, BitVec.setWidth_eq, add_sub_cancel]
    · split at ht <;> cases ht
  · rintro ⟨rfl, rfl⟩
    rw [target, offsetOf_regAddr s h, if_pos ⟨h, rfl, halign⟩]

/-- The step of a host's aligned read at an offset. -/
theorem step_regRead {s : State} {offset : Nat} {rest : List Move} (h : offset < 256) (halign : offset % 4 = 0)
    (hp : s.program = .host (.regRead (regAddr s offset) 4) :: rest) :
    step s = .next { s with program := rest, observed := readOffset s.regs offset :: s.observed } := by
  simp only [step, hp, hostMove, hostRead, (target_register_iff h halign).mpr ⟨rfl, rfl⟩]

/-! ### Launches -/

/-- A write of CMD while idle (40_command_protocol.md R130). -/
theorem writeOffset_cmd {s : State} (hbusy : s.regs.status.busy = false) (w : Word) : writeOffset s 0x004 w = launch s w := by
  simp [writeOffset, hbusy, show regAt 0x004 = some .cmd from rfl, writeIdle]

/-- No write of CTRL makes a word pending. -/
theorem pending_of_writeCtrl {s : State} {v w : Word} (h : (writeCtrl s v).engine = .pending w) : s.engine = .pending w := by
  unfold writeCtrl softReset at h
  split at h
  · split at h <;> cases h
  · exact h

/-- An idle write launches at CMD only. -/
theorem pending_of_writeIdle {s : State} {v w : Word} {x : Option Reg} (h : (writeIdle s v x).engine = .pending w) :
    s.engine = .pending w ∨ x = some .cmd ∧ v = w := by
  unfold writeIdle at h
  split at h
  · exact .inr ⟨rfl, Engine.pending.inj h⟩
  · exact .inl h
  · exact .inl h

theorem pending_of_writeOffset {s : State} {offset : Nat} {v w : Word} (h : (writeOffset s offset v).engine = .pending w) :
    s.engine = .pending w ∨ s.regs.status.busy = false ∧ offset = 0x004 ∧ v = w := by
  unfold writeOffset at h
  split at h
  · exact .inl (pending_of_writeCtrl h)
  · split at h
    · exact .inl h
    · rename_i hbusy
      obtain hs | ⟨hcmd, hv⟩ := pending_of_writeIdle h
      · exact .inl hs
      · exact .inr ⟨by simpa using hbusy, regAt_injective hcmd rfl, hv⟩

/-- A host's move launches by a write of CMD only: no reset and no write of another register does. -/
theorem pending_of_hostMove {a : HostAction} {s t : State} {w : Word} (h : hostMove a s = .next t) (ht : t.engine = .pending w) :
    s.engine = .pending w ∨ s.regs.status.busy = false ∧ a = .regWrite (regAddr s 0x004) 4 w := by
  cases a with
  | regWrite addr width v =>
    cases h
    unfold hostWrite at ht
    split at ht
    · rename_i offset htarget
      obtain hs | ⟨hbusy, rfl, rfl⟩ := pending_of_writeOffset ht
      · exact .inl hs
      · obtain ⟨rfl, rfl⟩ := (target_register_iff (by decide) rfl).mp htarget
        exact .inr ⟨hbusy, rfl⟩
    · exact .inl ht
    · exact .inl ht
  | regRead addr width =>
    cases h
    unfold hostRead at ht
    split at ht <;> exact .inl ht
  | poke addr bytes =>
    obtain ⟨-, -, rfl⟩ := hostMemory_next h
    exact .inl ht
  | peek addr n =>
    obtain ⟨-, -, rfl⟩ := hostMemory_next h
    exact .inl ht
  | hardwareReset =>
    cases h
    cases ht

/-- The engine's turn ends the pending word or leaves it stuck (40_command_protocol.md R131). -/
theorem pending_of_engineTurn {s t : State} {w : Word} (h : engineTurn s = .next t) (ht : t.engine = .pending w) :
    s.engine = .pending w := by
  obtain rfl | ⟨w', -, ⟨i, -, h⟩ | rfl⟩ := engineTurn_next h
  · exact ht
  · cases exec_next h <;> cases ht
  · cases ht

/-- Settles O7: the write of CMD launches, and no turn of the engine and no other move of the host does. -/
theorem cmdWriteLaunches : Obligations.CmdWriteLaunches := by
  refine ⟨fun s w rest hp hbusy => ?_, fun s t w h ht => ?_⟩
  · rw [step_regWrite (by decide) rfl hp, writeOffset_cmd (s := { s with program := rest }) hbusy]
    rfl
  · obtain ⟨-, h⟩ | ⟨rest, ⟨-, h⟩ | ⟨-, -, rfl⟩ | ⟨a, hp, h⟩⟩ := step_next h
    · exact .inl (pending_of_engineTurn h ht)
    · exact .inl (pending_of_engineTurn (s := { s with program := rest }) h ht)
    · exact .inl ht
    · obtain hs | ⟨hbusy, rfl⟩ := pending_of_hostMove h ht
      · exact .inl hs
      · exact .inr ⟨hbusy, rest, hp⟩

/-! ### The engine's turn -/

theorem engineTurn_of_decode {s : State} {w : Word} {i : Instr} (hw : s.engine = .pending w) (hi : decode w = .ok i) :
    engineTurn s = exec i s := by
  simp only [engineTurn, hw, pendingWord, hi]

/-- Settles O1: in each of the three places the step is the engine's turn, and the word decodes. -/
theorem stepRunsDecodedCommand : Obligations.StepRunsDecodedCommand := fun s w i hw hi => by
  refine ⟨fun hp => ?_, fun rest hp => ?_, fun rest hp hbusy => ?_⟩
  · rw [step, hp]
    exact engineTurn_of_decode hw hi
  · rw [step, hp]
    exact engineTurn_of_decode (s := { s with program := rest }) hw hi
  · simp only [step, hp, hbusy]
    exact engineTurn_of_decode hw hi

/-! ### Register values -/

/-- A byte beside the eight lowest bits of a word. -/
theorem or_byte_toNat {w : Word} (hw : w.toNat < 2 ^ 8) (b : Byte) :
    (w ||| (b.zeroExtend 32 <<< 8)).toNat = w.toNat + 256 * b.toNat := by
  have hb := b.isLt
  have hshift : (b.zeroExtend 32 <<< 8).toNat = b.toNat <<< 8 := by
    simp [BitVec.toNat_shiftLeft, Nat.shiftLeft_eq]
    omega
  rw [BitVec.toNat_or, hshift, Nat.or_comm, ← Nat.shiftLeft_add_eq_or_of_lt hw, Nat.shiftLeft_eq]
  omega

/-- The fields of SPS_OVR do not overlap, so the word is their sum (10_state.md R37). -/
theorem spsOvrWord_toNat (o : SpsOvr) :
    (spsOvrWord o).toNat =
      o.levelSet.toNat + 2 * o.fpsSet.toNat + 4 * o.ffrSet.toNat + 8 * o.ffrValue.toNat + 256 * o.level.toNat := by
  have hflags : ∀ a b c d : Bool, (flagBit a 0 ||| flagBit b 1 ||| flagBit c 2 ||| flagBit d 3).toNat =
      a.toNat + 2 * b.toNat + 4 * c.toNat + 8 * d.toNat := by decide
  have hbyte : ∀ a b c d : Bool, (flagBit a 0 ||| flagBit b 1 ||| flagBit c 2 ||| flagBit d 3).toNat < 2 ^ 8 := by decide
  rw [spsOvrWord, or_byte_toNat (hbyte ..), hflags]

/-- The claims' table of register values is what the model reads, over the registers of the map but STATUS. -/
theorem registerNumbers_eq (r : Regs) :
    registerNumbers r = (registerMap.filter fun p => p.2 ≠ .status).map fun p => (p.1, (readReg r p.2).toNat) := by
  have hlen : ∀ v : Length, (v.zeroExtend 32).toNat = v.toNat := fun v => BitVec.toNat_setWidth_of_le (by decide)
  have hthree : ∀ v : BitVec 3, (v.zeroExtend 32).toNat = v.toNat := fun v => BitVec.toNat_setWidth_of_le (by decide)
  have hacc : (r.bwAcc.zeroExtend 32).toNat = r.bwAcc.toNat := BitVec.toNat_setWidth_of_le (by decide)
  have hlow : (r.dca.win.extractLsb' 0 32).toNat = r.dca.win.toNat % 2 ^ 32 := by
    rw [BitVec.extractLsb'_toNat, Nat.shiftRight_zero]
  have hhigh : (r.dca.win.extractLsb' 32 32).toNat = r.dca.win.toNat / 2 ^ 32 := by
    rw [BitVec.extractLsb'_toNat, Nat.shiftRight_eq_div_pow, Nat.mod_eq_of_lt (by have := r.dca.win.isLt; omega)]
  simp only [registerNumbers, ← hlen, ← hthree, ← hacc, ← hlow, ← hhigh, ← spsOvrWord_toNat]
  rfl

/-- Settles O9: a read only adds to what the host has seen, and the claims' table is the model's register map. -/
theorem registerReadChangesNothing : Obligations.RegisterReadChangesNothing := by
  refine ⟨fun s offset rest h halign hp => step_regRead h halign hp, fun r row hrow => ?_⟩
  rw [registerNumbers_eq] at hrow
  obtain ⟨⟨offset, x⟩, hmem, rfl⟩ := List.mem_map.mp hrow
  rw [readOffset_of_regAt (regAt_of_mem (offset, x) (List.mem_filter.mp hmem).1)]

end Sys2Proof.Proofs
end

section
/-! PROOF. The reader commands: the field, the bit and the codes at the reader's position, and their failures
(41_bitreader.md R151 to R157). -/

namespace Sys2Proof.Proofs

open Sys2Proof.Machine Sys2Proof.Claims

/-! ### Failures of the reads -/

section Reads

variable {pl : Platform} {m : Memory} {base limit pos : Nat}

/-- A check that fails ends the piece. -/
theorem require_bind_raise {β : Type} {b : Bool} {c : Code} {f : Unit → Cmd β} (h : b = false) :
    (require b c >>= f) = .error (.raise c) :=
  cmd_bind_error.mpr (.inl (require_error.mpr ⟨h, rfl⟩))

theorem readFixed_outOfRange {n : Nat} (h : limit < pos + n) : readFixed pl m base limit pos n = .error (.raise .outOfRange) := by
  rw [readFixed]
  by_cases hpos : pos ≤ limit
  · rw [require_bind (decide_eq_true hpos), require_bind_raise (decide_eq_false (by omega))]
  · rw [require_bind_raise (decide_eq_false hpos)]

/-- A run of zero bits from bit j on goes on for as many bits as the loop may read, or up to the end. -/
theorem zeroRun_of_zeros {fuel j : Nat}
    (hz : ∀ i, j ≤ i → i < j + fuel → pos + i < limit → bitAt m base (pos + i) = false)
    (ha : ∀ i, j ≤ i → pos + i < limit → admits pl (base + (pos + i) / 8) = true) :
    zeroRun pl m base limit pos fuel j = .ok (j + fuel) ∨
      zeroRun pl m base limit pos fuel j = .error (.raise .outOfRange) := by
  induction fuel generalizing j with
  | zero => exact .inl rfl
  | succ fuel ih =>
    rw [zeroRun]
    by_cases hend : pos + j < limit
    · have hbit : readBit pl m base (pos + j) = .ok false := by
        rw [readBit, if_pos (ha j (Nat.le_refl j) hend), hz j (Nat.le_refl j) (by omega) hend]
      rw [require_bind (decide_eq_true hend), hbit, show j + (fuel + 1) = j + 1 + fuel by omega]
      exact ih (fun i hi hfuel => hz i (by omega) (by omega)) fun i hi => ha i (by omega)
    · exact .inr (require_bind_raise (decide_eq_false hend))

/-- No one bit among the next 32, or up to the end; with the position at or past the end there is none. -/
theorem readUe_of_zeros (hz : ∀ i < 32, pos + i < limit → bitAt m base (pos + i) = false)
    (ha : ∀ q, pos ≤ q → q < limit → admits pl (base + q / 8) = true) :
    readUe pl m base limit pos = .error (.raise .outOfRange) := by
  rw [readUe]
  by_cases hpos : pos ≤ limit
  · rw [require_bind (decide_eq_true hpos)]
    obtain hrun | hrun := zeroRun_of_zeros (pl := pl) (fuel := 32) (j := 0) (fun i _ hi => hz i (by omega))
      fun i _ => ha (pos + i) (by omega)
    · rw [hrun]
      rfl
    · exact cmd_bind_error.mpr (.inl hrun)
  · rw [require_bind_raise (decide_eq_false hpos)]

/-- A one bit after k zeros, with fewer than k bits after it. -/
theorem readUe_of_short_suffix {k : Nat} (hk : k < 32) (hone : pos + k < limit) (hshort : limit < pos + 2 * k + 1)
    (hz : ∀ i < k, bitAt m base (pos + i) = false) (ho : bitAt m base (pos + k) = true)
    (ha : ∀ q < limit, admits pl (base + q / 8) = true) : readUe pl m base limit pos = .error (.raise .outOfRange) := by
  have hrun : zeroRun pl m base limit pos 32 0 = .ok k :=
    zeroRun_ok (Nat.zero_le k) (by omega) hone (fun i _ hi => hz i hi) ho fun i _ hi => ha _ (by omega)
  rw [readUe, require_bind (by simp; omega), hrun]
  exact (require_bind (decide_eq_true hk)).trans (require_bind_raise (decide_eq_false (by omega)))

/-- A code that is read lies inside the buffer. -/
theorem readUe_ok_inside {r : Nat × Nat} (h : readUe pl m base limit pos = .ok r) : r.2 ≤ limit := by
  simp only [readUe, cmd_bind_ok, require_ok, decide_eq_true_eq, exists_and_left, exists_const] at h
  obtain ⟨-, k, -, -, hfits, v, -, h⟩ := h
  cases h
  exact hfits

end Reads

/-! ### The end of a command -/

section End

variable {i : Instr} {s : State} {x : Cmd Done}

variable (hi : i.wellFormed = true) (hr : rangesOk s.regs i = true)
include hi hr

theorem guarded_conclude_ok {d : Done} (hx : x = .ok d) :
    guarded i s (conclude s x) = .next (commit s d.regs d.mem d.code) := by
  rw [guarded_pass hi hr, hx]
  rfl

theorem guarded_conclude_read {v : Word} {p : Nat} (hx : x = .ok (readerDone s v p)) :
    guarded i s (conclude s x) = .next (readState s v p) :=
  guarded_conclude_ok hi hr hx

theorem guarded_conclude_outOfRange (hx : x = .error (.raise .outOfRange)) :
    guarded i s (conclude s x) = .next (errorState s .outOfRange) := by
  rw [guarded_pass hi hr, hx]
  rfl

end End

/-! ### Fixed-width reads -/

/-- A count above 32 in the word of a counted command (30_encoding.md R104 (d)). -/
theorem illegalWord_of_count {opc n : Nat} (hopc : opc ∈ [0x01, 0x11]) (hn : 32 < n) (hfield : n < 64) :
    IllegalWord (BitVec.ofNat 32 (opc + 256 * n)) := by
  have hopc' : opc = 0x01 ∨ opc = 0x11 := by simpa using hopc
  have hword : (BitVec.ofNat 32 (opc + 256 * n)).toNat = opc + 256 * n := Nat.mod_eq_of_lt (by omega)
  refine .inr (.inr (.inr (.inr ?_)))
  rw [hword, show (opc + 256 * n) % 2 ^ 8 = opc by omega, show (opc + 256 * n) / 2 ^ 8 % 2 ^ 6 = n by omega]
  exact ⟨hopc, hn⟩

/-- Settles O29: a read of bits that are left succeeds, any other raises OUT_OF_RANGE, and a count above 32 does not decode. -/
theorem rdBitsReadsTheField : Obligations.RdBitsReadsTheField := fun s n => by
  refine ⟨fun hn ⟨hspace, _, hadm⟩ hfits => ?_, fun hn hspace hshort => ?_, fun hn hfield =>
    decode_ne_ok_of_illegalWord (illegalWord_of_count (by simp) hn hfield)⟩
  · rw [specBits_eq_bitsAt]
    refine guarded_conclude_read (i := .rdBits n) (decide_eq_true hn) (rangesOk_of_readRange rfl rfl hspace) ?_
    exact cmd_bind_ok.mpr ⟨_, readFixed_of_fits hfits (admits_bits hadm), rfl⟩
  · refine guarded_conclude_outOfRange (decide_eq_true hn) (rangesOk_of_readRange rfl rfl hspace) ?_
    exact cmd_bind_error.mpr (.inl (readFixed_outOfRange hshort))

theorem specBits_one (m : Memory) (base p : Nat) : specBits m base p 1 = specBit m base p := by
  simp [specBits]

/-- Settles O30: RD_BIT is RD_BITS 1. -/
theorem rdBitReadsTheBit : Obligations.RdBitReadsTheBit := fun s => by
  obtain ⟨hread, hfail, -⟩ := rdBitsReadsTheField s 1
  rw [(singleBitFormsAgree s).1, ← specBits_one]
  exact ⟨hread (by omega), hfail (by omega)⟩

/-! ### Exp-Golomb reads -/

theorem specBit_eq_zero {m : Memory} {base p : Nat} : specBit m base p = 0 ↔ bitAt m base p = false := by
  rw [specBit_eq_bitAt, Bool.toNat_eq_zero]

theorem specBit_eq_one {m : Memory} {base p : Nat} : specBit m base p = 1 ↔ bitAt m base p = true := by
  rw [specBit_eq_bitAt, Bool.toNat_eq_one]

section Golomb

variable {s : State} {i : Instr} {value : Nat → Word}

/-- The claims' code is the model's. -/
theorem golombAt_iff {k : Nat} :
    GolombAt s k ↔ GolombCode s.mem s.regs.brBase.toNat (readerLimit s.regs) s.regs.brPos.toNat k := by
  simp only [GolombAt, specBit_eq_zero, specBit_eq_one]
  exact ⟨fun ⟨hk, hfits, hz, ho⟩ => ⟨by omega, hfits, hz, ho⟩, fun ⟨hk, hfits, hz, ho⟩ => ⟨by omega, hfits, hz, ho⟩⟩

theorem golombNumber_eq_codeNumber (k : Nat) :
    golombNumber s k = codeNumber s.mem s.regs.brBase.toNat s.regs.brPos.toNat k := by
  rw [golombNumber, specBits_eq_bitsAt, codeNumber]

theorem readerGolomb_of_golombAt {k : Nat} (hready : ReaderReady s) (h : GolombAt s k) :
    readerGolomb value s = .ok (readerDone s (value (golombNumber s k)) (s.regs.brPos.toNat + 2 * k + 1)) := by
  obtain ⟨-, -, hadm⟩ := hready
  rw [golombNumber_eq_codeNumber]
  exact cmd_bind_ok.mpr ⟨_, readUe_of_golombCode (golombAt_iff.mp h) (admits_bits hadm), rfl⟩

theorem readerGolomb_of_golombFails (hready : ReaderReady s) (h : GolombFails s) :
    readerGolomb value s = .error (.raise .outOfRange) := by
  obtain ⟨-, -, hadm⟩ := hready
  have hbits := admits_bits hadm
  refine cmd_bind_error.mpr (.inl ?_)
  simp only [GolombFails, specBit_eq_zero, specBit_eq_one] at h
  obtain hz | ⟨-, hz⟩ | ⟨k, hk, hz, hone, ho, hshort⟩ := h
  · exact readUe_of_zeros (fun i _ hi => hz _ (by omega) hi) fun q _ => hbits q
  · exact readUe_of_zeros (fun i hi _ => hz i hi) fun q _ => hbits q
  · exact readUe_of_short_suffix (by omega) hone hshort hz ho hbits

theorem readerGolomb_of_past_end (h : 8 * s.regs.brLen.toNat < s.regs.brPos.toNat) :
    readerGolomb value s = .error (.raise .outOfRange) := by
  have hlimit : readerLimit s.regs < s.regs.brPos.toNat := h
  exact cmd_bind_error.mpr (.inl (readUe_of_zeros (fun _ _ _ => by omega) fun _ _ _ => by omega))

/-- A command that reads a code and stores its code number as `value` says: what it answers for a whole code, for a code that is not
whole, and past the end (41_bitreader.md R155). -/
theorem golombReader_answers (hi : i.wellFormed = true) (hread : readRange s.regs i = some (readerRange s.regs))
    (hwrite : writeRange s.regs i = none) :
    (∀ k, ReaderReady s → GolombAt s k → guarded i s (conclude s (readerGolomb value s)) =
      .next (readState s (value (golombNumber s k)) (s.regs.brPos.toNat + 2 * k + 1))) ∧
    (ReaderReady s → GolombFails s → guarded i s (conclude s (readerGolomb value s)) = .next (errorState s .outOfRange)) ∧
    (inSpace s.regs.brBase.toNat s.regs.brLen.toNat → 8 * s.regs.brLen.toNat < s.regs.brPos.toNat →
      guarded i s (conclude s (readerGolomb value s)) = .next (errorState s .outOfRange)) :=
  have hranges (h : inSpace s.regs.brBase.toNat s.regs.brLen.toNat) : rangesOk s.regs i = true :=
    rangesOk_of_readRange hread hwrite h
  ⟨fun _ hready h => guarded_conclude_read hi (hranges hready.1) (readerGolomb_of_golombAt hready h),
   fun hready h => guarded_conclude_outOfRange hi (hranges hready.1) (readerGolomb_of_golombFails hready h),
   fun hspace h => guarded_conclude_outOfRange hi (hranges hspace) (readerGolomb_of_past_end h)⟩

end Golomb

/-- Settles O32: RD_UE stores the code number itself. -/
theorem rdUeReadsTheCode : Obligations.RdUeReadsTheCode := fun _ => golombReader_answers (i := .rdUe) rfl rfl rfl

/-- Settles O33: RD_SE stores the signed value of the code number. -/
theorem rdSeReadsTheSignedCode : Obligations.RdSeReadsTheSignedCode := fun _ => by
  simp only [signedOf_eq_seValue]
  exact golombReader_answers (i := .rdSe) (value := fun c => BitVec.ofInt 32 (seValue c)) rfl rfl rfl

/-! ### The reader's position -/

/-- The reader's position is not past the end of its buffer (41_bitreader.md R151). -/
def PositionInside (r : Regs) : Prop := r.brPos.toNat ≤ 8 * r.brLen.toNat

section Position

variable {s : State}

/-- BR_POS does not wrap: 8 · BR_LEN < 2^32. -/
theorem readerDone_inside {p : Nat} (v : Word) (h : p ≤ readerLimit s.regs) : PositionInside (readerDone s v p).regs := by
  have hlimit : readerLimit s.regs = 8 * s.regs.brLen.toNat := rfl
  have hlen := s.regs.brLen.isLt
  have hpos : (BitVec.ofNat 32 p).toNat = p := Nat.mod_eq_of_lt (by omega)
  exact hpos.trans_le h

theorem readerFixed_inside (n : Nat) : Ends AnyCode (fun d => PositionInside d.regs) (readerFixed n s) :=
  (ends_readFixed trivial ..).bind_ok fun _ hv => by
    obtain ⟨hpos, hn, -, -⟩ := readFixed_ok.mp hv
    exact readerDone_inside _ (by omega)

theorem readerGolomb_inside (value : Nat → Word) : Ends AnyCode (fun d => PositionInside d.regs) (readerGolomb value s) :=
  (ends_readUe trivial ..).bind_ok fun _ hr => readerDone_inside _ (readUe_ok_inside hr)

/-- A failure and the stuck state keep the position. -/
theorem inside_of_guarded_conclude {i : Instr} {t : State} {x : Cmd Done} (hs : PositionInside s.regs)
    (hx : Ends AnyCode (fun d => PositionInside d.regs) x) (h : guarded i s (conclude s x) = .next t) : PositionInside t.regs := by
  obtain ⟨-, -, h⟩ | ⟨-, rfl⟩ := guarded_next h
  · obtain ⟨d, rfl, rfl⟩ | ⟨c, -, rfl⟩ | ⟨-, rfl⟩ := conclude_next h
    · exact hx
    · exact hs
    · exact hs
  · exact hs

end Position

/-- Settles O34: past the end no bit is left to read, not even for RD_BITS 0, and a read that succeeds ends inside. -/
theorem readerPositionIsChecked : Obligations.ReaderPositionIsChecked := fun s i hi hspace => by
  obtain ⟨n, hn, rfl⟩ | rfl | rfl | rfl := hi
  · exact ⟨fun hpast => (rdBitsReadsTheField s n).2.1 hn hspace (by omega),
      fun hs _ => inside_of_guarded_conclude hs (readerFixed_inside n)⟩
  · exact ⟨fun hpast => (rdBitReadsTheBit s).2 hspace (by omega),
      fun hs _ => inside_of_guarded_conclude hs (readerFixed_inside 1)⟩
  · exact ⟨(rdUeReadsTheCode s).2.2 hspace, fun hs _ => inside_of_guarded_conclude hs (readerGolomb_inside _)⟩
  · exact ⟨(rdSeReadsTheSignedCode s).2.2 hspace, fun hs _ => inside_of_guarded_conclude hs (readerGolomb_inside _)⟩

end Sys2Proof.Proofs
end

section
/-! PROOF. The writer commands that emit: what a ready writer's emit leaves, and the flush after it (42_bitwriter.md R171, R179). -/

namespace Sys2Proof.Proofs

open Sys2Proof.Machine Sys2Proof.Claims

/-! ### The emit of a ready writer -/

/-- The bits of the writer's buffer from the last byte boundary on, after the emit of `bits`: the earlier bits of the partial byte, then
the emitted bits. -/
def streamAfter (s : State) (bits : List Bool) (p : Nat) : Bool :=
  if p < s.regs.bwPos.toNat then s.regs.bwAcc.getLsbD (7 - p % 8) else bits.getD (p - s.regs.bwPos.toNat) false

section Emit

variable {s : State} {bits : List Bool}

theorem stream_streamAfter : stream (streamAfter s bits) s.regs.bwPos.toNat bits.length = bits := by
  refine List.ext_getElem (stream_length ..) fun i _ hi => ?_
  simp [stream, streamAfter, hi]

/-- The bits of a zero-filled byte from the position on are 0 (10_state.md R34). -/
theorem ZeroFilled.getLsbD {acc : Byte} {pos j : Nat} (h : ZeroFilled acc pos) (hj : pos % 8 ≤ j) (hj' : j < 8) :
    acc.getLsbD (7 - j) = false := by
  have hbit := Nat.testBit_mod_two_pow acc.toNat (8 - pos % 8) (7 - j)
  rw [show acc.toNat % 2 ^ (8 - pos % 8) = 0 from h, decide_eq_true (by omega), Bool.true_and, Nat.zero_testBit] at hbit
  exact hbit.symm

theorem partialByte_writerCursor (h : accOk s.regs = true) : PartialByte (streamAfter s bits) (writerCursor s) := fun j hj => by
  have hpos : (writerCursor s).pos = s.regs.bwPos.toNat := rfl
  by_cases hold : j < s.regs.bwPos.toNat % 8
  · rw [hpos, decide_eq_true hold, Bool.true_and, streamAfter, if_pos (by omega),
      show (8 * (s.regs.bwPos.toNat / 8) + j) % 8 = j by omega]
    rfl
  · rw [hpos, decide_eq_false hold, Bool.false_and]
    exact (accOk_iff.mp h).getLsbD (by omega) hj

variable (hready : WriterReady s) (hroom : HasRoom s bits.length)
include hready hroom

/-- An emit that fits succeeds: the partial byte and the bytes it stores hold the stream, and zeros after it (R171, R172). -/
theorem emit_of_ready :
    ∃ w, emit s.platform bits (writerCursor s) = .ok w ∧ PartialByte (streamAfter s bits) w ∧
      (bits.length ≠ 0 → ∀ p, 8 * (s.regs.bwPos.toNat / 8) ≤ p → p < 8 * ((s.regs.bwPos.toNat + bits.length + 7) / 8) →
        bitAt w.mem s.regs.bwBase.toNat p = (decide (p < s.regs.bwPos.toNat + bits.length) && streamAfter s bits p)) := by
  obtain ⟨hspace, hadm, hacc, hwf⟩ := hready
  unfold HasRoom at hroom
  have hend : s.regs.bwBase.toNat + (s.regs.bwPos.toNat + bits.length + 7) / 8 ≤ addressSpace :=
    (by omega : _ ≤ s.regs.bwBase.toNat + s.regs.bwCap.toNat).trans hspace
  have h := emit_stream (pl := s.platform) (w := writerCursor s) hwf (partialByte_writerCursor (bits := bits) hacc) hroom
    (fun p _ hp => admits_bits hadm p (hp.trans_le hroom)) hend
  rwa [show (writerCursor s).pos = s.regs.bwPos.toNat from rfl, stream_streamAfter] at h

end Emit

/-! ### The state after an emit -/

/-- `s` after a writer command that left the cursor `w` (42_bitwriter.md R170). -/
def writtenState (s : State) (w : WCursor) : State :=
  okState s { s.regs with bwPos := BitVec.ofNat 32 w.pos, bwAcc := w.acc } w.mem

/-- The memory holds the emitted bits, at the position they were emitted from. -/
def HoldsBits (s : State) (bits : List Bool) (m : Memory) : Prop :=
  ∀ p, s.regs.bwPos.toNat ≤ p → p < s.regs.bwPos.toNat + bits.length → bitAt m s.regs.bwBase.toNat p = streamAfter s bits p

/-- The cursor after the emit of `bits` in the state `s`. -/
structure Written (s : State) (bits : List Bool) (w : WCursor) : Prop where
  base  : w.base = s.regs.bwBase.toNat
  limit : w.limit = writerLimit s.regs
  pos   : w.pos = s.regs.bwPos.toNat + bits.length
  wf    : w.mem.wf = true
  acc   : PartialByte (streamAfter s bits) w
  holds : HoldsBits s bits w.mem

section Written

variable {s : State} {bits : List Bool}

theorem HoldsBits.stream_eq {m : Memory} (h : HoldsBits s bits m) :
    stream (bitAt m s.regs.bwBase.toNat) s.regs.bwPos.toNat bits.length = bits :=
  (stream_congr h).trans stream_streamAfter

/-- A writer command with a legal operand and room for its bits. -/
theorem guarded_writerEmit {i : Instr} {operandOk : Bool} (hi : i.wellFormed = true) (hr : rangesOk s.regs i = true)
    (hoperand : operandOk = true) (hready : WriterReady s) (hroom : HasRoom s bits.length) :
    ∃ w, guarded i s (conclude s (writerEmit operandOk bits s)) = .next (writtenState s w) ∧ Written s bits w := by
  obtain ⟨w, hemit, hacc, hbits⟩ := emit_of_ready hready hroom
  obtain ⟨-, -, -, hwf⟩ := hready
  obtain ⟨-, -, hbase, hlimit, hpos, hwf', -⟩ := emit_frame hemit
  refine ⟨w, ?_, hbase, hlimit, hpos, hwf' hwf, hacc, fun p hp hp' => ?_⟩
  · exact guarded_conclude_ok hi hr (d := writerDone s w)
      (cmd_bind_ok.mpr ⟨(), require_ok.mpr hoperand, cmd_bind_ok.mpr ⟨w, hemit, rfl⟩⟩)
  · rw [hbits (by omega) p (by omega) (by omega), decide_eq_true hp', Bool.true_and]

/-- The next writer command starts where the emit ended: BW_POS does not wrap. -/
theorem Written.writerCursor_eq {w : WCursor} (h : Written s bits w) (hroom : HasRoom s bits.length) :
    writerCursor (writtenState s w) = w := by
  have hcap := s.regs.bwCap.isLt
  unfold HasRoom at hroom
  have hpos : (BitVec.ofNat 32 w.pos).toNat = w.pos := Nat.mod_eq_of_lt (by rw [h.pos]; omega)
  have hcursor : writerCursor (writtenState s w) =
    ⟨s.regs.bwBase.toNat, writerLimit s.regs, (BitVec.ofNat 32 w.pos).toNat, w.acc, w.mem⟩ := rfl
  rw [hcursor, hpos, ← h.base, ← h.limit]

end Written

/-! ### The flush -/

/-- A flush stores the partial byte, whose bits the stream has already. -/
theorem flush_of_partialByte {pl : Platform} {out : Nat → Bool} {w : WCursor} (hwf : w.mem.wf = true) (hacc : PartialByte out w)
    (hroom : w.pos ≤ w.limit) (ha : w.pos % 8 ≠ 0 → admits pl (w.base + w.pos / 8) = true)
    (hs : w.pos % 8 ≠ 0 → w.base + w.pos / 8 < addressSpace) :
    ∃ w', flush pl w = .ok w' ∧ ∀ p < w.pos, bitAt w.mem w.base p = out p → bitAt w'.mem w.base p = out p := by
  rw [flush, if_pos hroom]
  split
  · exact ⟨_, rfl, fun _ _ hold => hold⟩
  · rename_i hpartial
    rw [storeByte_admitted _ _ (ha hpartial)]
    refine ⟨_, rfl, fun p hp hold => ?_⟩
    by_cases hbyte : p / 8 = w.pos / 8
    · change bitAt (w.mem.write _ _) _ _ = _
      rw [← hbyte, bitAt_write_same hwf _ (hbyte ▸ hs hpartial), hacc _ (by omega), decide_eq_true (by omega), Bool.true_and,
        show 8 * (w.pos / 8) + p % 8 = p by omega]
    · rw [← hold]
      exact bitAt_congr (Memory.read_write_other _ _ (by omega))

/-- WR_ALIGN_FLUSH after an emit keeps the emitted bits. -/
theorem exec_wrAlignFlush_writtenState {s : State} {bits : List Bool} {w : WCursor} (h : Written s bits w) (hready : WriterReady s)
    (hroom : HasRoom s bits.length) :
    ∃ u, exec .wrAlignFlush (writtenState s w) = .next u ∧ u.platform = s.platform ∧ HoldsBits s bits u.mem := by
  obtain ⟨hspace, hadm, -, -⟩ := hready
  have hranges : rangesOk (writtenState s w).regs .wrAlignFlush = true := rangesOk_of_writeRange rfl rfl hspace
  have hcursor := h.writerCursor_eq hroom
  obtain ⟨hbase, hlimit, hpos, hwf, hacc, hholds⟩ := h
  have hlimit' : w.limit = 8 * s.regs.bwCap.toNat := hlimit
  unfold HasRoom at hroom
  unfold inSpace at hspace
  obtain ⟨w', hflush, hkeeps⟩ := flush_of_partialByte (pl := s.platform) hwf hacc (by omega)
    (fun _ => by rw [hbase]; exact hadm _ (by omega)) (fun _ => by unfold addressSpace; omega)
  rw [hbase] at hkeeps
  have hrule : writerFlush (writtenState s w) = .ok _ := cmd_bind_ok.mpr ⟨w', by rw [hcursor]; exact hflush, rfl⟩
  exact ⟨_, guarded_conclude_ok rfl hranges hrule, rfl, fun p hp hp' => hkeeps p (by omega) (hholds p hp hp')⟩

end Sys2Proof.Proofs
end

section
/-! PROOF. What a writer command wrote, the reader command of the same form reads back (41_bitreader.md R154, R158). -/

namespace Sys2Proof.Proofs

open Sys2Proof.Machine Sys2Proof.Claims

/-! ### Reading emitted bits -/

section Stream

variable {m : Memory} {base p : Nat}

/-- The n low bits of v, as the writer emits them, are read as the n low bits of v. -/
theorem bitsAt_of_stream {n v : Nat} (h : stream (bitAt m base) p n = bitsMsb n v) : bitsAt m base p n = v % 2 ^ n := by
  induction n generalizing p with
  | zero => simp [bitsAt, Nat.mod_one]
  | succ n ih =>
    rw [stream_succ, bitsMsb, List.cons.injEq] at h
    rw [bitsAt_succ_first, ih h.2, h.1, Nat.toNat_testBit, Nat.pow_succ, Nat.mod_mul, Nat.mul_comm, Nat.add_comm]

/-- The code of c stands where it was emitted, and its code number is c. -/
theorem golombCode_of_stream {limit c k : Nat} (hk : IsPrefix c k) (hshort : k < 32) (hfits : p + 2 * k + 1 ≤ limit)
    (h : stream (bitAt m base) p (2 * k + 1) = ueBits c) :
    GolombCode m base limit p k ∧ codeNumber m base p k = c := by
  rw [ueBits, (Nat.log2_eq_iff (by omega)).mpr hk, show 2 * k + 1 = k + (k + 1) by omega, ← stream_append] at h
  obtain ⟨hzeros, hvalue⟩ := List.append_inj h (by simp)
  have hfield := bitsAt_of_stream hvalue
  obtain ⟨hlow, hhigh⟩ := hk
  have hsuffix := bitsAt_lt m base (p + k + 1) k
  rw [Nat.mod_eq_of_lt hhigh, bitsAt_succ_first] at hfield
  have hone : bitAt m base (p + k) = true := by
    by_contra hzero
    rw [Bool.eq_false_iff.mpr hzero, Bool.toNat_false] at hfield
    omega
  rw [hone, Bool.toNat_true] at hfield
  refine ⟨⟨hshort, hfits, fun i hi => ?_, hone⟩, by rw [codeNumber]; omega⟩
  exact (List.eq_replicate_iff.mp hzeros).2 _ (List.mem_map_of_mem (List.mem_range'_1.mpr ⟨by omega, by omega⟩))

end Stream

/-! ### Operands -/

/-- A code number of 32 bits has at most 31 leading zeros. -/
theorem isPrefix_short {c k : Nat} (h : IsPrefix c k) (hc : c + 1 < 2 ^ 32) : k < 32 :=
  (Nat.pow_lt_pow_iff_right (by omega)).mp (h.1.trans_lt hc)

theorem succ_lt_of_ne_max {v : Word} (h : v ≠ 0xFFFFFFFF) : v.toNat + 1 < 2 ^ 32 := by
  bv_omega

/-- The code number of a signed value other than −2^31 (42_bitwriter.md R178). -/
theorem seCode_succ_lt_of_ne_min {v : Word} (h : v ≠ 0x80000000) : seCode v.toInt + 1 < 2 ^ 32 := by
  have hmin : v.toInt ≠ (0x80000000 : Word).toInt := fun he => h (BitVec.eq_of_toInt_eq he)
  have hvalue : (0x80000000 : Word).toInt = -2 ^ 31 := by decide
  have hlow := BitVec.le_toInt v
  have hhigh := BitVec.toInt_lt (x := v)
  unfold seCode
  split <;> omega

/-- The signed value of the code number of a signed value. -/
theorem seValue_seCode (v : Int) : seValue (seCode v) = v := by
  unfold seValue seCode
  split <;> split <;> omega

/-! ### The reader on the writer's buffer -/

/-- `t` with the reader set on the writer's buffer of `s`, at the writer's position of `s`. -/
abbrev readBack (s t : State) : State :=
  { t with regs := { t.regs with brBase := s.regs.bwBase, brLen := s.regs.bwCap, brPos := s.regs.bwPos } }

section ReadBack

variable {s t : State} {n : Nat}

theorem readerReady_readBack (hready : WriterReady s) (hroom : HasRoom s n) (hplatform : t.platform = s.platform) :
    ReaderReady (readBack s t) := by
  obtain ⟨hspace, hadm, -, -⟩ := hready
  refine ⟨hspace, (Nat.le_add_right _ n).trans hroom, fun j hj => ?_⟩
  rw [hplatform]
  exact hadm j hj

/-- An emitted code is a whole code for the reader. -/
theorem golombAt_readBack {c k : Nat} {w : WCursor} (hw : Written s (ueBits c) w) (hk : IsPrefix c k) (hc : c + 1 < 2 ^ 32)
    (hroom : HasRoom s (2 * k + 1)) :
    GolombAt (readBack s (writtenState s w)) k ∧ golombNumber (readBack s (writtenState s w)) k = c := by
  have hstream := hw.holds.stream_eq
  rw [ueBits_length_of_isPrefix hk] at hstream
  rw [golombAt_iff, golombNumber_eq_codeNumber]
  exact golombCode_of_stream hk (isPrefix_short hk hc) hroom hstream

end ReadBack

/-! ### The statements -/

/-- Settles O40: the flush keeps the emitted bits, and the reader reads them. -/
theorem fixedWidthRoundTrip : Obligations.FixedWidthRoundTrip := fun s n hn hready hroom hoperand => by
  have hlength := bitsMsb_length n s.regs.arg0.toNat
  have hroom' : HasRoom s (bitsMsb n s.regs.arg0.toNat).length := hlength.symm ▸ hroom
  obtain ⟨w, hwrite, hw⟩ := guarded_writerEmit (i := .wrBits n) (decide_eq_true hn) (rangesOk_of_writeRange rfl rfl hready.1)
    (decide_eq_true hoperand) hready hroom'
  obtain ⟨u, hflush, hplatform, hholds⟩ := exec_wrAlignFlush_writtenState hw hready hroom'
  have hread := (rdBitsReadsTheField (readBack s u) n).1 hn (readerReady_readBack hready hroom hplatform) hroom
  have hstream := hholds.stream_eq
  rw [hlength] at hstream
  have hvalue : specBits u.mem s.regs.bwBase.toNat s.regs.bwPos.toNat n = s.regs.arg0.toNat := by
    rw [specBits_eq_bitsAt, bitsAt_of_stream hstream, Nat.mod_eq_of_lt hoperand]
  refine ⟨_, u, _, hwrite, hflush, hread, rfl, ?_⟩
  change BitVec.ofNat 32 (specBits u.mem s.regs.bwBase.toNat s.regs.bwPos.toNat n) = s.regs.arg0
  rw [hvalue, BitVec.ofNat_toNat, BitVec.setWidth_eq]

/-- Settles O41: the emitted code is the code the reader reads. -/
theorem golombRoundTrip : Obligations.GolombRoundTrip := fun s k hready hroom => by
  have hranges (i : Instr) (hread : readRange s.regs i = none) (hwrite : writeRange s.regs i = some (writerRange s.regs)) :
      rangesOk s.regs i = true := rangesOk_of_writeRange hread hwrite hready.1
  refine ⟨fun hoperand hk => ?_, fun hoperand hk => ?_⟩
  · obtain ⟨w, hwrite, hw⟩ := guarded_writerEmit (i := .wrUe) rfl (hranges _ rfl rfl) (decide_eq_true hoperand) hready
      (bits := ueBits s.regs.arg0.toNat) ((ueBits_length_of_isPrefix hk).symm ▸ hroom)
    obtain ⟨hcode, hnumber⟩ := golombAt_readBack hw hk (succ_lt_of_ne_max hoperand) hroom
    refine ⟨_, _, hwrite, (rdUeReadsTheCode _).1 k (readerReady_readBack hready hroom rfl) hcode, rfl, ?_⟩
    change BitVec.ofNat 32 (golombNumber (readBack s (writtenState s w)) k) = s.regs.arg0
    rw [hnumber, BitVec.ofNat_toNat, BitVec.setWidth_eq]
  · rw [codeOf_eq_seCode] at hk
    obtain ⟨w, hwrite, hw⟩ := guarded_writerEmit (i := .wrSe) rfl (hranges _ rfl rfl) (decide_eq_true hoperand) hready
      (bits := ueBits (seCode s.regs.arg0.toInt)) ((ueBits_length_of_isPrefix hk).symm ▸ hroom)
    obtain ⟨hcode, hnumber⟩ := golombAt_readBack hw hk (seCode_succ_lt_of_ne_min hoperand) hroom
    refine ⟨_, _, hwrite, (rdSeReadsTheSignedCode _).1 k (readerReady_readBack hready hroom rfl) hcode, rfl, ?_⟩
    change BitVec.ofInt 32 (signedOf (golombNumber (readBack s (writtenState s w)) k)) = s.regs.arg0
    rw [hnumber, signedOf_eq_seValue, seValue_seCode, BitVec.ofInt_toInt]

end Sys2Proof.Proofs
end

section
/-! PROOF. The writer commands against the claims: their failures, the emitted field, bit and codes, and the flush
(42_bitwriter.md R171 to R179). -/

namespace Sys2Proof.Proofs

open Sys2Proof.Machine Sys2Proof.Claims

/-! ### The emit and the flush -/

section Writer

variable {pl : Platform} {w : WCursor}

theorem emit_outOfRange {bits : List Bool} (h : w.limit < w.pos + bits.length) : emit pl bits w = .error (.raise .outOfRange) := by
  rw [emit, if_neg (by omega)]

theorem flush_outOfRange (h : w.limit < w.pos) : flush pl w = .error (.raise .outOfRange) := by
  rw [flush, if_neg (by omega)]

/-- The byte of the partial byte is the only one a flush needs. -/
theorem flush_of_admitted (hroom : w.pos ≤ w.limit) (ha : w.pos % 8 ≠ 0 → admits pl (w.base + w.pos / 8) = true) :
    ∃ w', flush pl w = .ok w' := by
  rw [flush, if_pos hroom]
  split
  · exact ⟨_, rfl⟩
  · rename_i hpartial
    rw [storeByte_admitted _ _ (ha hpartial)]
    exact ⟨_, rfl⟩

/-- Everything a flush does to memory: the byte of the partial byte, if there is one, and no other (R179). -/
theorem read_flush_eq {w' : WCursor} (h : flush pl w = .ok w') (hwf : w.mem.wf = true)
    (hs : w.pos % 8 ≠ 0 → w.base + w.pos / 8 < addressSpace) (a : Nat) :
    w'.mem.read a = if w.pos % 8 ≠ 0 ∧ a = w.base + w.pos / 8 then w.acc else w.mem.read a := by
  obtain ⟨-, -, -, -, -, hmem⟩ := flush_ok h
  by_cases hboundary : w.pos % 8 = 0
  · rw [hmem, if_pos hboundary, if_neg fun h => h.1 hboundary]
  · rw [hmem, if_neg hboundary, Memory.read_write hwf]
    exact if_congr ⟨fun h => ⟨hboundary, h.1.symm⟩, fun h => ⟨h.2.symm, hs hboundary⟩⟩ rfl rfl

/-- An emit of no bits does nothing, not even at a partial byte (R171). -/
theorem emit_nil {w' : WCursor} (h : emit pl [] w = .ok w') : w' = w := by
  unfold emit at h
  split at h
  · rw [if_pos rfl] at h
    exact (Except.ok.inj h).symm
  · cases h

end Writer

/-! ### The partial byte -/

/-- Two bytes with the same stream bits. -/
theorem byte_ext_stream {a b : Byte} (h : ∀ j < 8, a.getLsbD (7 - j) = b.getLsbD (7 - j)) : a = b :=
  BitVec.eq_of_getLsbD_eq fun i hi => by simpa [show 7 - (7 - i) = i by omega] using h (7 - i) (by omega)

theorem PartialByte.acc_eq_zero {out : Nat → Bool} {w : WCursor} (h : PartialByte out w) (hpos : w.pos % 8 = 0) : w.acc = 0 :=
  byte_ext_stream fun j hj => by simp [h j hj, hpos]

/-- A stored byte that holds the stream up to the position, and zeros after it, is the partial byte. -/
theorem PartialByte.acc_eq_read {out : Nat → Bool} {w : WCursor} {m : Memory} {base : Nat} (h : PartialByte out w)
    (hbits : ∀ p, p / 8 = w.pos / 8 → bitAt m base p = (decide (p < w.pos) && out p)) : w.acc = m.read (base + w.pos / 8) :=
  byte_ext_stream fun j hj => by
    have hbit := hbits (8 * (w.pos / 8) + j) (by omega)
    rw [bitAt, show (8 * (w.pos / 8) + j) / 8 = w.pos / 8 by omega, show (8 * (w.pos / 8) + j) % 8 = j by omega] at hbit
    rw [h j hj, hbit, decide_eq_decide.mpr (show j < w.pos % 8 ↔ 8 * (w.pos / 8) + j < w.pos by omega)]

/-! ### The emit against the claim -/

/-- Only the emitted bits count. -/
theorem emitted_congr {s t : State} {m : Nat} {b b' : Nat → Bool} (h : Emitted s t m b) (hb : ∀ i < m, b i = b' i) :
    Emitted s t m b' := by
  obtain ⟨hstate, hbits, hframe, hacc⟩ := h
  refine ⟨hstate, fun hm p hp hp' => ?_, hframe, hacc⟩
  rw [hbits hm p hp hp']
  refine if_ctx_congr Iff.rfl (fun _ => rfl) fun hold => if_ctx_congr Iff.rfl (fun hnew => ?_) fun _ => rfl
  rw [hb _ (by omega)]

section Emit

variable {s : State} {bits : List Bool}

/-- A stream bit after the emit, as the claim has it: an earlier bit of the partial byte, an emitted bit, or a zero. -/
theorem toNat_streamAfter (p : Nat) :
    (decide (p < s.regs.bwPos.toNat + bits.length) && streamAfter s bits p).toNat =
      if p < s.regs.bwPos.toNat then (s.regs.bwAcc.getLsbD (7 - p % 8)).toNat
      else if p < s.regs.bwPos.toNat + bits.length then (bits.getD (p - s.regs.bwPos.toNat) false).toNat
      else 0 := by
  unfold streamAfter
  by_cases hold : p < s.regs.bwPos.toNat
  · simp [hold, show p < s.regs.bwPos.toNat + bits.length by omega]
  · by_cases hnew : p < s.regs.bwPos.toNat + bits.length <;> simp [hold, hnew]

/-- The emit of a ready writer is the claims' emit (R171). -/
theorem emitted_of_ready (hready : WriterReady s) (hroom : HasRoom s bits.length) :
    ∃ w, emit s.platform bits (writerCursor s) = .ok w ∧
      Emitted s (writtenState s w) bits.length fun i => bits.getD i false := by
  obtain ⟨w, hemit, hacc, hbits⟩ := emit_of_ready hready hroom
  obtain ⟨-, -, -, -, hpos, -, hframe⟩ := emit_frame hemit
  replace hpos : w.pos = s.regs.bwPos.toNat + bits.length := hpos
  have hnil : bits.length = 0 → w = writerCursor s := fun hlength => by
    rw [List.length_eq_zero_iff.mp hlength] at hemit
    exact emit_nil hemit
  refine ⟨w, hemit, ?_, fun hn p hp hp' => ?_, fun a ha => ?_, ?_⟩
  · rw [← hpos]
    rfl
  · change specBit w.mem _ p = _
    rw [specBit_eq_bitAt, hbits hn p hp hp', toNat_streamAfter]
  · change w.mem.read a = _
    obtain hn | hout := ha
    · rw [hnil hn]
      rfl
    · exact hframe a hout
  · change w.acc = if _ then _ else if _ then _ else w.mem.read _
    rw [← hpos]
    split
    · exact hacc.acc_eq_zero ‹_›
    · split
      · rename_i hn
        rw [hnil hn]
        rfl
      · rename_i hpartial hn
        exact hacc.acc_eq_read fun p hp => by rw [hpos]; exact hbits hn p (by omega) (by omega)

end Emit

/-! ### A writer command with its operand check -/

section Command

variable {i : Instr} {s : State}

theorem guarded_conclude_illegalCommand {x : Cmd Done} (hi : i.wellFormed = true) (hr : rangesOk s.regs i = true)
    (hx : x = .error (.raise .illegalCommand)) : guarded i s (conclude s x) = .next (errorState s .illegalCommand) := by
  rw [guarded_pass hi hr, hx]
  rfl

variable {operandOk : Bool} {bits : List Bool} {n : Nat}

/-- A command that checks its operand and emits n bits: the operand comes first, then the capacity (R172, R175). -/
theorem writerEmit_answers {b : Nat → Bool} (hi : i.wellFormed = true) (hread : readRange s.regs i = none)
    (hwrite : writeRange s.regs i = some (writerRange s.regs)) (hspace : inSpace s.regs.bwBase.toNat s.regs.bwCap.toNat)
    (hlength : bits.length = n) (hbits : ∀ j < n, bits.getD j false = b j) :
    (operandOk = false →
      guarded i s (conclude s (writerEmit operandOk bits s)) = .next (errorState s .illegalCommand)) ∧
    (operandOk = true → ¬ HasRoom s n →
      guarded i s (conclude s (writerEmit operandOk bits s)) = .next (errorState s .outOfRange)) ∧
    (operandOk = true → WriterReady s → HasRoom s n →
      ∃ t, guarded i s (conclude s (writerEmit operandOk bits s)) = .next t ∧ Emitted s t n b) := by
  subst hlength
  have hranges : rangesOk s.regs i = true := rangesOk_of_writeRange hread hwrite hspace
  refine ⟨fun hoperand => ?_, fun hoperand hfull => ?_, fun hoperand hready hroom => ?_⟩
  · exact guarded_conclude_illegalCommand hi hranges (require_bind_raise hoperand)
  · have hemit : emit s.platform bits (writerCursor s) = .error (.raise .outOfRange) := emit_outOfRange (not_le.mp hfull)
    exact guarded_conclude_outOfRange hi hranges ((require_bind hoperand).trans (cmd_bind_error.mpr (.inl hemit)))
  · obtain ⟨w, hemit, hemitted⟩ := emitted_of_ready hready hroom
    refine ⟨writtenState s w, guarded_conclude_ok hi hranges (d := writerDone s w) ?_, emitted_congr hemitted hbits⟩
    exact (require_bind hoperand).trans (cmd_bind_ok.mpr ⟨w, hemit, rfl⟩)

end Command

/-! ### Fixed-width writes -/

theorem bitsMsb_getD {n v i : Nat} (h : i < n) : (bitsMsb n v).getD i false = v.testBit (n - 1 - i) := by
  induction n generalizing i with
  | zero => omega
  | succ n ih =>
    cases i with
    | zero => rfl
    | succ i =>
      rw [bitsMsb, List.getD_cons_succ, ih (by omega), show n + 1 - 1 - (i + 1) = n - 1 - i by omega]

/-- Settles O35: the operand, the capacity and the emit of the field, and a count above 32 does not decode. -/
theorem wrBitsEmitsTheField : Obligations.WrBitsEmitsTheField := fun s n => by
  have hanswers (hn : n ≤ 32) (hspace : inSpace s.regs.bwBase.toNat s.regs.bwCap.toNat) :=
    writerEmit_answers (i := .wrBits n) (operandOk := decide (s.regs.arg0.toNat < 2 ^ n)) (decide_eq_true hn) rfl rfl hspace
      (bitsMsb_length n s.regs.arg0.toNat) fun _ => bitsMsb_getD
  refine ⟨fun hn hspace hlarge => ?_, fun hn hspace hfits => ?_, fun hn hready hfits => ?_, fun hn hfield =>
    decode_ne_ok_of_illegalWord (illegalWord_of_count (by simp) hn hfield)⟩
  · obtain ⟨hillegal, -, -⟩ := hanswers hn hspace
    exact hillegal (decide_eq_false hlarge.not_gt)
  · obtain ⟨-, hfull, -⟩ := hanswers hn hspace
    exact hfull (decide_eq_true hfits)
  · obtain ⟨-, -, hemits⟩ := hanswers hn hready.1
    exact hemits (decide_eq_true hfits) hready

/-- Settles O36: WR_BIT is WR_BITS 1. -/
theorem wrBitEmitsTheBit : Obligations.WrBitEmitsTheBit := fun s hspace => by
  obtain ⟨hillegal, hfull, hemits, -⟩ := wrBitsEmitsTheField s 1
  rw [(singleBitFormsAgree s).2]
  refine ⟨fun hlarge => hillegal (by omega) hspace hlarge, fun hbit => hfull (by omega) hspace (by omega),
    fun hbit hready hroom => ?_⟩
  obtain ⟨t, ht, hemitted⟩ := hemits (by omega) hready (by omega) hroom
  refine ⟨t, ht, emitted_congr hemitted fun i _ => ?_⟩
  rw [show 1 - 1 - i = 0 by omega, Nat.testBit_zero, decide_eq_decide]
  omega

/-! ### Exp-Golomb writes -/

/-- The emitted code is the claims' code, bit by bit (R176, R177). -/
theorem ueBits_getD {c k i : Nat} (hk : IsPrefix c k) (hi : i < 2 * k + 1) : (ueBits c).getD i false = golombBit c k i := by
  rw [ueBits, (Nat.log2_eq_iff (by omega)).mpr hk, golombBit]
  by_cases hzeros : i < k
  · rw [List.getD_append _ _ _ _ (by simpa using hzeros), List.getD_replicate _ hzeros, decide_eq_false (by omega), Bool.false_and]
  · rw [List.getD_append_right _ _ _ _ (by simpa using hzeros), List.length_replicate, bitsMsb_getD (by omega),
      decide_eq_true (by omega), Bool.true_and, show k + 1 - 1 - (i - k) = 2 * k - i by omega]

/-- A command that writes the code of c for every operand but one: what it answers for that operand, without room for the code, and
with room (R177, R178). -/
theorem golombWriter_answers {i : Instr} {s : State} {v bad : Word} {c : Nat} (hi : i.wellFormed = true)
    (hread : readRange s.regs i = none) (hwrite : writeRange s.regs i = some (writerRange s.regs))
    (hspace : inSpace s.regs.bwBase.toNat s.regs.bwCap.toNat) :
    (v = bad → guarded i s (conclude s (writerEmit (decide (v ≠ bad)) (ueBits c) s)) = .next (errorState s .illegalCommand)) ∧
    ∀ k, v ≠ bad → IsPrefix c k →
      (¬ HasRoom s (2 * k + 1) →
        guarded i s (conclude s (writerEmit (decide (v ≠ bad)) (ueBits c) s)) = .next (errorState s .outOfRange)) ∧
      (WriterReady s → HasRoom s (2 * k + 1) →
        ∃ t, guarded i s (conclude s (writerEmit (decide (v ≠ bad)) (ueBits c) s)) = .next t ∧
          Emitted s t (2 * k + 1) (golombBit c k)) := by
  refine ⟨fun hbad => ?_, fun k hv hk => ?_⟩
  · exact (writerEmit_answers hi hread hwrite hspace rfl fun _ _ => rfl).1 (decide_eq_false (not_not.mpr hbad))
  · obtain ⟨-, hfull, hemits⟩ := writerEmit_answers (operandOk := decide (v ≠ bad)) hi hread hwrite hspace
      (ueBits_length_of_isPrefix hk) fun _ => ueBits_getD hk
    exact ⟨hfull (decide_eq_true hv), hemits (decide_eq_true hv)⟩

/-- Settles O37: WR_UE writes the code of ARG0. -/
theorem wrUeEmitsTheCode : Obligations.WrUeEmitsTheCode := fun _ => golombWriter_answers (i := .wrUe) rfl rfl rfl

/-- Settles O38: WR_SE writes the code of the code number of ARG0. -/
theorem wrSeEmitsTheCode : Obligations.WrSeEmitsTheCode := fun _ => by
  simp only [codeOf_eq_seCode]
  exact golombWriter_answers (i := .wrSe) rfl rfl rfl

/-! ### The flush -/

/-- Settles O39: a flush stores the partial byte, if there is one, and nothing else. -/
theorem wrAlignFlushPadsAndReports : Obligations.WrAlignFlushPadsAndReports := fun s hspace => by
  have hranges : rangesOk s.regs .wrAlignFlush = true := rangesOk_of_writeRange rfl rfl hspace
  refine ⟨fun hfull => ?_, fun hadm hwf hroom => ?_⟩
  · have hflush : flush s.platform (writerCursor s) = .error (.raise .outOfRange) := flush_outOfRange (not_le.mp hfull)
    exact guarded_conclude_outOfRange rfl hranges (cmd_bind_error.mpr (.inl hflush))
  · have hinside : s.regs.bwPos.toNat % 8 ≠ 0 → s.regs.bwPos.toNat / 8 < s.regs.bwCap.toNat := by
      unfold HasRoom at hroom
      omega
    obtain ⟨w, hflush⟩ := flush_of_admitted (pl := s.platform) (w := writerCursor s) hroom
      fun hpartial => hadm _ (hinside hpartial)
    obtain ⟨-, -, -, hacc, hpos, -⟩ := flush_ok hflush
    replace hpos : w.pos = 8 * ((s.regs.bwPos.toNat + 7) / 8) := hpos
    refine ⟨_, guarded_conclude_ok rfl hranges (cmd_bind_ok.mpr ⟨w, hflush, rfl⟩), ?_, ?_⟩
    · rw [hpos, hacc, Nat.mul_div_cancel_left _ (by omega)]
      rfl
    · exact read_flush_eq hflush hwf fun hpartial => (Nat.add_lt_add_left (hinside hpartial) _).trans_le hspace

end Sys2Proof.Proofs
end

section
/-! PROOF. The escaped and the unescaped form of a list of bytes: round trip, size bounds, no start code
(43_nal_codec.md R196 to R198). -/

namespace Sys2Proof.Proofs

open Sys2Proof.Machine Sys2Proof.Claims

/-! ### The equations of the two forms -/

section Equations

variable {z : Nat} {b : Byte} (bs : List Byte)

theorem unescapeFrom_removes (h : 2 ≤ z ∧ b = 0x03) : unescapeFrom z (b :: bs) = unescapeFrom 0 bs := if_pos h

theorem unescapeFrom_copies (h : ¬(2 ≤ z ∧ b = 0x03)) :
    unescapeFrom z (b :: bs) = b :: unescapeFrom (zerosAfter z b) bs := if_neg h

theorem escapeFrom_inserts (h : 2 ≤ z ∧ b.toNat ≤ 3) :
    escapeFrom z (b :: bs) = 0x03 :: b :: escapeFrom (zerosAfter 0 b) bs := if_pos h

theorem escapeFrom_copies (h : ¬(2 ≤ z ∧ b.toNat ≤ 3)) :
    escapeFrom z (b :: bs) = b :: escapeFrom (zerosAfter z b) bs := if_neg h

end Equations

/-! ### The count of zeros -/

theorem zerosAfter_le_two (z : Nat) (b : Byte) : zerosAfter z b ≤ 2 := by
  unfold zerosAfter
  split <;> omega

theorem zerosAfter_le_succ (z : Nat) (b : Byte) : zerosAfter z b ≤ z + 1 := by
  unfold zerosAfter
  split <;> omega

/-- An inserted 03 restarts the count (R193). -/
theorem zerosAfter_three (z : Nat) : zerosAfter z 0x03 = 0 := rfl

/-- Two zero bytes saturate the count. -/
theorem zerosAfter_two_zeros (z : Nat) : zerosAfter (zerosAfter z 0) 0 = 2 := by
  simp [zerosAfter]

/-! ### Round trip -/

/-- With one count of zeros on both sides, a 03 is removed exactly where one was inserted. -/
theorem unescapeFrom_escapeFrom (z : Nat) (bs : List Byte) : unescapeFrom z (escapeFrom z bs) = bs := by
  induction bs generalizing z with
  | nil => rfl
  | cons b bs ih =>
    by_cases h : 2 ≤ z ∧ b.toNat ≤ 3
    · rw [escapeFrom_inserts bs h, unescapeFrom_removes _ ⟨h.1, rfl⟩, unescapeFrom_copies _ (by omega), ih]
    · have hkept : ¬(2 ≤ z ∧ b = 0x03) := fun ⟨hz, hb⟩ => h ⟨hz, hb ▸ le_rfl⟩
      rw [escapeFrom_copies bs h, unescapeFrom_copies _ hkept, ih]

/-! ### Size bounds -/

theorem length_le_length_escapeFrom (z : Nat) (bs : List Byte) : bs.length ≤ (escapeFrom z bs).length := by
  induction bs generalizing z with
  | nil => exact le_rfl
  | cons b bs ih =>
    by_cases h : 2 ≤ z ∧ b.toNat ≤ 3
    · have := ih (zerosAfter 0 b)
      simp only [escapeFrom_inserts bs h, List.length_cons]
      omega
    · simpa [escapeFrom_copies bs h] using ih (zerosAfter z b)

/-- Zeros already counted bring an insertion nearer: two bytes for each one, z of them behind. -/
theorem length_escapeFrom_le {z : Nat} (hz : z ≤ 2) (bs : List Byte) :
    (escapeFrom z bs).length ≤ bs.length + (bs.length + z - 1) / 2 := by
  induction bs generalizing z with
  | nil => exact Nat.zero_le _
  | cons b bs ih =>
    by_cases h : 2 ≤ z ∧ b.toNat ≤ 3
    · have := ih (zerosAfter_le_two 0 b)
      have := zerosAfter_le_succ 0 b
      simp only [escapeFrom_inserts bs h, List.length_cons]
      omega
    · have := ih (zerosAfter_le_two z b)
      have := zerosAfter_le_succ z b
      simp only [escapeFrom_copies bs h, List.length_cons]
      omega

/-- Zeros only take the most insertions. -/
theorem length_escapeFrom_zeros {z : Nat} (hz : z ≤ 2) (n : Nat) :
    (escapeFrom z (List.replicate n 0)).length = n + (n + z - 1) / 2 := by
  induction n generalizing z with
  | zero =>
    change 0 = 0 + (0 + z - 1) / 2
    omega
  | succ n ih =>
    have hafter : zerosAfter z 0 = min (z + 1) 2 := if_pos rfl
    rw [List.replicate_succ]
    by_cases h : 2 ≤ z
    · have := ih (zerosAfter_le_two 0 0)
      have hafter' : zerosAfter 0 0 = 1 := rfl
      rw [escapeFrom_inserts _ ⟨h, by decide⟩, List.length_cons, List.length_cons]
      omega
    · have := ih (zerosAfter_le_two z 0)
      rw [escapeFrom_copies _ fun hc => h hc.1, List.length_cons]
      omega

/-! ### No start code -/

/-- With z zero bytes before the list, no byte of at most 2 in it follows two zeros. -/
def StartCodeFree : Nat → List Byte → Prop
  | _, [] => True
  | z, b :: bs => ¬(2 ≤ z ∧ b.toNat ≤ 2) ∧ StartCodeFree (zerosAfter z b) bs

theorem startCodeFree_escapeFrom (z : Nat) (bs : List Byte) : StartCodeFree z (escapeFrom z bs) := by
  induction bs generalizing z with
  | nil => trivial
  | cons b bs ih =>
    by_cases h : 2 ≤ z ∧ b.toNat ≤ 3
    · rw [escapeFrom_inserts bs h]
      exact ⟨fun hc => absurd hc.2 (by decide), by rw [zerosAfter_three]; omega, ih _⟩
    · rw [escapeFrom_copies bs h]
      exact ⟨by omega, ih _⟩

/-- 00 00 and a byte of at most 2 stand nowhere in the list. -/
theorem StartCodeFree.getElem {z : Nat} {bs : List Byte} (h : StartCodeFree z bs) {j : Nat} (hj : j + 2 < bs.length) :
    ¬(bs[j] = 0 ∧ bs[j + 1] = 0 ∧ bs[j + 2].toNat ≤ 2) := by
  induction bs generalizing z j with
  | nil => exact absurd hj (Nat.not_lt_zero _)
  | cons b bs ih =>
    obtain ⟨-, hrest⟩ := h
    cases j with
    | succ j => exact ih hrest (Nat.lt_of_succ_lt_succ hj)
    | zero =>
      match bs, hrest with
      | [], _ | [_], _ => simp at hj
      | c :: d :: _, ⟨_, hd, _⟩ =>
        rintro ⟨rfl : b = 0, rfl : c = 0, hsmall⟩
        exact hd ⟨(zerosAfter_two_zeros z).ge, hsmall⟩

end Sys2Proof.Proofs
end

section
/-! PROOF. NAL_UNESCAPE and NAL_ESCAPE against the claims: the output of the loops, the state after the command, and the properties of
43_nal_codec.md section 4. -/

namespace Sys2Proof.Proofs

open Sys2Proof.Machine Sys2Proof.Claims

/-! ### The output of the loops -/

/-- A list of output bytes put out from byte o on. -/
def putAll (io : CodecIO) : Nat → Memory → List Byte → Cmd (Nat × Memory)
  | o, m, [] => .ok (o, m)
  | o, m, b :: bs => do
    let m' ← putOut io o m b
    putAll io (o + 1) m' bs

section Loops

variable {io : CodecIO}

theorem unescapeLoop_eq_putAll {n i : Nat} (ha : ∀ j, i ≤ j → j < i + n → admits io.platform (io.srcBase + j) = true)
    (z o : Nat) (m : Memory) :
    unescapeLoop io n i z o m = putAll io o m (unescapeFrom z (io.input.readList (io.srcBase + i) n)) := by
  induction n generalizing i z o m with
  | zero => rfl
  | succ n ih =>
    have hrest := ih (i := i + 1) fun j h1 h2 => ha j (by omega) (by omega)
    rw [unescapeLoop, fetchByte_admitted _ (ha i le_rfl (by omega)), Memory.readList]
    change (if _ then _ else _) = _
    split
    · rename_i h
      rw [hrest, unescapeFrom_removes _ h]
      rfl
    · rename_i h
      simp only [hrest, unescapeFrom_copies _ h]
      rfl

theorem escapeLoop_eq_putAll {n i : Nat} (ha : ∀ j, i ≤ j → j < i + n → admits io.platform (io.srcBase + j) = true)
    (z o : Nat) (m : Memory) :
    escapeLoop io n i z o m = putAll io o m (escapeFrom z (io.input.readList (io.srcBase + i) n)) := by
  induction n generalizing i z o m with
  | zero => rfl
  | succ n ih =>
    have hrest := ih (i := i + 1) fun j h1 h2 => ha j (by omega) (by omega)
    rw [escapeLoop, fetchByte_admitted _ (ha i le_rfl (by omega)), Memory.readList]
    change (if _ then _ else _) = _
    split
    · rename_i h
      simp only [hrest, escapeFrom_inserts _ h]
      rfl
    · rename_i h
      simp only [hrest, escapeFrom_copies _ h]
      rfl

variable (ha : ∀ o < io.cap, admits io.platform (io.dstBase + o) = true)
include ha

theorem putOut_of_room {o : Nat} (ho : o < io.cap) (m : Memory) (b : Byte) :
    putOut io o m b = .ok (m.write (io.dstBase + o) b) :=
  (require_bind (decide_eq_true ho)).trans (storeByte_admitted m b (ha o ho))

theorem putAll_of_fits {o : Nat} {bs : List Byte} (hfits : o + bs.length ≤ io.cap) (m : Memory) :
    putAll io o m bs = .ok (o + bs.length, m.writeList (io.dstBase + o) bs) := by
  induction bs generalizing o m with
  | nil => rfl
  | cons b bs ih =>
    rw [List.length_cons] at hfits
    rw [putAll, putOut_of_room ha (by omega)]
    refine (ih (by omega) _).trans ?_
    rw [List.length_cons, Nat.add_right_comm o 1]
    rfl

theorem putAll_of_passes {o : Nat} {bs : List Byte} (ho : o ≤ io.cap) (hpasses : io.cap < o + bs.length) (m : Memory) :
    putAll io o m bs = .error (.raise .outOfRange) := by
  induction bs generalizing o m with
  | nil => exact absurd hpasses (Nat.not_lt.mpr ho)
  | cons b bs ih =>
    rw [List.length_cons] at hpasses
    by_cases hroom : o < io.cap
    · rw [putAll, putOut_of_room ha hroom]
      exact ih hroom (by omega) _
    · exact cmd_bind_error.mpr (.inl (require_bind_raise (decide_eq_false hroom)))

end Loops

/-! ### The input bytes -/

theorem readList_eq_map_range (m : Memory) (a n : Nat) : m.readList a n = (List.range n).map fun i => m.read (a + i) := by
  induction n generalizing a with
  | zero => rfl
  | succ n ih => simp [Memory.readList, ih, List.range_succ_eq_map, Nat.add_assoc, Nat.add_comm 1, Function.comp_def]

theorem sourceBytes_length (s : State) : (sourceBytes s).length = s.regs.srcLen.toNat := by
  simp [sourceBytes]

theorem sourceBytes_getElem {s : State} {j : Nat} (h : j < (sourceBytes s).length) :
    (sourceBytes s)[j] = s.mem.read (s.regs.srcBase.toNat + j) := by
  simp [sourceBytes]

/-! ### The state after the command -/

/-- `s` after a codec command with this output. -/
def codecState (s : State) (out : List Byte) : State :=
  okState s { s.regs with res0 := BitVec.ofNat 32 out.length } (s.mem.writeList s.regs.dstBase.toNat out)

section Commands

variable {s t : State} {i : Instr} {out : List Byte}

/-- The command puts out these bytes. -/
def Outputs (s : State) (i : Instr) (out : List Byte) : Prop :=
  exec i s = concludeDst s (codecDone s <$> putAll (codecIO s) 0 s.mem out)

theorem outputs_nalUnescape (hready : CodecReady s) : Outputs s .nalUnescape (unescapeFrom 0 (sourceBytes s)) := by
  obtain ⟨hbuffers, hsrc, -⟩ := hready
  rw [Outputs, sourceBytes, ← readList_eq_map_range]
  refine (guarded_pass rfl (rangesOk_spsRewrite hbuffers)).trans ?_
  rw [unescapeLoop_eq_putAll (io := codecIO s) fun j _ hj => hsrc j (by omega)]
  rfl

theorem outputs_nalEscape (hready : CodecReady s) : Outputs s .nalEscape (escapeFrom 0 (sourceBytes s)) := by
  obtain ⟨hbuffers, hsrc, -⟩ := hready
  rw [Outputs, sourceBytes, ← readList_eq_map_range]
  refine (guarded_pass rfl (rangesOk_spsRewrite hbuffers)).trans ?_
  rw [escapeLoop_eq_putAll (io := codecIO s) fun j _ hj => hsrc j (by omega)]
  rfl

section Ready

variable (hready : CodecReady s) (hout : Outputs s i out)
include hready

theorem wrote_codecState (hfits : out.length ≤ s.regs.dstCap.toNat) : Wrote s (codecState s out) out := by
  obtain ⟨⟨-, hdst, -⟩, -, -, hwf⟩ := hready
  have hspace : s.regs.dstBase.toNat + out.length ≤ addressSpace := (Nat.add_le_add_left hfits _).trans hdst
  exact ⟨rfl, fun j hj => Memory.read_writeList_inside hwf _ _ j hj hspace, fun a => Memory.read_writeList_outside _ _ _⟩

include hout

theorem Outputs.exec_of_fits (hfits : out.length ≤ s.regs.dstCap.toNat) : exec i s = .next (codecState s out) := by
  obtain ⟨-, -, hdst, -⟩ := hready
  rw [hout, putAll_of_fits (io := codecIO s) hdst (by rw [Nat.zero_add]; exact hfits), Nat.zero_add]
  rfl

theorem Outputs.exec_of_passes (hpasses : s.regs.dstCap.toNat < out.length) :
    exec i s = .next (failWith (unspecify s s.regs.dstBase.toNat s.regs.dstCap.toNat) .outOfRange) := by
  obtain ⟨-, -, hdst, -⟩ := hready
  rw [hout, putAll_of_passes (io := codecIO s) hdst (Nat.zero_le _) (by rw [Nat.zero_add]; exact hpasses)]
  rfl

/-- Everything a codec command with ready buffers answers (R190, 40_command_protocol.md R136). -/
theorem Outputs.answers :
    (out.length ≤ s.regs.dstCap.toNat → ∃ t, exec i s = .next t ∧ Wrote s t out) ∧
    (s.regs.dstCap.toNat < out.length →
      ∃ t, exec i s = .next t ∧ FailedDst s t .outOfRange s.regs.dstBase.toNat s.regs.dstCap.toNat) :=
  ⟨fun hfits => ⟨_, hout.exec_of_fits hready hfits, wrote_codecState hready hfits⟩,
   fun hpasses => ⟨_, hout.exec_of_passes hready hpasses, rfl, fun _ => Memory.read_scramble_outside _ _ _ _⟩⟩

/-- A codec command that ends with OK wrote its output, and the output fits. -/
theorem Outputs.wrote_of_ok (ht : exec i s = .next t) (hok : t.regs.status.code = .ok) :
    out.length ≤ s.regs.dstCap.toNat ∧ Wrote s t out := by
  by_cases hfits : out.length ≤ s.regs.dstCap.toNat
  · cases ht.symm.trans (hout.exec_of_fits hready hfits)
    exact ⟨hfits, wrote_codecState hready hfits⟩
  · cases ht.symm.trans (hout.exec_of_passes hready (not_le.mp hfits))
    cases hok

end Ready

theorem code_of_wrote (h : Wrote s t out) : t.regs.status.code = .ok := by
  obtain ⟨ht, -⟩ := h
  rw [ht]
  rfl

/-- RES0 holds the length of an output that fits: DST_CAP has 29 bits. -/
theorem res0_of_wrote (h : Wrote s t out) (hfits : out.length ≤ s.regs.dstCap.toNat) : t.regs.res0.toNat = out.length := by
  obtain ⟨ht, -⟩ := h
  have hcap := s.regs.dstCap.isLt
  rw [ht]
  exact Nat.mod_eq_of_lt (by omega)

end Commands

/-! ### The statements -/

/-- Settles O42: the loop puts out the unescaped bytes. -/
theorem nalUnescapeWritesTheUnescapedBytes : Obligations.NalUnescapeWritesTheUnescapedBytes :=
  fun _ hready => (outputs_nalUnescape hready).answers hready

/-- Settles O43: the loop puts out the escaped bytes. -/
theorem nalEscapeWritesTheEscapedBytes : Obligations.NalEscapeWritesTheEscapedBytes :=
  fun _ hready => (outputs_nalEscape hready).answers hready

section HalfAgain

variable {s : State} (hcap : s.regs.srcLen.toNat + s.regs.srcLen.toNat / 2 ≤ s.regs.dstCap.toNat)

theorem length_escapeFrom_sourceBytes_le :
    (escapeFrom 0 (sourceBytes s)).length ≤ s.regs.srcLen.toNat + (s.regs.srcLen.toNat - 1) / 2 := by
  simpa [sourceBytes_length] using length_escapeFrom_le (Nat.zero_le 2) (sourceBytes s)

include hcap in
theorem escapeFrom_fits_of_half_again : (escapeFrom 0 (sourceBytes s)).length ≤ s.regs.dstCap.toNat := by
  have := length_escapeFrom_sourceBytes_le (s := s)
  omega

end HalfAgain

/-- Settles O44: the bounds of the escaped form, which is what the command writes. -/
theorem escapeFitsInHalfAgain : Obligations.EscapeFitsInHalfAgain := fun s hready hcap => by
  have hfits := escapeFrom_fits_of_half_again hcap
  obtain ⟨t, ht, hwrote⟩ := (nalEscapeWritesTheEscapedBytes s hready).1 hfits
  refine ⟨t, ht, code_of_wrote hwrote, ?_⟩
  rw [res0_of_wrote hwrote hfits]
  refine ⟨?_, length_escapeFrom_sourceBytes_le, fun hzeros => ?_⟩
  · simpa only [sourceBytes_length] using length_le_length_escapeFrom 0 (sourceBytes s)
  · have hsource : sourceBytes s = List.replicate s.regs.srcLen.toNat 0 :=
      List.eq_replicate_iff.mpr ⟨sourceBytes_length s, by simpa [sourceBytes] using hzeros⟩
    rw [hsource, length_escapeFrom_zeros (Nat.zero_le 2), Nat.add_zero]

/-- Settles O46: the output bytes are those of the escaped form. -/
theorem escapedOutputHasNoStartCode : Obligations.EscapedOutputHasNoStartCode := fun s t hready ht _ hok j hj => by
  obtain ⟨hfits, hwrote⟩ := (outputs_nalEscape hready).wrote_of_ok hready ht hok
  rw [res0_of_wrote hwrote hfits] at hj
  obtain ⟨-, hbytes, -⟩ := hwrote
  rw [Nat.add_assoc _ j 1, Nat.add_assoc _ j 2, hbytes j (by omega), hbytes (j + 1) (by omega), hbytes (j + 2) hj]
  exact (startCodeFree_escapeFrom 0 (sourceBytes s)).getElem hj

/-! ### The round trip -/

/-- `t` with the codec's source set on the output of the command before, and its destination on the buffer of c bytes at b. -/
abbrev codecBack (t : State) (b : Word) (c : Length) : State :=
  { t with regs := { t.regs with srcBase := t.regs.dstBase, srcLen := t.regs.res0.setWidth 29, dstBase := b, dstCap := c } }

section CodecBack

variable {s : State} {out : List Byte} {b : Word} {c : Length} (hfits : out.length ≤ s.regs.dstCap.toNat)
include hfits

theorem codecBack_srcLen : (codecBack (codecState s out) b c).regs.srcLen.toNat = out.length := by
  have hcap := s.regs.dstCap.isLt
  change (BitVec.setWidth 29 (BitVec.ofNat 32 out.length)).toNat = out.length
  rw [BitVec.toNat_setWidth, BitVec.toNat_ofNat, Nat.mod_eq_of_lt (a := out.length) (by omega), Nat.mod_eq_of_lt (by omega)]

variable (hready : CodecReady s)
include hready

theorem sourceBytes_codecBack : sourceBytes (codecBack (codecState s out) b c) = out := by
  obtain ⟨-, hbytes, -⟩ := wrote_codecState hready hfits
  refine List.ext_getElem ((sourceBytes_length _).trans (codecBack_srcLen hfits)) fun j _ hj => ?_
  rw [sourceBytes_getElem]
  exact hbytes j hj

theorem codecReady_codecBack (hspace : inSpace b.toNat c.toNat) (hadm : admitted s b.toNat c.toNat)
    (hdisjoint : s.regs.dstBase.toNat + s.regs.dstCap.toNat ≤ b.toNat ∨ b.toNat + c.toNat ≤ s.regs.dstBase.toNat) :
    CodecReady (codecBack (codecState s out) b c) := by
  obtain ⟨⟨-, hdst, -⟩, -, hdstAdm, hwf⟩ := hready
  refine ⟨⟨?_, hspace, ?_⟩, ?_, hadm, Memory.wf_writeList hwf _ _⟩
  · rw [codecBack_srcLen hfits]
    exact (Nat.add_le_add_left hfits _).trans hdst
  · rw [codecBack_srcLen hfits]
    change out.length = 0 ∨ c.toNat = 0 ∨ s.regs.dstBase.toNat + out.length ≤ b.toNat ∨
      b.toNat + c.toNat ≤ s.regs.dstBase.toNat
    omega
  · rw [codecBack_srcLen hfits]
    exact fun k hk => hdstAdm k (hk.trans_le hfits)

end CodecBack

/-- Settles O45: the second command's input is the escaped form, so its output is the first command's input. -/
theorem unescapeUndoesEscape : Obligations.UnescapeUndoesEscape := by
  refine ⟨fun s b c hready hcap hspace hadm hroom hdisjoint => ?_, by decide, by decide⟩
  have hfits := escapeFrom_fits_of_half_again hcap
  have hready' := codecReady_codecBack hfits hready hspace hadm hdisjoint
  have hplain : unescapeFrom 0 (sourceBytes (codecBack (codecState s (escapeFrom 0 (sourceBytes s))) b c)) = sourceBytes s := by
    rw [sourceBytes_codecBack hfits hready, unescapeFrom_escapeFrom]
  have hroom' : (sourceBytes s).length ≤ c.toNat := (sourceBytes_length s).trans_le hroom
  obtain ⟨u, hu, hwrote⟩ := (nalUnescapeWritesTheUnescapedBytes _ hready').1 (hplain.symm ▸ hroom')
  rw [hplain] at hwrote
  refine ⟨_, u, (outputs_nalEscape hready).exec_of_fits hready hfits, hu, code_of_wrote hwrote, ?_, fun j hj => ?_⟩
  · exact (res0_of_wrote hwrote hroom').trans (sourceBytes_length s)
  · obtain ⟨-, hbytes, -⟩ := hwrote
    have hj' : j < (sourceBytes s).length := (sourceBytes_length s).symm ▸ hj
    exact (hbytes j hj').trans (sourceBytes_getElem hj')

end Sys2Proof.Proofs
end

section
/-! PROOF. NAL_LOCATE_AB and NAL_LOCATE_LP against the claims: the bytes of a ready source, the search for a start code, the size field,
and what each command answers (44_nal_locator.md). -/

namespace Sys2Proof.Proofs

open Sys2Proof.Machine Sys2Proof.Claims

section Locator

variable {s : State}

/-! ### The state after a unit is found -/

/-- The mask of R210 is the remainder the claims take (R213). -/
theorem nalType_eq_mod (header : Byte) : nalType header = BitVec.ofNat 32 (header.toNat % 32) := by
  refine BitVec.eq_of_toNat_eq ?_
  have hmask : (header &&& 0x1F).toNat = header.toNat % 32 :=
    (BitVec.toNat_and ..).trans (Nat.and_two_pow_sub_one_eq_mod header.toNat 5)
  rw [nalType, BitVec.zeroExtend, BitVec.toNat_setWidth, hmask, BitVec.toNat_ofNat]

theorem commit_located (s : State) (h size next : Nat) :
    commit s (located s (s.mem.read (s.regs.srcBase.toNat + h)) h size next).regs s.mem .ok = foundState s h size next := by
  rw [located, nalType_eq_mod]
  rfl

/-! ### The bytes of the source -/

section Admitted

variable (hadm : admitted s s.regs.srcBase.toNat s.regs.srcLen.toNat)
include hadm

theorem sourceByte_bind {β : Type} {i : Nat} (hi : i < s.regs.srcLen.toNat) (f : Byte → Cmd β) :
    (sourceByte s i >>= f) = f (s.mem.read (s.regs.srcBase.toNat + i)) := by
  rw [sourceByte, fetchByte_admitted _ (hadm i hi)]
  rfl

theorem sizeField_eq {c : Nat} (hroom : c + 4 ≤ s.regs.srcLen.toNat) : sizeField s c = .ok (sizeAtCursor s c) := by
  rw [sizeField, sourceByte_bind hadm (by omega), sourceByte_bind hadm (by omega), sourceByte_bind hadm (by omega),
    sourceByte_bind hadm (by omega)]
  rfl

/-! ### The search for a start code -/

/-- One offset of the search (R211): the header byte is inside, so the three bytes before it are read and compared. -/
theorem findStartCode_succ (fuel : Nat) {i : Nat} (hi : i + 3 < s.regs.srcLen.toNat) :
    (StartCodeAt s i → findStartCode s (fuel + 1) i = .ok (some i)) ∧
    (¬ StartCodeAt s i → findStartCode s (fuel + 1) i = findStartCode s fuel (i + 1)) := by
  have hbytes : StartCodeAt s i ↔ s.mem.read (s.regs.srcBase.toNat + i) = 0x00 ∧
      s.mem.read (s.regs.srcBase.toNat + (i + 1)) = 0x00 ∧ s.mem.read (s.regs.srcBase.toNat + (i + 2)) = 0x01 := by
    simp only [StartCodeAt, buf, ← BitVec.toNat_inj]
    rfl
  rw [findStartCode, if_pos hi, sourceByte_bind hadm (by omega), sourceByte_bind hadm (by omega), sourceByte_bind hadm (by omega),
    hbytes]
  exact ⟨fun h => if_pos h, fun h => if_neg h⟩

theorem findStartCode_first {i : Nat} (hi : i + 3 < s.regs.srcLen.toNat) (hcode : StartCodeAt s i) {fuel c : Nat} (hc : c ≤ i)
    (hfuel : i < c + fuel) (hfirst : ∀ j, c ≤ j → j < i → ¬ StartCodeAt s j) : findStartCode s fuel c = .ok (some i) := by
  induction fuel generalizing c with
  | zero => omega
  | succ fuel ih =>
    obtain ⟨hhere, hnext⟩ := findStartCode_succ hadm fuel (i := c) (by omega)
    obtain rfl | hlt := hc.eq_or_lt
    · exact hhere hcode
    · rw [hnext (hfirst c le_rfl hlt)]
      exact ih hlt (by omega) fun j hj => hfirst j (by omega)

theorem findStartCode_none {fuel c : Nat} (hnone : ∀ j, c ≤ j → j + 3 < s.regs.srcLen.toNat → ¬ StartCodeAt s j) :
    findStartCode s fuel c = .ok none := by
  induction fuel generalizing c with
  | zero => rfl
  | succ fuel ih =>
    by_cases hc : c + 3 < s.regs.srcLen.toNat
    · rw [(findStartCode_succ hadm fuel hc).2 (hnone c le_rfl hc)]
      exact ih fun j hj => hnone j (by omega)
    · rw [findStartCode, if_neg hc]

/-! ### The rules of the two commands -/

theorem locateAb_found {i : Nat} (hc : s.regs.locCursor.toNat ≤ i) (hi : i + 3 < s.regs.srcLen.toNat) (hcode : StartCodeAt s i)
    (hfirst : ∀ j, s.regs.locCursor.toNat ≤ j → j < i → ¬ StartCodeAt s j) :
    locateAb s = .ok (located s (s.mem.read (s.regs.srcBase.toNat + (i + 3))) (i + 3) 0 (i + 4)) := by
  rw [locateAb, require_bind (decide_eq_true (by omega)), findStartCode_first hadm hi hcode hc (by omega) hfirst]
  exact sourceByte_bind hadm hi _

theorem locateAb_none (hc : s.regs.locCursor.toNat ≤ s.regs.srcLen.toNat)
    (hnone : ∀ j, s.regs.locCursor.toNat ≤ j → j + 3 < s.regs.srcLen.toNat → ¬ StartCodeAt s j) :
    locateAb s = .ok (notLocated s) := by
  rw [locateAb, require_bind (decide_eq_true hc), findStartCode_none hadm hnone]
  rfl

theorem locateLp_found {c : Nat} (hroom : c + 4 ≤ s.regs.srcLen.toNat) (hpos : 0 < sizeAtCursor s c)
    (hfits : sizeAtCursor s c ≤ s.regs.srcLen.toNat - c - 4) :
    locateLp s s.regs.srcLen.toNat c =
      .ok (located s (s.mem.read (s.regs.srcBase.toNat + (c + 4))) (c + 4) (sizeAtCursor s c) (c + 4 + sizeAtCursor s c)) := by
  rw [locateLp, require_bind (decide_eq_true (by omega)), if_neg (by omega), require_bind (decide_eq_true (by omega))]
  refine cmd_bind_ok.mpr ⟨_, sizeField_eq hadm hroom, ?_⟩
  rw [require_bind (decide_eq_true ⟨hpos.ne', hfits⟩), sourceByte_bind hadm (by omega)]

theorem locateLp_badSize {c : Nat} (hroom : c + 4 ≤ s.regs.srcLen.toNat)
    (hbad : sizeAtCursor s c = 0 ∨ s.regs.srcLen.toNat - c - 4 < sizeAtCursor s c) :
    locateLp s s.regs.srcLen.toNat c = .error (.raise .outOfRange) := by
  rw [locateLp, require_bind (decide_eq_true (by omega)), if_neg (by omega), require_bind (decide_eq_true (by omega))]
  exact cmd_bind_error.mpr (.inr ⟨_, sizeField_eq hadm hroom, require_bind_raise (decide_eq_false (by omega))⟩)

end Admitted

theorem locateAb_past (hpast : s.regs.srcLen.toNat < s.regs.locCursor.toNat) : locateAb s = .error (.raise .outOfRange) := by
  rw [locateAb, require_bind_raise (decide_eq_false (by omega))]

theorem locateLp_at_end (n : Nat) : locateLp s n n = .ok (notLocated s) := by
  rw [locateLp, require_bind (decide_eq_true le_rfl), if_pos rfl]

theorem locateLp_past {n c : Nat} (hpast : n < c) : locateLp s n c = .error (.raise .outOfRange) := by
  rw [locateLp, require_bind_raise (decide_eq_false (by omega))]

theorem locateLp_truncated {n c : Nat} (hc : c < n) (hshort : n < c + 4) : locateLp s n c = .error (.raise .outOfRange) := by
  rw [locateLp, require_bind (decide_eq_true hc.le), if_neg hc.ne, require_bind_raise (decide_eq_false (by omega))]

end Locator

/-! ### The statements -/

/-- Settles O47: the search stops at the first start code that a header byte follows. -/
theorem locateAbFindsTheNextStartCode : Obligations.LocateAbFindsTheNextStartCode := fun s ⟨hspace, hadm⟩ => by
  have hranges : rangesOk s.regs .nalLocateAb = true := rangesOk_of_readRange rfl rfl hspace
  refine ⟨fun i hc hi hcode hfirst => ?_, fun hc hnone => ?_, fun hpast => ?_⟩
  · rw [← commit_located]
    exact guarded_conclude_ok rfl hranges (locateAb_found hadm hc hi hcode hfirst)
  · exact guarded_conclude_ok rfl hranges (locateAb_none hadm hc hnone)
  · exact guarded_conclude_outOfRange rfl hranges (locateAb_past hpast)

/-- Settles O48: the checks of R215 in order, then the header byte. -/
theorem locateLpReadsTheSizeField : Obligations.LocateLpReadsTheSizeField := by
  rintro s c n ⟨hspace, hadm⟩ rfl rfl
  have hranges : rangesOk s.regs .nalLocateLp = true := rangesOk_of_readRange rfl rfl hspace
  refine ⟨fun hroom hpos hfits => ?_, fun hend => ?_, fun hbad => ?_⟩
  · rw [← commit_located]
    exact guarded_conclude_ok rfl hranges (locateLp_found hadm hroom hpos hfits)
  · refine guarded_conclude_ok rfl hranges (d := notLocated s) ?_
    rw [hend]
    exact locateLp_at_end _
  · refine guarded_conclude_outOfRange rfl hranges ?_
    obtain hpast | ⟨hc, hshort⟩ | ⟨hroom, hsize⟩ := hbad
    · exact locateLp_past hpast
    · exact locateLp_truncated hc hshort
    · exact locateLp_badSize hadm hroom hsize

end Sys2Proof.Proofs
end

section
/-! PROOF. How a part of the SPS walk may stop: where the grammar fails, or for want of room in the destination
(45_sps_rewriter.md R233, R254). -/

namespace Sys2Proof.Proofs

open Sys2Proof.Machine Sys2Proof.Claims

variable {s : State} {α β : Type}

/-! ### The grammar's failures -/

theorem parse_bind_of_some {y : Parse α} {g : α → Parse β} {p q : Nat} {a : α} (h : y p = some (a, q)) : (y >>= g) p = g a q := by
  change (y p >>= fun z => g z.1 z.2) = g a q
  rw [h]
  rfl

theorem parse_bind_of_none {y : Parse α} {g : α → Parse β} {p : Nat} (h : y p = none) : (y >>= g) p = none := by
  change (y p >>= fun z => g z.1 z.2) = none
  rw [h]
  rfl

theorem pU_none {x : BitInput} {n p : Nat} : pU x n p = none ↔ x.limit < p + n := by
  simp [pU]

theorem pSkip_one (x : BitInput) (n p : Nat) : pSkip x [n] p = if p + n ≤ x.limit then some ((), p + n) else none := by
  split
  · exact parse_bind_of_some (pU_some.mpr ⟨‹_›, rfl, rfl⟩)
  · exact parse_bind_of_none (pU_none.mpr (by omega))

/-- Fields u(m) and u(n) one after another take the bits of one field of m + n bits. -/
theorem pSkip_add (x : BitInput) (m n : Nat) : (do pSkip x [m]; pSkip x [n]) = pSkip x [m + n] := by
  funext p
  by_cases hm : p + m ≤ x.limit
  · rw [parse_bind_of_some ((pSkip_one x m p).trans (if_pos hm)), pSkip_one, pSkip_one, Nat.add_assoc]
  · rw [parse_bind_of_none ((pSkip_one x m p).trans (if_neg hm)), pSkip_one, if_neg (by omega)]

/-- Where the grammar reads no code, there are only zeros, or the code is cut off (41_bitreader.md R155). -/
theorem pUe_none {x : BitInput} {p : Nat} (h : pUe x p = none) :
    (∀ i < 32, p + i < x.limit → bitAt x.mem x.base (p + i) = false) ∨
    ∃ k < 32, p + k < x.limit ∧ x.limit < p + 2 * k + 1 ∧ (∀ i < k, bitAt x.mem x.base (p + i) = false) ∧
      bitAt x.mem x.base (p + k) = true := by
  unfold pUe at h
  split at h
  · rename_i hfind
    refine .inl fun i hi hin => ?_
    have hzero := List.find?_eq_none.mp hfind i (List.mem_range.mpr hi)
    simpa [hin, specBit_eq_bitAt] using hzero
  · rename_i k hfind
    obtain ⟨hone, hk, hzeros⟩ := List.find?_range_eq_some.mp hfind
    simp only [Bool.and_eq_true, decide_eq_true_eq, beq_iff_eq, specBit_eq_one] at hone
    refine .inr ⟨k, List.mem_range.mp hk, hone.1, by simpa using h, fun i hi => ?_, hone.2⟩
    have hzero := hzeros i hi
    simpa [show p + i < x.limit by omega, specBit_eq_bitAt] using hzero

/-! ### Parts of the walk -/

theorem Halts.imp {H H' : Halt → Prop} {P : α → Prop} {x : Cmd α} (hx : Halts H P x) (hH : ∀ e, H e → H' e) : Halts H' P x := by
  match x with
  | .ok _ => exact hx
  | .error e => exact hH e hx

/-- A piece that cannot succeed stops. -/
theorem Halts.eq_error {H : Halt → Prop} {P : α → Prop} {x : Cmd α} {e : Halt} (hx : Halts H P x) (hP : ∀ a, ¬ P a)
    (hH : ∀ e', H e' → e' = e) : x = .error e := by
  match x with
  | .ok a => exact absurd hx (hP a)
  | .error e' => exact congrArg _ (hH e' hx)

/-- Why a part of the walk may stop, where the grammar reads `read`: the grammar fails too, or the destination is smaller than the source
(45_sps_rewriter.md R233, R254). -/
def Stops (s : State) (read : Option α) (e : Halt) : Prop :=
  (e = .raise .malformedSps ∧ read = none) ∨ (e = .raise .outOfRange ∧ s.regs.dstCap.toNat < s.regs.srcLen.toNat)

theorem Stops.imp {a : Option α} {b : Option β} (h : a = none → b = none) (e : Halt) (he : Stops s a e) : Stops s b e :=
  he.imp_left fun ⟨he, ha⟩ => ⟨he, h ha⟩

/-- Started with cursors in `I`, the part of the walk reads what the part of the grammar reads and leaves cursors in `I`, or it stops as
`Stops` says. -/
def Follows (s : State) (I : SpsCursors → Prop) (part : Walk α) (parse : Parse α) : Prop :=
  ∀ c, I c → Halts (Stops s (parse c.rpos)) (fun r => parse c.rpos = some (r.1, r.2.rpos) ∧ I r.2) (part c)

section Follows

variable {I : SpsCursors → Prop}

theorem Follows.pure (a : α) : Follows s I (pure a) (pure a) := fun _ hc => ⟨rfl, hc⟩

theorem Follows.bind {x : Walk α} {f : α → Walk β} {y : Parse α} {g : α → Parse β} (hx : Follows s I x y)
    (hf : ∀ a, Follows s I (f a) (g a)) : Follows s I (x >>= f) (y >>= g) := fun c hc =>
  ((hx c hc).imp (Stops.imp parse_bind_of_none)).bind fun r ⟨hy, hr⟩ => by
    rw [parse_bind_of_some hy]
    exact hf r.1 r.2 hr

theorem Follows.onlyIf (b : Bool) {x : Walk Unit} {y : Parse Unit} (h : Follows s I x y) : Follows s I (onlyIf b x) (pIf b y) := by
  cases b with
  | true => exact h
  | false => exact .pure ()

theorem Follows.times (n : Nat) {x : Walk Unit} {y : Parse Unit} (h : Follows s I x y) : Follows s I (times n x) (pTimes n y) := by
  induction n with
  | zero => exact .pure ()
  | succ n ih => exact .bind h fun _ => ih

end Follows

/-! ### Reads -/

/-- The cursors `c` have been reached from `c₀` by reads alone. -/
structure Reached (s : State) (c₀ c : SpsCursors) : Prop where
  ready  : CodecReady s
  writer : c.w = c₀.w
  after  : c₀.rpos ≤ c.rpos
  inside : c.rpos ≤ 8 * s.regs.srcLen.toNat

/-- A part that reads what the grammar reads, and raises MALFORMED_SPS where the grammar fails. -/
theorem Reads.follows {x : Walk α} {y : Parse α} (hreads : Reads s x y)
    (hfails : ∀ c, CodecReady s → y c.rpos = none → x c = .error (.raise .malformedSps)) (c₀ : SpsCursors) :
    Follows s (Reached s c₀) x y := fun c hc => by
  cases hy : y c.rpos with
  | none =>
    rw [hfails c hc.ready hy]
    exact .inl ⟨rfl, rfl⟩
  | some r =>
    obtain ⟨hready, hwriter, hafter, hinside⟩ := hc
    obtain ⟨hx, hle, hin⟩ := hreads hready.2.1 c r.1 r.2 hinside hy
    rw [hx]
    exact ⟨rfl, hready, hwriter, hafter.trans hle, hin⟩

/-- A reader failure becomes MALFORMED_SPS (45_sps_rewriter.md R233). -/
theorem malformed_of_outOfRange {x : Cmd α} {f : α → Cmd β} (h : x = .error (.raise .outOfRange)) :
    (asMalformed x >>= f) = .error (.raise .malformedSps) := by
  rw [h]
  rfl

theorem rdU_malformed {n : Nat} {c : SpsCursors} (h : pU (spsBits s) n c.rpos = none) :
    rdU (spsInput s) n c = .error (.raise .malformedSps) :=
  malformed_of_outOfRange (readFixed_outOfRange (pU_none.mp h))

theorem follows_rdU (n : Nat) : ∀ c₀, Follows s (Reached s c₀) (rdU (spsInput s) n) (pU (spsBits s) n) :=
  (Reads.rdU n).follows fun _ _ => rdU_malformed

theorem follows_rdUe : ∀ c₀, Follows s (Reached s c₀) (rdUe (spsInput s)) (pUe (spsBits s)) :=
  Reads.rdUe.follows fun _ ⟨_, hadm, _⟩ hp => malformed_of_outOfRange <| by
    obtain hzeros | ⟨k, hk, hone, hshort, hz, ho⟩ := pUe_none hp
    · exact readUe_of_zeros hzeros fun q _ => admits_bits hadm q
    · exact readUe_of_short_suffix hk hone hshort hz ho (admits_bits hadm)

theorem follows_rdSe (c₀ : SpsCursors) : Follows s (Reached s c₀) (rdSe (spsInput s)) (pSe (spsBits s)) :=
  .bind (follows_rdUe c₀) fun c => by rw [signedOf_eq_seValue]; exact .pure _

/-- The look-ahead over an HRD block. -/
theorem follows_hrdParse (c₀ : SpsCursors) : Follows s (Reached s c₀) (hrdParse (spsInput s)) (pHrd (spsBits s)) := by
  have hentry : Follows s (Reached s c₀) (hrdEntry (spsInput s)) (do pSkipUe (spsBits s) 2; pSkip (spsBits s) [1]) := by
    simp only [hrdEntry, pSkipUe, pTimes, pSkip, bind_assoc, pure_bind]
    exact .bind (follows_rdUe c₀) fun _ => .bind (follows_rdUe c₀) fun _ => .bind (follows_rdU 1 c₀) fun _ => .pure ()
  simp only [hrdParse, pHrd, pSkip, bind_assoc, pure_bind]
  exact .bind (follows_rdUe c₀) fun cc => .bind (follows_rdU 4 c₀) fun _ => .bind (follows_rdU 4 c₀) fun _ =>
    .bind (.times (cc + 1) hentry) fun _ => .bind (follows_rdU 5 c₀) fun _ => .bind (follows_rdU 5 c₀) fun _ =>
    .bind (follows_rdU 5 c₀) fun _ => .bind (follows_rdU 5 c₀) fun _ => .pure ()

/-! ### Writes -/

/-- The writer has written as many bits as the reader has read, and none past the destination. -/
structure InStep (s : State) (c : SpsCursors) : Prop where
  ready  : CodecReady s
  writer : WritesAt s.regs.dstBase.toNat s.regs.dstCap.toNat c.w
  pos    : c.w.pos = c.rpos
  inside : c.rpos ≤ 8 * s.regs.srcLen.toNat
  room   : c.rpos ≤ 8 * s.regs.dstCap.toNat

theorem inStep_start (hready : CodecReady s) : InStep s (spsCursors s) := ⟨hready, ⟨rfl, rfl⟩, rfl, Nat.zero_le _, Nat.zero_le _⟩

theorem InStep.reached {c : SpsCursors} (h : InStep s c) : Reached s c c := ⟨h.ready, rfl, le_rfl, h.inside⟩

/-- An emit into an admitted buffer with room for it succeeds. -/
theorem emit_of_admitted {pl : Platform} {base cap : Nat} {w : WCursor} {bits : List Bool} (hw : WritesAt base cap w)
    (hadm : ∀ k < cap, admits pl (base + k) = true) (hroom : w.pos + bits.length ≤ w.limit) : ∃ w', emit pl bits w = .ok w' := by
  obtain ⟨rfl, hlimit⟩ := hw
  have hin : StuckIn (fun _ => False) pl w.base cap := fun a ha hblocked => by
    have hadmitted := hadm (a - w.base) (by omega)
    rw [Nat.add_sub_of_le ha.1, hblocked] at hadmitted
    cases hadmitted
  have hloop := halts_emitLoop hin (hlimit ▸ hroom)
  rw [emit, if_pos (by omega)]
  split
  · exact ⟨w, rfl⟩
  · cases h : emitLoop pl bits w with
    | ok w' => exact ⟨w', rfl⟩
    | error e =>
      rw [h] at hloop
      exact hloop.elim

/-- The walk has read on from `c` to `r`, and writes as many bits. -/
theorem InStep.halts_wrList {c r : SpsCursors} (hc : InStep s c) (hr : Reached s c r) {bits : List Bool}
    (hlen : c.rpos + bits.length = r.rpos) (read : Option α) :
    Halts (Stops s read) (fun t => t.2.rpos = r.rpos ∧ InStep s t.2) (wrList (spsInput s) bits r) := by
  obtain ⟨⟨-, -, hdst, -⟩, hwriter, hpos, -, -⟩ := hc
  obtain ⟨hready, hw, -, hin⟩ := hr
  rw [← hw] at hwriter hpos
  obtain ⟨hbase, hlimit⟩ := hwriter
  by_cases hroom : r.w.pos + bits.length ≤ r.w.limit
  · obtain ⟨w, hok⟩ := emit_of_admitted ⟨hbase, hlimit⟩ hdst hroom
    obtain ⟨-, -, hb, hl, hp, -⟩ := emit_frame hok
    have hinside : r.rpos ≤ 8 * s.regs.dstCap.toNat := by omega
    have hwrite : wrList (spsInput s) bits r = .ok ((), { r with w := w }) := cmd_bind_ok.mpr ⟨w, hok, rfl⟩
    rw [hwrite]
    exact ⟨rfl, hready, ⟨hb.trans hbase, hl.trans hlimit⟩, hp.trans (hpos ▸ hlen), hin, hinside⟩
  · have hshort : wrList (spsInput s) bits r = .error (.raise .outOfRange) :=
      cmd_bind_error.mpr (.inl (emit_outOfRange (by omega)))
    rw [hshort]
    exact .inr ⟨rfl, by omega⟩

/-- A field read, as many bits written, and then the rest. -/
theorem Follows.field {x : Walk α} {y : Parse α} {bits : α → List Bool} {f : α → Walk β} {g : α → Parse β}
    (hx : ∀ c₀, Follows s (Reached s c₀) x y) (hb : ∀ v p q, y p = some (v, q) → p + (bits v).length = q)
    (hf : ∀ v, Follows s (InStep s) (f v) (g v)) :
    Follows s (InStep s) (do let v ← x; wrList (spsInput s) (bits v); f v) (y >>= g) := fun c hc =>
  ((hx c c hc.reached).imp (Stops.imp parse_bind_of_none)).bind fun r ⟨hy, hr⟩ => by
    rw [parse_bind_of_some hy]
    refine (hc.halts_wrList hr (hb _ _ _ hy) _).bind fun t ⟨hpos, ht⟩ => ?_
    rw [← hpos]
    exact hf r.1 t.2 ht

end Sys2Proof.Proofs
end

section
/-! PROOF. Every row of the SPS walk follows the grammar, wherever the input or the destination ends (45_sps_rewriter.md R236 to R252). -/

namespace Sys2Proof.Proofs

open Sys2Proof.Machine Sys2Proof.Claims

variable {s : State} {α : Type}

/-! ### Fields -/

/-- The three `cp` operations. -/
theorem Follows.copy {x : Walk α} {y : Parse α} {bits : α → List Bool} (hx : ∀ c₀, Follows s (Reached s c₀) x y)
    (hb : ∀ v p q, y p = some (v, q) → p + (bits v).length = q) :
    Follows s (InStep s) (do let v ← x; wrList (spsInput s) (bits v); Pure.pure v) y := by
  rw [← bind_pure y]
  exact .field hx hb .pure

theorem pU_width {x : BitInput} {n v p q : Nat} (h : pU x n p = some (v, q)) (u : Nat) : p + (bitsMsb n u).length = q := by
  obtain ⟨-, -, rfl⟩ := pU_some.mp h
  rw [bitsMsb_length]

theorem pUe_width {x : BitInput} {v p q : Nat} (h : pUe x p = some (v, q)) : p + (ueBits v).length = q := by
  obtain ⟨k, hk, rfl, rfl⟩ := pUe_some h
  rw [ueBits_codeNumber hk, stream_length, Nat.add_assoc]

theorem pSe_width {x : BitInput} {v : Int} {p q : Nat} (h : pSe x p = some (v, q)) : p + (ueBits (seCode v)).length = q := by
  obtain ⟨c, _, hc, hv⟩ := parse_bind_some.mp h
  cases parse_pure_some.mp hv
  rw [signedOf_eq_seValue, seCode_seValue, pUe_width hc]

theorem Follows.cpU (n : Nat) : Follows s (InStep s) (cpU (spsInput s) n) (pU (spsBits s) n) :=
  .copy (follows_rdU n) fun v _ _ h => pU_width h v

theorem Follows.cpUe : Follows s (InStep s) (cpUe (spsInput s)) (pUe (spsBits s)) := .copy follows_rdUe fun _ _ _ => pUe_width

theorem Follows.cpSe : Follows s (InStep s) (cpSe (spsInput s)) (pSe (spsBits s)) := .copy follows_rdSe fun _ _ _ => pSe_width

theorem Follows.keepU (n : Nat) : Follows s (InStep s) (keepU (spsInput s) n) (pSkip (spsBits s) [n]) :=
  .bind (.cpU n) fun _ => .pure ()

theorem Follows.keepUe : Follows s (InStep s) (keepUe (spsInput s)) (pSkipUe (spsBits s) 1) := by
  rw [pSkipUe_one]
  exact .bind .cpUe fun _ => .pure ()

theorem Follows.keepSe : Follows s (InStep s) (keepSe (spsInput s)) (pSkipUe (spsBits s) 1) := by
  have hse : pSkipUe (spsBits s) 1 = (do let _ ← pSe (spsBits s); Pure.pure ()) := by simp [pSkipUe_one, pSe]
  rw [hse]
  exact .bind .cpSe fun _ => .pure ()

theorem Follows.timesUe (n : Nat) {x : Walk Unit} (h : Follows s (InStep s) x (pSkipUe (spsBits s) 1)) :
    Follows s (InStep s) (Machine.times n x) (pSkipUe (spsBits s) n) :=
  .times n (pSkipUe_one (spsBits s) ▸ h)

/-- An overridden field is as long as the one read (45_sps_rewriter.md R240, R243). -/
theorem Follows.override (n : Nat) (set : Bool) (v : Nat) :
    Follows s (InStep s) (do let u ← rdU (spsInput s) n; wrU (spsInput s) n (if set then v else u)) (pSkip (spsBits s) [n]) := by
  have h := Follows.field (bits := fun u => bitsMsb n (if set then v else u)) (f := fun _ => Pure.pure ()) (follows_rdU (s := s) n)
    (fun _ _ _ h => pU_width h _) fun _ => .pure ()
  simp only [bind_pure_unit] at h
  exact h

/-! ### Blocks of bits -/

theorem follows_copyChunks {fuel len : Nat} (hfuel : len ≤ 24 * fuel) :
    Follows s (InStep s) (copyChunks (spsInput s) fuel len) (pSkip (spsBits s) [len]) := by
  have hnone : Follows s (InStep s) (Pure.pure ()) (pSkip (spsBits s) [0]) := fun c hc =>
    ⟨(pSkip_one ..).trans (if_pos hc.inside), hc⟩
  induction fuel generalizing len with
  | zero =>
    obtain rfl : len = 0 := by omega
    exact hnone
  | succ fuel ih =>
    rw [copyChunks]
    split
    · subst len
      exact hnone
    · have hchunk := Follows.bind (.keepU (s := s) (min 24 len)) fun _ => ih (len := len - min 24 len) (by omega)
      rwa [pSkip_add, show min 24 len + (len - min 24 len) = len by omega] at hchunk

theorem follows_copyBits (len : Nat) : Follows s (InStep s) (copyBits (spsInput s) len) (pSkip (spsBits s) [len]) :=
  follows_copyChunks (by omega)

/-- A copy up to a position inside the source can stop only for want of room. -/
theorem halts_copyBits_upTo {c : SpsCursors} {q : Nat} (hc : InStep s c) (hle : c.rpos ≤ q) (hq : q ≤ 8 * s.regs.srcLen.toNat) :
    Halts (Stops s (some ((), q))) (fun r => some ((), q) = some (r.1, r.2.rpos) ∧ InStep s r.2)
      (copyBits (spsInput s) (q - c.rpos) c) := by
  have hskip : pSkip (spsBits s) [q - c.rpos] c.rpos = some ((), q) := by
    rw [pSkip_one, Nat.add_sub_of_le hle]
    exact if_pos hq
  rw [← hskip]
  exact follows_copyBits (q - c.rpos) c hc

theorem Follows.hrd : Follows s (InStep s) (walkHrd (spsInput s)) (pHrd (spsBits s)) := fun c hc =>
  (follows_hrdParse c c hc.reached).bind fun r ⟨hread, _, _, hle, hin⟩ => by
    rw [hread]
    exact halts_copyBits_upTo hc hle hin

/-! ### Rows of the sequence parameter set -/

theorem Follows.scalingEntries (n : Nat) (last next : Int) :
    Follows s (InStep s) (scalingEntries (spsInput s) n last next) (pScaling (spsBits s) n last next) := by
  induction n generalizing last next with
  | zero => exact .pure ()
  | succ n ih =>
    rw [Machine.scalingEntries, pScaling]
    by_cases h : next = 0
    · subst h
      exact ih last 0
    · simp only [h, ne_eq, not_false_eq_true, if_true, if_false, ite_not]
      exact .bind .cpSe fun _ => ih _ _

theorem Follows.scalingLists (n i : Nat) :
    Follows s (InStep s) (scalingLists (spsInput s) n i) (pScalingLists (spsBits s) n i) := by
  induction n generalizing i with
  | zero => exact .pure ()
  | succ n ih => exact .bind (.cpU 1) fun _ => .bind (.onlyIf _ (.scalingEntries _ 8 8)) fun _ => ih (i + 1)

theorem Follows.high : Follows s (InStep s) (walkHigh (spsInput s)) (pHigh (spsBits s)) := by
  simp only [walkHigh, pHigh, pSkipUe_two, bind_assoc]
  exact .bind .cpUe fun _ => .bind (.onlyIf _ (.keepU 1)) fun _ => .bind .keepUe fun _ => .bind .keepUe fun _ =>
    .bind (.keepU 1) fun _ => .bind (.cpU 1) fun _ => .onlyIf _ (.scalingLists _ 0)

theorem Follows.poc : Follows s (InStep s) (walkPoc (spsInput s)) (pPoc (spsBits s)) := by
  simp only [walkPoc, walkPocCycle, pPoc, pSkipUe_two, bind_assoc]
  exact .bind .cpUe fun _ => .bind (.onlyIf _ .keepUe) fun _ => .onlyIf _ <| .bind (.keepU 1) fun _ => .bind .keepSe fun _ =>
    .bind .keepSe fun _ => .bind .cpUe fun m => .timesUe m .keepSe

theorem Follows.middle (profile : Nat) : Follows s (InStep s) (walkMiddle (spsInput s) profile) (pMiddle (spsBits s) profile) := by
  simp only [walkMiddle, walkFrame, pMiddle, pSkipUe_two, bind_assoc]
  exact .bind .keepUe fun _ => .bind (.onlyIf _ .high) fun _ => .bind .keepUe fun _ => .bind .poc fun _ => .bind .keepUe fun _ =>
    .bind (.keepU 1) fun _ => .bind .keepUe fun _ => .bind .keepUe fun _ => .bind (.cpU 1) fun _ =>
    .bind (.onlyIf _ (.keepU 1)) fun _ => .bind (.keepU 1) fun _ => .bind (.cpU 1) fun _ =>
    .bind (.onlyIf _ (.timesUe 4 .keepUe)) fun _ => .cpU 1

/-! ### VUI parameters -/

theorem Follows.vuiDisplay : Follows s (InStep s) (walkVuiDisplay (spsInput s)) (pVuiDisplay (spsBits s)) := by
  simp only [walkVuiDisplay, walkAspect, walkSignal, pVuiDisplay, pSkipUe_two, pSkip_cons_cons, bind_assoc]
  exact .bind (.cpU 1) fun _ => .bind (.onlyIf _ <| .bind (.cpU 8) fun _ => .onlyIf _ <| .bind (.keepU 16) fun _ => .keepU 16)
    fun _ => .bind (.cpU 1) fun _ => .bind (.onlyIf _ (.keepU 1)) fun _ => .bind (.cpU 1) fun _ =>
    .bind (.onlyIf _ <| .bind (.keepU 3) fun _ => .bind (.keepU 1) fun _ => .bind (.cpU 1) fun _ => .onlyIf _ <|
      .bind (.keepU 8) fun _ => .bind (.keepU 8) fun _ => .keepU 8)
    fun _ => .bind (.cpU 1) fun _ => .onlyIf _ <| .bind .keepUe fun _ => .keepUe

theorem Follows.timing : Follows s (InStep s) (walkTiming (spsInput s)) (pSkip (spsBits s) [32, 32, 1]) := by
  rw [walkTiming_eq, pSkip_cons_cons, pSkip_cons_cons]
  exact .bind (.override 32 _ _) fun _ => .bind (.override 32 _ _) fun _ => .override 1 _ _

theorem Follows.vuiRest : Follows s (InStep s) (walkVuiRest (spsInput s)) (pVuiRest (spsBits s)) := by
  simp only [walkVuiRest, walkVuiHrd, bind_assoc]
  exact .bind (.cpU 1) fun _ => .bind (.onlyIf _ .hrd) fun _ => .bind (.cpU 1) fun _ => .bind (.onlyIf _ .hrd) fun _ =>
    .bind (.onlyIf _ (.keepU 1)) fun _ => .bind (.keepU 1) fun _ => .bind (.cpU 1) fun _ =>
    .onlyIf _ <| .bind (.keepU 1) fun _ => .timesUe 6 .keepUe

/-- The VUI parameters without the position the grammar notes. -/
theorem pVui_discard (x : BitInput) : (do let _ ← pVui x; pure ()) = (do
    let timing ← (do pVuiDisplay x; pU x 1)
    pIf (timing == 1) (pSkip x [32, 32, 1])
    pVuiRest x) := by
  rw [pVui_eq]
  simp only [bind_assoc, pure_bind, bind_pure_unit]
  rfl

theorem Follows.vui : Follows s (InStep s) (walkVui (spsInput s)) (do let _ ← pVui (spsBits s); Pure.pure ()) := by
  rw [walkVui_eq, pVui_discard]
  exact .bind (.bind .vuiDisplay fun _ => .cpU 1) fun _ => .bind (.onlyIf _ .timing) fun _ => .vuiRest

/-! ### The walk -/

/-- The walk after its first row. -/
def walkAfterProfile (x : SpsInput) (profile : Nat) : Walk Unit := do
  keepU x 8
  walkLevel x
  let vui ← walkMiddle x profile
  onlyIf (vui == 1) (walkVui x)

theorem walkSps_eq_bind (x : SpsInput) : walkSps x = walkProfile x >>= walkAfterProfile x := by
  simp only [walkSps_eq, walkStart, bind_assoc, pure_bind]
  rfl

theorem pSps_discard (x : BitInput) : (do let _ ← pSps x; pure ()) = (do
    let profile ← pU x 8
    pSkip x [8]
    pSkip x [8]
    let vui ← pMiddle x profile
    pIf (vui == 1) (do let _ ← pVui x; pure ())) := by
  have hvui (vui : Nat) : (do let _ ← (if vui = 1 then pVui x else pure none); pure ()) =
      pIf (vui == 1) (do let _ ← pVui x; pure ()) := by
    by_cases h : vui = 1
    · subst h
      rfl
    · rw [if_neg h, beq_false_of_ne h]
      rfl
  rw [pSps_eq]
  simp only [bind_assoc, pure_bind, hvui]

theorem Follows.afterProfile (profile : Nat) : Follows s (InStep s) (walkAfterProfile (spsInput s) profile) (do
    pSkip (spsBits s) [8]
    pSkip (spsBits s) [8]
    let vui ← pMiddle (spsBits s) profile
    pIf (vui == 1) (do let _ ← pVui (spsBits s); Pure.pure ())) :=
  .bind (.keepU 8) fun _ => .bind (.override 8 _ _) fun _ => .bind (.middle profile) fun _ => .onlyIf _ .vui

end Sys2Proof.Proofs
end

section
/-! PROOF. SPS_REWRITE on an input the grammar does not read, under a profile the mask refuses, and into a small destination
(45_sps_rewriter.md R241, R254). -/

namespace Sys2Proof.Proofs

open Sys2Proof.Machine Sys2Proof.Claims

variable {s : State}

/-! ### The walk and the trailing copy -/

/-- The first row at the start of the input: the profile is the first byte (45_sps_rewriter.md R241). -/
theorem walkProfile_at_start {c : SpsCursors} (hq : c.rpos = 0) : walkProfile (spsInput s) c =
    (if profileAllowed s = true then cpU (spsInput s) 8 else do let _ ← rdU (spsInput s) 8; throw (.raise .malformedSps)) c := by
  have hfirst {v : Nat} {r : SpsCursors} (hr : rdU (spsInput s) 8 c = .ok (v, r)) :
      ((spsInput s).allow.toList.getD (v / 32) 0).getLsbD (v % 32) = profileAllowed s := by
    obtain ⟨hread, -⟩ := rdU_ok hr
    obtain ⟨-, -, -, rfl⟩ := readFixed_ok.mp hread
    rw [hq, bitsAt_first_byte]
    rfl
  cases hallow : profileAllowed s <;> exact cmd_bind_congr fun ⟨v, r⟩ hr => by
    simp only [hfirst hr, hallow]
    rfl

/-- The walk from the start, with an allowed profile. -/
theorem walkSps_halts (hready : CodecReady s) (hallow : profileAllowed s = true) :
    Halts (Stops s (pSps (spsBits s) 0)) (fun r => pSps (spsBits s) 0 ≠ none ∧ InStep s r.2)
      (walkSps (spsInput s) (spsCursors s)) := by
  have hstart : walkSps (spsInput s) (spsCursors s) =
      (cpU (spsInput s) 8 >>= walkAfterProfile (spsInput s)) (spsCursors s) := by
    rw [walkSps_eq_bind]
    change (walkProfile (spsInput s) (spsCursors s) >>= _) = _
    rw [walkProfile_at_start rfl, if_pos hallow]
    rfl
  have hwalk := Follows.bind (.cpU (s := s) 8) .afterProfile (spsCursors s) (inStep_start hready)
  rw [← pSps_discard, ← hstart] at hwalk
  have hreads : (do let _ ← pSps (spsBits s); pure () : Parse Unit) 0 = none ↔ pSps (spsBits s) 0 = none := by
    refine ⟨fun hnone => ?_, parse_bind_of_none⟩
    cases hread : pSps (spsBits s) 0 with
    | none => rfl
    | some r => cases (parse_bind_of_some hread).symm.trans hnone
  refine (hwalk.imp (Stops.imp hreads.mp)).mono fun r _ ⟨hread, hr⟩ => ⟨fun hnone => ?_, hr⟩
  cases (hreads.mpr hnone).symm.trans hread

/-- The trailing copy stops only for want of room. -/
theorem walkTail_halts {α : Type} {c : SpsCursors} (hc : InStep s c) (read : Option α) :
    Halts (Stops s read) (fun r => r.2.rpos = 8 * s.regs.srcLen.toNat ∧ InStep s r.2) (walkTail (spsInput s) c) := by
  refine ((halts_copyBits_upTo hc hc.inside le_rfl).imp (Stops.imp nofun)).mono fun r _ ⟨hpos, hr⟩ => ⟨?_, hr⟩
  exact (Prod.mk.inj (Option.some.inj hpos)).2.symm

/-- The rule with an allowed profile: it succeeds only when the grammar reads the input and the destination has room. -/
theorem spsBody_halts_of_allowed (hready : CodecReady s) (hallow : profileAllowed s = true) :
    Halts (Stops s (pSps (spsBits s) 0))
      (fun _ => pSps (spsBits s) 0 ≠ none ∧ s.regs.srcLen.toNat ≤ s.regs.dstCap.toNat) (spsBody s) := by
  refine Halts.bind (P := fun r => pSps (spsBits s) 0 ≠ none ∧ r.2.rpos = 8 * s.regs.srcLen.toNat ∧ InStep s r.2) ?_
    fun ⟨_, c⟩ ⟨hread, hend, hc⟩ => ?_
  · refine (walkSps_halts hready hallow).bind fun r ⟨hread, hr⟩ => ?_
    exact (walkTail_halts hr _).mono fun _ _ ht => ⟨hread, ht⟩
  · have hroom := hc.room
    have hflush : flush s.platform c.w = .ok { c.w with acc := 0 } := by
      rw [flush, if_pos (by rw [hc.pos, hc.writer.2]; exact hroom), if_pos (by rw [hc.pos]; omega)]
    change Halts _ _ (flush s.platform c.w >>= _)
    rw [hflush]
    exact ⟨hread, by omega⟩

/-- A profile that is not allowed is MALFORMED_SPS, and so is a source too short to hold one (45_sps_rewriter.md R241). -/
theorem spsBody_of_refused (hready : CodecReady s) (hrefused : profileAllowed s = false) :
    spsBody s = .error (.raise .malformedSps) := by
  have hprofile : walkProfile (spsInput s) (spsCursors s) = .error (.raise .malformedSps) := by
    rw [walkProfile_at_start rfl, hrefused]
    cases h : pU (spsBits s) 8 0 with
    | none => exact cmd_bind_error.mpr (.inl (rdU_malformed h))
    | some r =>
      obtain ⟨hread, -⟩ := Reads.rdU 8 hready.2.1 (spsCursors s) r.1 r.2 (Nat.zero_le _) h
      exact cmd_bind_error.mpr (.inr ⟨_, hread, rfl⟩)
  have hwalk : walkSps (spsInput s) (spsCursors s) = .error (.raise .malformedSps) := by
    rw [walkSps_eq_bind]
    exact cmd_bind_error.mpr (.inl hprofile)
  exact cmd_bind_error.mpr (.inl (cmd_bind_error.mpr (.inl hwalk)))

/-! ### The command -/

/-- A command whose rule raises an error leaves the destination unspecified (40_command_protocol.md R136). -/
theorem failedDst_of_raise {c : Code} (hc : codeIsError c = true) {r : Cmd Done} (hr : r = .error (.raise c)) :
    ∃ t, concludeDst s r = .next t ∧ FailedDst s t c s.regs.dstBase.toNat s.regs.dstCap.toNat := by
  rw [hr]
  refine ⟨_, rfl, ?_, fun _ => Memory.read_scramble_outside _ _ _ _⟩
  rw [failWith, commit, hc]
  rfl

/-- With ready buffers and a frame rate that fits, the command is its rule. -/
theorem exec_spsRewrite_of_ready (hready : CodecReady s) (hfps : FpsFits s) : exec .spsRewrite s = concludeDst s (spsBody s) := by
  have hsupported : fpsUnsupported s.regs = false := by
    simpa [fpsUnsupported, FpsFits] using hfps
  rw [exec_spsRewrite, execSpsRewrite, guarded_pass rfl (rangesOk_spsRewrite hready.1), hsupported]
  rfl

/-- Settles O50, by induction along the grammar: each part of the walk stops where the grammar fails, or for want of room. -/
theorem spsFailureCodes : Obligations.SpsFailureCodes := fun s hready hfps => by
  rw [exec_spsRewrite_of_ready hready hfps]
  refine ⟨fun hfits hbroken => failedDst_of_raise rfl ?_, fun hshort hread hallow => failedDst_of_raise rfl ?_⟩
  · cases hallow : profileAllowed s with
    | false => exact spsBody_of_refused hready hallow
    | true =>
      have hnone : pSps (spsBits s) 0 = none := hbroken.resolve_right fun ⟨_, h⟩ => nomatch hallow.symm.trans h
      refine (spsBody_halts_of_allowed hready hallow).eq_error (fun _ h => h.1 hnone) fun e he => ?_
      obtain ⟨rfl, -⟩ | ⟨-, hshort⟩ := he
      · rfl
      · omega
  · refine (spsBody_halts_of_allowed hready hallow).eq_error (fun _ h => by omega) fun e he => ?_
    obtain ⟨-, hnone⟩ | ⟨rfl, -⟩ := he
    · exact absurd hnone hread
    · rfl

end Sys2Proof.Proofs
end

section
/-! PROOF. DCA_SCAN over a chunk: what the command leaves at the end of its loop, a chunk fed in two parts, the bypass and the state
check (46_dca_scanner.md R290 to R297). -/

namespace Sys2Proof.Proofs

open Sys2Proof.Machine Sys2Proof.Claims

/-! ### The end of a scan -/

/-- `s` after a scan whose loop ended with these DCA registers and, at a boundary, the chunk index of its byte
(46_dca_scanner.md R291, R292). -/
def scanEnd (s : State) : Dca × Option Nat → State
  | (d, none) => scannedState s d
  | (d, some i) => okState s { s.regs with res0 := boundaryOffset d i, dca := d } s.mem

section End

variable {s : State} (hspace : inSpace s.regs.srcBase.toNat s.regs.srcLen.toNat)
include hspace

theorem exec_dcaScan_ok (haccepts : ScanAccepts s.regs.dca) {r : Dca × Option Nat}
    (hloop : scanLoop s.platform s.mem s.regs.srcBase.toNat s.regs.srcLen.toNat 0 s.regs.dca = .ok r) :
    exec (.dcaScan false) s = .next (scanEnd s r) := by
  have hranges : rangesOk s.regs (.dcaScan false) = true := rangesOk_of_readRange rfl rfl hspace
  have hrule {x : Cmd Done} (hx : dcaScanRule false s = x) :
      exec (.dcaScan false) s = conclude s x := hx ▸ guarded_pass rfl hranges
  rw [dcaScanRule, if_neg Bool.false_ne_true, require_bind (dcaStateOk_iff.mpr haccepts), hloop] at hrule
  obtain ⟨d, _ | i⟩ := r
  · exact hrule rfl
  · exact hrule rfl

/-- A state no scan produces is refused before any byte is read (46_dca_scanner.md R290). -/
theorem exec_dcaScan_refused (hrefused : ¬ ScanAccepts s.regs.dca) :
    exec (.dcaScan false) s = .next (errorState s .illegalCommand) := by
  have hrule : dcaScanRule false s = .error (.raise .illegalCommand) := by
    rw [dcaScanRule, if_neg Bool.false_ne_true,
      require_bind_raise (Bool.eq_false_iff.mpr (mt dcaStateOk_iff.mp hrefused))]
  refine (guarded_pass rfl (rangesOk_of_readRange rfl rfl hspace)).trans ?_
  rw [hrule]
  rfl

end End

/-! ### The per-byte step and the states a scan accepts -/

theorem familyNumber_accepted (f : Family) : (familyNumber f).toNat ≤ 5 ∧ (familyNumber f).toNat ≠ 0 := by
  cases f <;> decide

/-- Outside phase 0 a family is locked, and a change of phase keeps it locked. -/
theorem accepts_of_sameLock {d d' : Dca} (h : ScanAccepts d) (hphase : d.phase ≠ 0) (phase : BitVec 3)
    (hle : phase.toNat ≤ 4) (hphase' : d'.phase = phase) (hlock : d'.lock = d.lock) : ScanAccepts d' := by
  obtain ⟨-, hlockLe, hlocked⟩ := h
  exact ⟨hphase' ▸ hle, hlock ▸ hlockLe, .inr (hlock ▸ hlocked.resolve_left fun h0 => hphase (BitVec.eq_of_toNat_eq h0))⟩

section Phases

variable {d : Dca} (h : ScanAccepts d) (p : Params)
include h

theorem phaseNoStart_accepts : ScanAccepts (phaseNoStart p d) := by
  unfold phaseNoStart
  split
  · exact h
  · rename_i f _
    obtain ⟨hle, hne⟩ := familyNumber_accepted f
    have hone : (1 : BitVec 3).toNat ≤ 4 := by decide
    split
    · exact ⟨hone, hle, .inr hne⟩
    · rename_i hlock
      exact ⟨hone, h.2.1, .inr fun h0 => hlock (BitVec.eq_of_toNat_eq h0)⟩

variable (hphase : d.phase ≠ 0)
include hphase

theorem phaseAwaitSize_accepts : ScanAccepts (phaseAwaitSize p d) := by
  unfold phaseAwaitSize
  split
  · exact h
  · rename_i f _
    split
    · refine accepts_of_sameLock h hphase (if exssAfter p f then 2 else 4) ?_ rfl rfl
      split <;> decide
    · exact h

theorem phaseAdjacent_accepts : ScanAccepts (phaseAdjacent p d) := by
  unfold phaseAdjacent
  split
  · exact accepts_of_sameLock h hphase 3 (by decide) rfl rfl
  · exact h

theorem phaseExssSize_accepts : ScanAccepts (phaseExssSize p d) := by
  unfold phaseExssSize
  split
  · exact accepts_of_sameLock h hphase 4 (by decide) rfl rfl
  · exact h

end Phases

/-- Every byte leads from a state a scan accepts to one it accepts (46_dca_scanner.md R290). -/
theorem dcaByte_accepts {d : Dca} (h : ScanAccepts d) (p : Params) (b : Byte) : ScanAccepts (dcaByte p d b).1 := by
  have htaken : ScanAccepts (takeByte d b) := h
  have hboundary (hphase : (takeByte d b).phase ≠ 0) : ScanAccepts (boundary (takeByte d b)) :=
    accepts_of_sameLock htaken hphase 0 (by decide) rfl rfl
  unfold dcaByte
  dsimp only
  split_ifs with h0
  · exact phaseNoStart_accepts htaken p
  · exact phaseAwaitSize_accepts htaken p h0
  · exact hboundary h0
  · exact phaseAdjacent_accepts htaken p h0
  · exact phaseExssSize_accepts htaken p h0
  · exact hboundary h0
  · exact htaken
  · exact htaken

/-! ### The chunk loop -/

section Loop

variable {pl : Platform} {m : Memory} {base n i : Nat} {d : Dca} {r : Dca × Option Nat}

/-- The loop takes one byte, and goes on unless it confirms a boundary. -/
theorem scanLoop_succ_ok : scanLoop pl m base (n + 1) i d = .ok r ↔
    ∃ b, fetchByte pl m (base + i) = .ok b ∧
      if (dcaByte pl.params d b).2 then ((dcaByte pl.params d b).1, some i) = r
      else scanLoop pl m base n (i + 1) (dcaByte pl.params d b).1 = .ok r := by
  rw [scanLoop, cmd_bind_ok]
  refine exists_congr fun b => and_congr_right fun _ => ?_
  obtain ⟨d', _ | _⟩ := dcaByte pl.params d b
  · rfl
  · exact Except.ok.injEq .. |>.to_iff

theorem scanLoop_of_admitted (hadm : ∀ k < n, admits pl (base + k) = true) (d : Dca) :
    ∃ r, scanLoop pl m base n 0 d = .ok r := by
  have hin : StuckIn (fun _ => False) pl base n := fun a ⟨hlo, hhi⟩ hblocked => by
    rw [← Nat.add_sub_cancel' hlo, hadm _ (by omega)] at hblocked
    cases hblocked
  have hhalts := halts_scanLoop hin m (n := n) (i := 0) (by omega) d
  match scanLoop pl m base n 0 d, hhalts with
  | .ok r, _ => exact ⟨r, rfl⟩
  | .error _, hnever => exact hnever.elim

theorem scanLoop_accepts (haccepts : ScanAccepts d) (h : scanLoop pl m base n i d = .ok r) : ScanAccepts r.1 := by
  induction n generalizing i d with
  | zero =>
    cases h
    exact haccepts
  | succ n ih =>
    obtain ⟨b, -, h⟩ := scanLoop_succ_ok.mp h
    split at h
    · exact h ▸ dcaByte_accepts haccepts ..
    · exact ih (dcaByte_accepts haccepts ..) h

/-- A boundary in the first n bytes ends the loop over more bytes too. -/
theorem scanLoop_add_boundary {n2 k : Nat} {d' : Dca} (h : scanLoop pl m base n i d = .ok (d', some k)) :
    scanLoop pl m base (n + n2) i d = .ok (d', some k) := by
  induction n generalizing i d with
  | zero => cases h
  | succ n ih =>
    rw [Nat.succ_add, scanLoop_succ_ok]
    obtain ⟨b, hb, h⟩ := scanLoop_succ_ok.mp h
    refine ⟨b, hb, ?_⟩
    split at h
    · rwa [if_pos ‹_›]
    · rw [if_neg ‹_›]
      exact ih h

/-- After n bytes without a boundary the loop over more bytes goes on where they end. -/
theorem scanLoop_add_none {n2 : Nat} {d' : Dca} (h : scanLoop pl m base n i d = .ok (d', none))
    (h2 : scanLoop pl m base n2 (i + n) d' = .ok r) : scanLoop pl m base (n + n2) i d = .ok r := by
  induction n generalizing i d with
  | zero =>
    cases h
    rwa [Nat.zero_add]
  | succ n ih =>
    rw [Nat.succ_add, scanLoop_succ_ok]
    obtain ⟨b, hb, h⟩ := scanLoop_succ_ok.mp h
    refine ⟨b, hb, ?_⟩
    split at h
    · cases h
    · rw [if_neg ‹_›]
      exact ih h (by rwa [Nat.add_right_comm, Nat.add_assoc])

/-- The loop from byte i + k on is the loop over the buffer that begins k bytes later, but for the index it reports. -/
theorem scanLoop_shift {k : Nat} {d' : Dca} {e : Option Nat} (h : scanLoop pl m (base + k) n i d = .ok (d', e)) :
    scanLoop pl m base n (i + k) d = .ok (d', e.map (· + k)) := by
  induction n generalizing i d with
  | zero =>
    cases h
    rfl
  | succ n ih =>
    rw [scanLoop_succ_ok]
    obtain ⟨b, hb, h⟩ := scanLoop_succ_ok.mp h
    refine ⟨b, by rwa [← Nat.add_assoc, Nat.add_right_comm], ?_⟩
    split at h
    · rw [if_pos ‹_›]
      cases h
      rfl
    · rw [if_neg ‹_›, Nat.add_right_comm]
      exact ih h

end Loop

/-! ### A chunk fed in two parts -/

/-- The offset of a boundary n bytes later (46_dca_scanner.md R292). -/
theorem boundaryOffset_add (d : Dca) (i n : Nat) : boundaryOffset d (i + n) = boundaryOffset d i + BitVec.ofNat 32 n := by
  rw [boundaryOffset, boundaryOffset, ← BitVec.ofInt_natCast, ← BitVec.ofInt_add]
  congr 1
  omega

/-- The second part of a buffer begins where the first ends. At the end of the address space the register wraps, and the second part
is empty. -/
theorem scanLoop_secondPart {b : Word} {n1 n2 : Nat} (h : inSpace b.toNat (n1 + n2)) (pl : Platform) (m : Memory) (d : Dca) :
    scanLoop pl m (b + BitVec.ofNat 32 n1).toNat n2 0 d = scanLoop pl m (b.toNat + n1) n2 0 d := by
  cases n2 with
  | zero => rfl
  | succ n2 =>
    rw [inSpace] at h
    rw [BitVec.toNat_add, BitVec.toNat_ofNat, Nat.add_mod_mod, Nat.mod_eq_of_lt (by omega)]

theorem inSpace_secondPart {b : Word} {n1 n2 : Nat} (h : inSpace b.toNat (n1 + n2)) :
    inSpace (b + BitVec.ofNat 32 n1).toNat n2 := by
  rw [inSpace, BitVec.toNat_add, BitVec.toNat_ofNat] at *
  omega

/-- `s` with only the first n1 bytes of its chunk. -/
def firstPart (s : State) (n1 : Nat) : State := { s with regs := { s.regs with srcLen := BitVec.ofNat 29 n1 } }

/-- `t` with the n2 bytes after the first n1 of the chunk of `s`. -/
def secondPart (s t : State) (n1 n2 : Nat) : State :=
  { t with regs := { t.regs with srcBase := s.regs.srcBase + BitVec.ofNat 32 n1, srcLen := BitVec.ofNat 29 n2 } }

section Parts

variable {s : State} {n1 n2 : Nat} {d : Dca} (hlen : s.regs.srcLen.toNat = n1 + n2) (hready : SourceReady s)
  (haccepts : ScanAccepts s.regs.dca)
include hlen

theorem firstPart_srcLen : (firstPart s n1).regs.srcLen.toNat = n1 :=
  Nat.mod_eq_of_lt (by have := s.regs.srcLen.isLt; omega)

theorem secondPart_srcLen (t : State) : (secondPart s t n1 n2).regs.srcLen.toNat = n2 :=
  Nat.mod_eq_of_lt (by have := s.regs.srcLen.isLt; omega)

include hready

theorem firstPart_ready : SourceReady (firstPart s n1) := by
  obtain ⟨hspace, hadm⟩ := hready
  rw [inSpace, hlen] at hspace
  rw [SourceReady, inSpace, firstPart_srcLen hlen]
  exact ⟨(Nat.add_le_add_left (Nat.le_add_right n1 n2) _).trans hspace, fun k hk => hadm k (by omega)⟩

include haccepts

/-- A boundary in the first part is the boundary of the whole chunk. -/
theorem exec_whole_of_boundary {k : Nat}
    (hfirst : scanLoop s.platform s.mem s.regs.srcBase.toNat n1 0 s.regs.dca = .ok (d, some k)) :
    exec (.dcaScan false) s = .next (scanEnd s (d, some k)) :=
  exec_dcaScan_ok hready.1 haccepts (hlen ▸ scanLoop_add_boundary hfirst)

/-- Without a boundary in the first part, the scan of the whole ends as the scan of the second part ends. -/
theorem exec_whole_of_none (hfirst : scanLoop s.platform s.mem s.regs.srcBase.toNat n1 0 s.regs.dca = .ok (d, none)) :
    ∃ d' e, exec (.dcaScan false) (secondPart s (scannedState (firstPart s n1) d) n1 n2) =
        .next (scanEnd (secondPart s (scannedState (firstPart s n1) d) n1 n2) (d', e)) ∧
      exec (.dcaScan false) s = .next (scanEnd s (d', e.map (· + n1))) := by
  have hspace := hlen ▸ hready.1
  obtain ⟨⟨d', e⟩, hsecond⟩ := scanLoop_of_admitted (m := s.mem) (base := s.regs.srcBase.toNat + n1) (n := n2)
    (fun k hk => by rw [Nat.add_assoc]; exact hready.2 _ (by omega)) d
  have hn2 := secondPart_srcLen hlen (scannedState (firstPart s n1) d)
  refine ⟨d', e, exec_dcaScan_ok (hn2.symm ▸ inSpace_secondPart hspace :) (scanLoop_accepts haccepts hfirst) ?_,
    exec_dcaScan_ok hready.1 haccepts (hlen ▸ scanLoop_add_none hfirst (scanLoop_shift hsecond))⟩
  rw [hn2]
  exact (scanLoop_secondPart hspace ..).trans hsecond

end Parts

/-- Settles O58: the loop over the whole chunk is the loop over the first part and, without a boundary there, over the second. -/
theorem chunkingInvariance : Obligations.ChunkingInvariance := fun s t n1 n2 hready hlen hfirst => by
  change exec (.dcaScan false) (firstPart s n1) = .next t at hfirst
  have hready1 := firstPart_ready hlen hready
  by_cases haccepts : ScanAccepts s.regs.dca
  · obtain ⟨⟨d, e⟩, hloop⟩ := scanLoop_of_admitted (m := s.mem) hready1.2 s.regs.dca
    cases hfirst.symm.trans (exec_dcaScan_ok hready1.1 haccepts hloop)
    rw [firstPart_srcLen hlen] at hloop
    cases e with
    | some k => exact ⟨nofun, fun _ => exec_whole_of_boundary hlen hready haccepts hloop⟩
    | none =>
      obtain ⟨d', e, hsecond, hwhole⟩ := exec_whole_of_none hlen hready haccepts hloop
      refine ⟨fun _ => ⟨_, hsecond, hwhole.trans ?_⟩, nofun⟩
      cases e with
      | none => rfl
      | some k =>
        rw [Option.map_some, scanEnd, boundaryOffset_add]
        rfl
  · cases hfirst.symm.trans (exec_dcaScan_refused hready1.1 haccepts)
    exact ⟨nofun, nofun⟩

/-! ### The bypass, the state check and the empty chunk -/

/-- Settles O59: with F = 1 the rule reads nothing, and with F = 0 it checks the state first; the loop over no byte changes nothing. -/
theorem scanBypassAndStateCheck : Obligations.ScanBypassAndStateCheck := fun s hspace => by
  refine ⟨?_, fun hbad => ?_, fun hempty hphase hlock hlocked => ?_⟩
  · rw [BitVec.ofNat_toNat]
    exact guarded_conclude_ok (i := .dcaScan true) rfl (rangesOk_of_readRange rfl rfl hspace) (x := dcaScanRule true s) rfl
  · refine exec_dcaScan_refused hspace fun ⟨hphase, hlock, hlocked⟩ => ?_
    simp only [ne_eq, ← BitVec.toNat_inj, BitVec.ofNat_eq_ofNat, BitVec.toNat_zero] at hbad
    omega
  · refine exec_dcaScan_ok hspace (r := (s.regs.dca, none)) ⟨hphase, hlock, ?_⟩ (by rw [hempty]; rfl)
    simpa [← BitVec.toNat_inj] using hlocked

/-- Settles O60: the command has no range and cannot fail. -/
theorem dcaResetClearsTheScanner : Obligations.DcaResetClearsTheScanner := fun _ =>
  guarded_conclude_ok (i := .dcaReset) rfl rfl rfl

end Sys2Proof.Proofs
end

section
/-! PROOF. The sync table of the claims against the parameters of the model: a row for each family, and no window that matches two
patterns (46_dca_scanner.md R281 to R284). -/

namespace Sys2Proof.Proofs

open Sys2Proof.Machine Sys2Proof.Claims

/-! ### Families and their numbers -/

theorem familyOf_familyNumber (f : Family) : familyOf (familyNumber f) = some f := by
  cases f <;> rfl

theorem familyNumber_injective : Function.Injective familyNumber := fun f g h =>
  Option.some.inj ((familyOf_familyNumber f).symm.trans (h ▸ familyOf_familyNumber g))

theorem familyNumber_ne_zero (f : Family) : familyNumber f ≠ 0 := fun h =>
  (familyNumber_accepted f).2 (congrArg BitVec.toNat h)

theorem familyNumber_of_familyOf {lock : BitVec 3} {f : Family} (h : familyOf lock = some f) : lock = familyNumber f := by
  revert lock f
  decide

/-! ### A row for each family -/

/-- The row of the sync table for a family, with the parameters of a state. -/
def rowOfFamily (s : State) : Family → SyncRow
  | .exss => exssRowOf s
  | f => coreRowOf s f (familyNumber f).toNat

theorem syncRows_eq (s : State) : syncRows s = families.map (rowOfFamily s) := rfl

theorem mem_families (f : Family) : f ∈ families := by
  cases f <;> decide

theorem mem_syncRows {s : State} {row : SyncRow} : row ∈ syncRows s ↔ ∃ f, rowOfFamily s f = row := by
  simp [syncRows_eq, mem_families]

section Row

variable (s : State) (f : Family)

theorem rowOfFamily_family : (rowOfFamily s f).family = (familyNumber f).toNat := by
  cases f <;> rfl

theorem rowOfFamily_mlen : (rowOfFamily s f).mlen = markerLen f := by
  cases f <;> rfl

theorem rowOfFamily_sizeAt : (rowOfFamily s f).sizeAt = sizeAt s.platform.params f := by
  cases f <;> rfl

theorem rowOfFamily_size (w : Window) : (rowOfFamily s f).size w.toNat = frameSize s.platform.params f w := by
  cases f <;> rfl

theorem rowOfFamily_exssAfter : (rowOfFamily s f).exssAfter = exssAfter s.platform.params f := by
  cases f <;> rfl

theorem syncMatch_rowOfFamily (w : Window) :
    SyncMatch (rowOfFamily s f) w.toNat ↔ matchesSync s.platform.params f w = true := by
  rw [matchesSync_iff]
  cases f <;> rfl

end Row

/-- A row names its family by the number LOCK holds. -/
theorem familyOf_eq_of_row {s : State} {lock : BitVec 3} {f : Family} (h : lock.toNat = (rowOfFamily s f).family) :
    familyOf lock = some f := by
  rw [rowOfFamily_family] at h
  exact BitVec.eq_of_toNat_eq h ▸ familyOf_familyNumber f

/-! ### No window matches two patterns -/

/-- A window that matches two patterns has both values where both masks look. -/
theorem values_agree_of_matchesSync {p : Params} {f g : Family} {w : Window} (hf : matchesSync p f w = true)
    (hg : matchesSync p g w = true) :
    (p.dcaPat.get f).value &&& (p.dcaPat.get g).mask = (p.dcaPat.get g).value &&& (p.dcaPat.get f).mask := by
  rw [matchesSync, beq_iff_eq] at hf hg
  rw [← hf, ← hg, BitVec.and_assoc, BitVec.and_assoc, BitVec.and_comm (p.dcaPat.get f).mask]

/-- Any two of the five patterns differ in a bit both masks look at (46_dca_scanner.md R282). -/
theorem specPatterns_separate : ∀ f ∈ families, ∀ g ∈ families,
    (specPatterns.get f).value &&& (specPatterns.get g).mask = (specPatterns.get g).value &&& (specPatterns.get f).mask → f = g := by
  decide

theorem syncRows_of_spec {s : State} (h : s.platform.params = Params.spec) : syncRows s = syncTable := by
  simp only [syncRows, coreRowOf, exssRowOf, h]
  rfl

/-- Settles O52: two patterns that both match agree on their common mask, and each family has its row. -/
theorem syncPatternsAreDisjoint : Obligations.SyncPatternsAreDisjoint := by
  refine ⟨fun f g w hf hg => ?_, fun s => syncRows_of_spec, fun s f w => ⟨fun h => ?_, fun ⟨row, hmem, hfamily, hmatch⟩ => ?_⟩⟩
  · exact specPatterns_separate f (mem_families f) g (mem_families g) (values_agree_of_matchesSync hf hg)
  · exact ⟨_, mem_syncRows.mpr ⟨f, rfl⟩, rowOfFamily_family s f, (syncMatch_rowOfFamily s f w).mpr h⟩
  · obtain ⟨g, rfl⟩ := mem_syncRows.mp hmem
    rw [rowOfFamily_family] at hfamily
    rw [← familyNumber_injective (BitVec.eq_of_toNat_eq hfamily)]
    exact (syncMatch_rowOfFamily s g w).mp hmatch

end Sys2Proof.Proofs
end

section
/-! PROOF. DCA_SCAN of one byte: the update of WIN and COUNT, and what each phase does with it (46_dca_scanner.md R285 to R289, R292). -/

namespace Sys2Proof.Proofs

open Sys2Proof.Machine Sys2Proof.Claims

/-! ### The byte taken -/

@[simp] theorem byteTaken_win_toNat (s : State) (b : Byte) : (byteTaken s b).win.toNat = winAfter s b :=
  Nat.mod_eq_of_lt (Nat.mod_lt _ (by decide))

@[simp] theorem byteTaken_count_toNat (s : State) (b : Byte) : (byteTaken s b).count.toNat = countAfter s :=
  Nat.mod_eq_of_lt (Nat.mod_lt _ (by decide))

/-- A byte shifted into the window is u64(WIN · 256 + b). -/
theorem shiftIn_toNat (w : Window) (b : Byte) : ((w <<< 8) ||| b.zeroExtend 64).toNat = (w.toNat * 256 + b.toNat) % 2 ^ 64 := by
  have hor : w.toNat * 256 + b.toNat = w.toNat <<< 8 ||| b.toNat := by
    rw [← Nat.shiftLeft_add_eq_or_of_lt b.isLt, Nat.shiftLeft_eq]
  rw [BitVec.toNat_or, BitVec.toNat_shiftLeft, hor, Nat.or_mod_two_pow]
  exact congrArg _ (BitVec.toNat_setWidth ..)

/-- The model's update of WIN and COUNT is the one the claims write on numbers. -/
theorem takeByte_eq_byteTaken (s : State) (b : Byte) : takeByte s.regs.dca b = byteTaken s b := by
  have hwin : (s.regs.dca.win <<< 8) ||| b.zeroExtend 64 = (byteTaken s b).win :=
    BitVec.eq_of_toNat_eq ((shiftIn_toNat ..).trans (byteTaken_win_toNat s b).symm)
  have hcount : s.regs.dca.count + 1 = (byteTaken s b).count :=
    BitVec.eq_of_toNat_eq ((BitVec.toNat_add ..).trans (byteTaken_count_toNat s b).symm)
  rw [takeByte, hwin, hcount]
  rfl

/-! ### The scan of one byte -/

section OneByte

variable {s : State} {b : Byte} {d : Dca} {f : Family} (h : OneByteScan s b)
include h

theorem exec_oneByte : exec (.dcaScan false) s = .next (scanEnd s ((dcaByte s.platform.params s.regs.dca b).1,
    if (dcaByte s.platform.params s.regs.dca b).2 then some 0 else none)) := by
  obtain ⟨⟨hspace, hadm⟩, hlen, hread, haccepts⟩ := h
  refine exec_dcaScan_ok hspace haccepts ?_
  rw [hlen, scanLoop_succ_ok]
  refine ⟨b, fetchByte_ok.mpr ⟨hadm 0 (by omega), hread⟩, ?_⟩
  split
  · rfl
  · rfl

theorem exec_oneByte_scanned (hd : dcaByte s.platform.params s.regs.dca b = (d, false)) :
    exec (.dcaScan false) s = .next (scannedState s d) := by
  rw [exec_oneByte h, hd]
  rfl

theorem exec_oneByte_boundary (hlock : familyOf s.regs.dca.lock = some f)
    (hd : dcaByte s.platform.params s.regs.dca b = (boundary (byteTaken s b), true)) :
    exec (.dcaScan false) s = .next (boundaryState s (rowOfFamily s f)) := by
  have hoffset : boundaryOffset (boundary (byteTaken s b)) 0 = BitVec.ofInt 32 (1 - ((rowOfFamily s f).mlen : Int)) := by
    have hlen : lockedMarkerLen (boundary (byteTaken s b)) = markerLen f := by
      rw [lockedMarkerLen, show familyOf (boundary (byteTaken s b)).lock = some f from hlock]
    rw [boundaryOffset, hlen, rowOfFamily_mlen]
    congr 1
    omega
  rw [exec_oneByte h, hd, if_pos rfl, scanEnd, hoffset]
  rfl

end OneByte

/-! ### The per-byte step by phase -/

section Phases

variable {p : Params} {d : Dca} {f : Family} {b : Byte}

theorem dcaByte_noStart (h : d.phase = 0) : dcaByte p d b = (phaseNoStart p (takeByte d b), false) := by
  simp [dcaByte, takeByte, h]

theorem dcaByte_awaitSize (h : d.phase = 1) : dcaByte p d b = (phaseAwaitSize p (takeByte d b), false) := by
  simp [dcaByte, takeByte, h]

theorem dcaByte_adjacent (h : d.phase = 2) (hends : endsFrame p (takeByte d b) = false) :
    dcaByte p d b = (phaseAdjacent p (takeByte d b), false) := by
  have hphase : (takeByte d b).phase = 2 := h
  simp [dcaByte, hphase, hends]

theorem dcaByte_exssSize (h : d.phase = 3) : dcaByte p d b = (phaseExssSize p (takeByte d b), false) := by
  simp [dcaByte, takeByte, h]

theorem dcaByte_nextMarker (h : d.phase = 4) (hends : endsFrame p (takeByte d b) = false) :
    dcaByte p d b = (takeByte d b, false) := by
  have hphase : (takeByte d b).phase = 4 := h
  simp [dcaByte, hphase, hends]

theorem dcaByte_boundary (h : d.phase = 2 ∨ d.phase = 4) (hends : endsFrame p (takeByte d b) = true) :
    dcaByte p d b = (boundary (takeByte d b), true) := by
  have hphase : (takeByte d b).phase = 2 ∨ (takeByte d b).phase = 4 := h
  obtain hphase | hphase := hphase
  · simp [dcaByte, hphase, hends]
  · simp [dcaByte, hphase, hends]

theorem selectFamily_none {w : Window}
    (hnone : ∀ f, d.lock = 0 ∨ familyOf d.lock = some f → matchesSync p f w = false) : selectFamily p d.lock w = none := by
  unfold selectFamily
  split
  · rename_i hlock
    exact List.find?_eq_none.mpr fun f _ => by simp [hnone f (.inl hlock)]
  · exact Option.filter_eq_none_iff.mpr fun f hf => by simp [hnone f (.inr hf)]

theorem phaseNoStart_first (hselect : selectFamily p d.lock d.win = some f) (hlock : d.lock = 0) : phaseNoStart p d =
    { d with start := d.count - BitVec.ofNat 32 (markerLen f), lock := familyNumber f, phase := 1, count := 0 } := by
  rw [phaseNoStart, hselect]
  exact if_pos hlock

theorem phaseNoStart_locked (hlock : familyOf d.lock = some f) (hmatch : matchesSync p f d.win = true) : phaseNoStart p d =
    { d with phase := 1, count := 0 } := by
  have hlocked : d.lock ≠ 0 := familyNumber_of_familyOf hlock ▸ familyNumber_ne_zero f
  rw [phaseNoStart, selectFamily, if_neg hlocked, hlock, Option.filter_some, if_pos hmatch]
  exact if_neg hlocked

theorem phaseAwaitSize_eq (hlock : familyOf d.lock = some f) : phaseAwaitSize p d =
    if d.count.toNat = sizeAt p f then
      { d with fsize := BitVec.ofNat 32 (frameSize p f d.win), phase := if exssAfter p f then 2 else 4 }
    else d := by
  rw [phaseAwaitSize, hlock]

theorem endsFrame_iff : endsFrame p d = true ↔
    d.fsize.toNat ≤ d.count.toNat ∧ ∃ f, familyOf d.lock = some f ∧ matchesSync p f d.win = true := by
  rw [endsFrame, Bool.and_eq_true, decide_eq_true_eq]
  refine and_congr_right fun _ => ?_
  cases familyOf d.lock <;> simp

end Phases

/-! ### Markers -/

section Markers

variable {s : State} {b : Byte} {row : SyncRow}

theorem syncMatch_winAfter {f : Family} :
    SyncMatch (rowOfFamily s f) (winAfter s b) ↔ matchesSync s.platform.params f (byteTaken s b).win = true := by
  rw [← byteTaken_win_toNat, syncMatch_rowOfFamily]

theorem lock_eq_of_familyOf {f : Family} (hlock : familyOf s.regs.dca.lock = some f) :
    s.regs.dca.lock.toNat = (rowOfFamily s f).family := by
  rw [familyNumber_of_familyOf hlock, rowOfFamily_family]

/-- With no family locked, the first row that matches is the row of the family selected (46_dca_scanner.md R281). -/
theorem selectFamily_first {before others : List SyncRow} (hrows : syncRows s = before ++ row :: others)
    (hlock : s.regs.dca.lock = 0) (hbefore : ∀ x ∈ before, ¬ SyncMatch x (winAfter s b)) (hmatch : SyncMatch row (winAfter s b)) :
    ∃ f, rowOfFamily s f = row ∧
      selectFamily s.platform.params (byteTaken s b).lock (byteTaken s b).win = some f := by
  obtain ⟨fs, gs, hfamilies, rfl, hgs⟩ := List.map_eq_append_iff.mp ((syncRows_eq s).symm.trans hrows)
  obtain ⟨f, hs, rfl, rfl, -⟩ := List.map_eq_cons_iff.mp hgs
  refine ⟨f, rfl, (if_pos hlock).trans ?_⟩
  refine List.find?_eq_some_iff_append.mpr ⟨syncMatch_winAfter.mp hmatch, fs, hs, hfamilies, fun g hg => ?_⟩
  simpa using mt syncMatch_winAfter.mpr (hbefore _ (List.mem_map_of_mem hg))

theorem lockedMarker_iff : LockedMarker s b row ↔ ∃ f, rowOfFamily s f = row ∧ familyOf s.regs.dca.lock = some f ∧
    matchesSync s.platform.params f (byteTaken s b).win = true := by
  constructor
  · rintro ⟨hmem, hlock, hmatch⟩
    obtain ⟨f, rfl⟩ := mem_syncRows.mp hmem
    exact ⟨f, rfl, familyOf_eq_of_row hlock, syncMatch_winAfter.mp hmatch⟩
  · rintro ⟨f, rfl, hlock, hmatch⟩
    refine ⟨mem_syncRows.mpr ⟨f, rfl⟩, ?_, syncMatch_winAfter.mpr hmatch⟩
    exact lock_eq_of_familyOf hlock

/-- The frame ends at the byte when the locked family's marker does and COUNT has reached FSIZE. -/
theorem endsFrame_byteTaken : endsFrame s.platform.params (takeByte s.regs.dca b) = true ↔
    ∃ row, LockedMarker s b row ∧ s.regs.dca.fsize.toNat ≤ countAfter s := by
  rw [takeByte_eq_byteTaken, endsFrame_iff, byteTaken_count_toNat]
  constructor
  · rintro ⟨hle, f, hlock, hmatch⟩
    exact ⟨_, lockedMarker_iff.mpr ⟨f, rfl, hlock, hmatch⟩, hle⟩
  · rintro ⟨row, hrow, hle⟩
    obtain ⟨f, -, hlock, hmatch⟩ := lockedMarker_iff.mp hrow
    exact ⟨hle, f, hlock, hmatch⟩

theorem endsFrame_of_no_marker (h : ∀ row, LockedMarker s b row → countAfter s < s.regs.dca.fsize.toNat) :
    endsFrame s.platform.params (takeByte s.regs.dca b) = false :=
  Bool.eq_false_iff.mpr fun hends =>
    have ⟨row, hrow, hle⟩ := endsFrame_byteTaken.mp hends
    absurd (h row hrow) (by omega)

/-- In phases 2 and 4 the marker of the locked family at or past the frame size is the boundary (46_dca_scanner.md R287, R289). -/
theorem exec_boundary_of_marker (h : OneByteScan s b) (hphase : s.regs.dca.phase = 2 ∨ s.regs.dca.phase = 4)
    (hrow : LockedMarker s b row) (hle : s.regs.dca.fsize.toNat ≤ countAfter s) :
    exec (.dcaScan false) s = .next (boundaryState s row) := by
  have hends := endsFrame_byteTaken.mpr ⟨row, hrow, hle⟩
  obtain ⟨f, rfl, hlock, -⟩ := lockedMarker_iff.mp hrow
  exact exec_oneByte_boundary h hlock (takeByte_eq_byteTaken s b ▸ dcaByte_boundary hphase hends)

end Markers

/-! ### The statements -/

/-- Settles O53: in an order of the rows the first that matches is the family found; with one locked only its own row counts. -/
theorem scanPhaseNoStart : Obligations.ScanPhaseNoStart := fun s b h hphase => by
  have hstep := dcaByte_noStart (p := s.platform.params) (b := b) hphase
  rw [takeByte_eq_byteTaken] at hstep
  refine ⟨fun before row others hrows hlock hbefore hmatch => ?_, fun row hrow => ?_, fun hnone => ?_⟩
  · obtain ⟨f, rfl, hselect⟩ := selectFamily_first hrows hlock hbefore hmatch
    have hstart : (byteTaken s b).count - BitVec.ofNat 32 (markerLen f) =
        BitVec.ofInt 32 ((countAfter s : Int) - (rowOfFamily s f).mlen) := by
      rw [rowOfFamily_mlen, Int.sub_eq_add_neg, BitVec.ofInt_add, BitVec.ofInt_neg, BitVec.ofInt_natCast, BitVec.ofInt_natCast,
        ← BitVec.sub_eq_add_neg]
      rfl
    have hnumber : BitVec.ofNat 3 (rowOfFamily s f).family = familyNumber f := by
      rw [rowOfFamily_family, BitVec.ofNat_toNat, BitVec.setWidth_eq]
    rw [hnumber, ← hstart]
    refine exec_oneByte_scanned h (hstep.trans ?_)
    rw [phaseNoStart_first hselect hlock]
  · obtain ⟨f, -, hlock, hmatch⟩ := lockedMarker_iff.mp hrow
    refine exec_oneByte_scanned h (hstep.trans ?_)
    rw [phaseNoStart_locked (d := byteTaken s b) hlock hmatch]
  · refine exec_oneByte_scanned h (hstep.trans ?_)
    rw [phaseNoStart, selectFamily_none fun f hf => ?_]
    exact Bool.eq_false_iff.mpr fun hmatch =>
      hnone _ (mem_syncRows.mpr ⟨f, rfl⟩) (hf.imp_right lock_eq_of_familyOf) (syncMatch_winAfter.mpr hmatch)

/-- Settles O54: with the row's family locked, the phase compares COUNT with the row's size position. -/
theorem scanPhaseAwaitSize : Obligations.ScanPhaseAwaitSize := fun s b h hphase row hmem hlock => by
  obtain ⟨f, rfl⟩ := mem_syncRows.mp hmem
  have hfamily : familyOf (byteTaken s b).lock = some f := familyOf_eq_of_row hlock
  have hstep := dcaByte_awaitSize (p := s.platform.params) (b := b) hphase
  rw [takeByte_eq_byteTaken, phaseAwaitSize_eq hfamily, byteTaken_count_toNat, ← rowOfFamily_sizeAt, ← rowOfFamily_size,
    ← rowOfFamily_exssAfter, byteTaken_win_toNat] at hstep
  exact ⟨fun hsize => exec_oneByte_scanned h (hstep.trans (by rw [if_pos hsize])),
    fun hsize => exec_oneByte_scanned h (hstep.trans (by rw [if_neg hsize]))⟩

/-- Settles O55: the boundary is tested first, then the EXSS marker. -/
theorem scanPhaseAdjacent : Obligations.ScanPhaseAdjacent := fun s b h hphase => by
  refine ⟨fun row => exec_boundary_of_marker h (.inl hphase), fun hno => ?_⟩
  have hexss := syncMatch_winAfter (s := s) (b := b) (f := .exss)
  have hstep := dcaByte_adjacent hphase (endsFrame_of_no_marker hno)
  rw [takeByte_eq_byteTaken, phaseAdjacent, byteTaken_count_toNat] at hstep
  refine ⟨fun hmatch hle => exec_oneByte_scanned h (hstep.trans ?_), fun hplain => exec_oneByte_scanned h (hstep.trans ?_)⟩
  · exact congrArg (·, false) (if_pos ⟨hexss.mp hmatch, hle⟩)
  · exact congrArg (·, false) (if_neg fun ⟨hmatch, hle⟩ => hplain.elim (· (hexss.mpr hmatch)) (Nat.not_lt.mpr hle))

/-- Settles O56: the phase compares COUNT with FSIZE + 4, and the size is that of the EXSS row. -/
theorem scanPhaseExssSize : Obligations.ScanPhaseExssSize := fun s b h hphase => by
  have hsize : (exssRowOf s).size (byteTaken s b).win.toNat = frameSize s.platform.params .exss (byteTaken s b).win :=
    rowOfFamily_size s .exss _
  have hstep := dcaByte_exssSize (p := s.platform.params) (b := b) hphase
  rw [takeByte_eq_byteTaken, phaseExssSize, byteTaken_count_toNat, ← hsize, byteTaken_win_toNat] at hstep
  exact ⟨fun hcount => exec_oneByte_scanned h (hstep.trans (congrArg (·, false) (if_pos hcount))),
    fun hcount => exec_oneByte_scanned h (hstep.trans (congrArg (·, false) (if_neg hcount)))⟩

/-- Settles O57: a byte that is no boundary is only taken. -/
theorem scanPhaseNextMarker : Obligations.ScanPhaseNextMarker := fun s b h hphase => by
  refine ⟨fun row => exec_boundary_of_marker h (.inr hphase), fun hno => ?_⟩
  exact exec_oneByte_scanned h (takeByte_eq_byteTaken s b ▸ dcaByte_nextMarker hphase (endsFrame_of_no_marker hno))

end Sys2Proof.Proofs
end

section
/-! PROOF. Which commands end with which completion code (60_exceptions.md R320 to R328). -/

namespace Sys2Proof.Proofs

open Sys2Proof.Machine Sys2Proof.Claims

/-! ### The commands' rules -/

/-- The codes the checks and the rule of a command may raise (R322, R323, R327). -/
inductive Raises (i : Instr) : Code → Prop
  | outOfRange (h : ∀ f, i ≠ .dcaScan f ∧ i ≠ .dcaReset) : Raises i .outOfRange
  | malformedSps (h : i = .spsRewrite) : Raises i .malformedSps
  | illegalCommand (h : i ≠ .dcaReset) : Raises i .illegalCommand

/-- How the rule of a command may finish (R321, R326, R328). -/
inductive Finishes (i : Instr) (s : State) : Done → Prop
  | ok (r : Regs) (m : Memory) : Finishes i s ⟨r, m, .ok⟩
  | notYetComplete (r : Regs) (h : i = .dcaScan false) : Finishes i s ⟨r, s.mem, .notYetComplete⟩
  | noneFound (h : i = .nalLocateAb ∨ i = .nalLocateLp) : Finishes i s (notLocated s)

/-- The rule raises and finishes with the codes of its command. -/
abbrev EndsByCode (i : Instr) (s : State) (r : Cmd Done) : Prop := Ends (Raises i) (Finishes i s) r

section Rules

variable {i : Instr} {s : State}

section Bounds

variable (hrange : Raises i .outOfRange)
include hrange

theorem readerFixed_code (n : Nat) : EndsByCode i s (readerFixed n s) :=
  (ends_readFixed hrange ..).bind fun _ _ => .ok ..

theorem readerGolomb_code (value : Nat → Word) : EndsByCode i s (readerGolomb value s) :=
  (ends_readUe hrange ..).bind fun _ _ => .ok ..

theorem writerEmit_code (hi : i ≠ .dcaReset) (operandOk : Bool) (bits : List Bool) : EndsByCode i s (writerEmit operandOk bits s) :=
  (ends_require (.illegalCommand hi)).bind fun _ _ => (ends_emit hrange ..).bind fun _ _ => .ok ..

theorem writerFlush_code : EndsByCode i s (writerFlush s) := (ends_flush hrange ..).bind fun _ _ => .ok ..

end Bounds

theorem codecDone_code {x : Cmd (Nat × Memory)} (hx : Ends (Raises i) (fun _ => True) x) : EndsByCode i s (codecDone s <$> x) := by
  rw [map_eq_pure_bind]
  exact hx.bind fun _ _ => .ok ..

theorem locateAb_code : EndsByCode .nalLocateAb s (locateAb s) := by
  refine (ends_require (.outOfRange fun _ => ⟨nofun, nofun⟩)).bind fun _ _ => (ends_findStartCode ..).bind fun found _ => ?_
  cases found with
  | none => exact .noneFound (.inl rfl)
  | some j => exact (ends_sourceByte ..).bind fun _ _ => .ok ..

theorem locateLp_code (n c : Nat) : EndsByCode .nalLocateLp s (locateLp s n c) := by
  have hrange : Raises .nalLocateLp .outOfRange := .outOfRange fun _ => ⟨nofun, nofun⟩
  refine (ends_require hrange).bind fun _ _ => ?_
  split
  · exact .noneFound (.inr rfl)
  · exact (ends_require hrange).bind fun _ _ => (ends_sizeField ..).bind fun _ _ => (ends_require hrange).bind fun _ _ =>
      (ends_sourceByte ..).bind fun _ _ => .ok ..

/-- The walk raises MALFORMED_SPS and OUT_OF_RANGE only. -/
theorem spsBody_code : EndsByCode .spsRewrite s (spsBody s) := by
  have hrange : Raises .spsRewrite .outOfRange := .outOfRange fun _ => ⟨nofun, nofun⟩
  have hwalk : WalkRule (spsInput s) (Raises .spsRewrite) fun _ => True :=
    ⟨.malformedSps rfl, hrange, fun _ _ _ _ _ => trivial⟩
  exact (hwalk.sps.bind (fun _ => hwalk.tail) (spsCursors s) trivial).bind fun _ _ => (ends_flush hrange ..).bind fun _ _ => .ok ..

theorem dcaScanRule_code (f : Bool) : EndsByCode (.dcaScan f) s (dcaScanRule f s) := by
  cases f with
  | true => exact .ok ..
  | false =>
    refine (ends_require (.illegalCommand nofun)).bind fun _ _ => (ends_scanLoop ..).bind fun r _ => ?_
    obtain ⟨d, _ | j⟩ := r
    · exact .notYetComplete _ rfl
    · exact .ok ..

end Rules

theorem commandRule_code (s : State) (i : Instr) : EndsByCode i s (commandRule s i) := by
  cases i with
  | rdBits | rdBit => exact readerFixed_code (.outOfRange (by simp)) _
  | rdUe => exact readerGolomb_code (.outOfRange (by simp)) _
  | rdSe => exact readerGolomb_code (.outOfRange (by simp)) fun c => BitVec.ofInt 32 (seValue c)
  | wrBits | wrBit | wrUe | wrSe => exact writerEmit_code (.outOfRange (by simp)) (by simp) _ _
  | wrAlignFlush => exact writerFlush_code (.outOfRange (by simp))
  | nalUnescape =>
    exact codecDone_code (ends_unescapeLoop (I := fun _ => True) (.outOfRange (by simp)) (fun _ _ _ _ _ => trivial) trivial ..)
  | nalEscape =>
    exact codecDone_code (ends_escapeLoop (I := fun _ => True) (.outOfRange (by simp)) (fun _ _ _ _ _ => trivial) trivial ..)
  | nalLocateAb => exact locateAb_code
  | nalLocateLp => exact locateLp_code _ _
  | spsRewrite => exact spsBody_code
  | dcaScan f => exact dcaScanRule_code f
  | dcaReset => exact .ok ..

/-! ### The code a command ends with -/

theorem fpsUnsupported_iff {s : State} : fpsUnsupported s.regs = true ↔ ¬ FpsFits s := by
  simp [fpsUnsupported, FpsFits]

/-- Everything the end of a command may be, by its code: raised by the checks or the rule, finished by the rule, or the frame rate of
SPS_REWRITE (R325). -/
theorem exec_code {i : Instr} {s t : State} (h : exec i s = .next t) (hidle : t.engine = .idle) :
    Raises i t.regs.status.code ∨ (∃ d, Finishes i s d ∧ t = commit s d.regs d.mem d.code) ∨
      (i = .spsRewrite ∧ ¬ FpsFits s ∧ t.regs.status.code = .unsupportedConfiguration) := by
  have hrule := commandRule_code s i
  rw [exec_eq_guarded] at h
  obtain ⟨-, -, h⟩ | ⟨hchecks, rfl⟩ := guarded_next h
  · unfold commandEnd at h
    split at h
    · obtain ⟨d, hr, rfl⟩ | ⟨c, hr, rfl⟩ | ⟨-, rfl⟩ := conclude_next h
      · rw [hr] at hrule
        exact .inr (.inl ⟨d, hrule, rfl⟩)
      · rw [hr] at hrule
        exact .inl hrule
      · cases hidle
    · split at h
      · rename_i hfps
        cases h
        exact .inr (.inr ⟨hfps.1, fpsUnsupported_iff.mp hfps.2, rfl⟩)
      · obtain ⟨d, hr, rfl⟩ | ⟨c, hr, rfl⟩ | ⟨-, rfl⟩ := concludeDst_next h
        · rw [hr] at hrule
          exact .inr (.inl ⟨d, hrule, rfl⟩)
        · rw [hr] at hrule
          exact .inl hrule
        · cases hidle
  · refine .inl (.illegalCommand ?_)
    rintro rfl
    obtain hchecks | hchecks := hchecks <;> cases hchecks

/-! ### The statements -/

/-- Settles O20: each code that a command's checks, rule or frame rate may give is one of its own. -/
theorem eachCodeHasItsCommands : Obligations.EachCodeHasItsCommands := fun i s t h hidle => by
  obtain hraised | ⟨d, hd, rfl⟩ | ⟨hi, -, hcode⟩ := exec_code h hidle
  · generalize t.regs.status.code = c at hraised ⊢
    cases hraised with
    | outOfRange hi | malformedSps hi | illegalCommand hi => exact hi
  · cases hd with
    | ok => trivial
    | notYetComplete _ hi => exact hi
    | noneFound hi => exact ⟨hi, rfl⟩
  · rw [hcode]
    exact hi

/-- Settles O51: the frame rate is checked before any access, and no rule raises its code. -/
theorem largeFrameRateIsUnsupported : Obligations.LargeFrameRateIsUnsupported := by
  refine ⟨fun s hbuffers hfps => ?_, fun i s t h hidle hcode => ?_⟩
  · rw [exec_spsRewrite, execSpsRewrite, guarded_pass rfl (rangesOk_spsRewrite hbuffers), if_pos (fpsUnsupported_iff.mpr hfps)]
    rfl
  · obtain hraised | ⟨d, hd, rfl⟩ | ⟨hi, hfps, -⟩ := exec_code h hidle
    · rw [hcode] at hraised
      cases hraised
    · cases hd <;> cases hcode
    · exact ⟨hi, hfps⟩

end Sys2Proof.Proofs
end

section
/-! PROOF. The two resets, and the stuck engine that waits for one (70_reset_and_hazards.md R350, R351, 60_exceptions.md R334). -/

namespace Sys2Proof.Proofs

open Sys2Proof.Machine Sys2Proof.Claims

theorem step_host {s : State} {a : HostAction} {rest : List Move} (hp : s.program = .host a :: rest) :
    step s = hostMove a { s with program := rest } := by
  rw [step, hp]

theorem wordInProgress_eq_some {e : Engine} {w : Word} : wordInProgress e = some w ↔ e = .pending w ∨ e = .stuck w := by
  cases e <;> simp [wordInProgress]

/-! ### Hardware reset -/

/-- Settles O15: the claims' column is what the reset registers read as, and the move is the reset. -/
theorem hardwareResetGivesResetValues : Obligations.HardwareResetGivesResetValues :=
  ⟨by decide, fun _ _ hp => step_host hp⟩

/-- Settles O27: the machine at reset is a hardware reset with no memory listed. -/
theorem invariantHoldsAtReset : Obligations.InvariantHoldsAtReset := hardReset_inv (s := State.reset) rfl

/-! ### Soft reset -/

/-- The claims' written bytes are those of the model's write range (20_memory.md R71). -/
theorem mayWrite_iff {r : Regs} {a : Nat} {i : Instr} : MayWrite r a i ↔ ∃ q ∈ writeRange r i, q.holds a = true := by
  cases i <;> simp [MayWrite, writeRange, writerRange, destRange, Range.holds]

section SoftReset

variable {s : State} {v w : Word} {i : Instr}

theorem abandonedRange_idle (h : s.engine = .idle) : abandonedRange s = none := by
  simp [abandonedRange, h, wordInProgress]

theorem abandonedRange_illegal (hw : s.engine = .pending w ∨ s.engine = .stuck w) (h : ∀ i, decode w ≠ .ok i) :
    abandonedRange s = none := by
  rw [abandonedRange, wordInProgress_eq_some.mpr hw]
  cases hd : decode w with
  | ok i => exact absurd hd (h i)
  | error e => simp [hd]

theorem abandonedRange_command (hw : s.engine = .pending w ∨ s.engine = .stuck w) (h : decode w = .ok i) :
    abandonedRange s = writeRange s.regs i := by
  simp [abandonedRange, wordInProgress_eq_some.mpr hw, h]

/-- A soft reset is a hardware reset but for memory. -/
theorem softReset_eq (s : State) :
    softReset s = { s with regs := Regs.reset, engine := .idle, mem := (softReset s).mem, freeCount := (softReset s).freeCount } := by
  unfold softReset
  split <;> rfl

theorem softReset_mem_of_none (h : abandonedRange s = none) : (softReset s).mem = s.mem := by
  rw [softReset, h]
  rfl

/-- A soft reset changes no byte outside the range of the command in progress. -/
theorem read_softReset {a : Nat} (h : ¬ ∃ q ∈ abandonedRange s, q.holds a = true) : (softReset s).mem.read a = s.mem.read a := by
  unfold softReset
  split
  · rfl
  · rename_i q hq
    refine Memory.read_scramble_outside _ _ _ _ (by_contra fun hinside => h ⟨q, hq, ?_⟩)
    simp only [Range.holds, Bool.and_eq_true, decide_eq_true_eq]
    omega

theorem writeCtrl_zero (hv : v.getLsbD 0 = false) : writeCtrl s v = s := by
  rw [writeCtrl, hv]
  rfl

/-- A write of CTRL is taken whatever BUSY is (10_state.md R29). -/
theorem writeOffset_ctrl (s : State) (v : Word) : writeOffset s 0x00C v = writeCtrl s v := if_pos rfl

theorem step_ctrl {rest : List Move} (hp : s.program = .host (.regWrite (regAddr s 0x00C) 4 v) :: rest) :
    step s = .next (writeCtrl { s with program := rest } v) := by
  rw [step_regWrite (by decide) rfl hp, writeOffset_ctrl]

theorem step_softReset {rest : List Move} (hp : s.program = .host (.regWrite (regAddr s 0x00C) 4 v) :: rest)
    (hv : v.getLsbD 0 = true) : step s = .next (softReset { s with program := rest }) := by
  rw [step_ctrl hp, writeCtrl, if_pos hv]

end SoftReset

/-- Settles O16: the bytes a soft reset may change are those of the write range of the command in progress, if there is one. -/
theorem softResetAppliesWhateverBusyIs : Obligations.SoftResetAppliesWhateverBusyIs := fun s v rest hp => by
  refine ⟨fun hv => ⟨_, step_softReset hp hv, softReset_eq _, fun hidle => ?_, fun w hw => ⟨fun hillegal => ?_, fun i hi a ha => ?_⟩⟩,
    fun hv => ?_⟩
  · exact softReset_mem_of_none (abandonedRange_idle hidle)
  · exact softReset_mem_of_none (abandonedRange_illegal hw hillegal)
  · refine read_softReset ?_
    rw [abandonedRange_command (s := { s with program := rest }) hw hi]
    exact mt mayWrite_iff.mpr ha
  · rw [step_ctrl hp, writeCtrl_zero hv]

/-! ### The stuck engine -/

theorem engineTurn_of_stuck {s : State} {w : Word} (h : s.engine = .stuck w) : engineTurn s = .next s := by
  rw [engineTurn, h]
  rfl

section Busy

variable {s t : State} (hbusy : s.regs.status.busy = true)
include hbusy

/-- While BUSY = 1 a register write leaves engine and registers, but for a soft reset (40_command_protocol.md R133). -/
theorem hostWrite_busy (addr : Word) (width : Nat) (v : Word) :
    ((hostWrite s addr width v).engine = s.engine ∧ (hostWrite s addr width v).regs = s.regs) ∨
      (addr = regAddr s 0x00C ∧ width = 4 ∧ v.getLsbD 0 = true) := by
  unfold hostWrite
  split
  · rename_i offset htarget
    by_cases hctrl : offset = 0x00C
    · subst hctrl
      obtain ⟨haddr, hwidth⟩ := (target_register_iff (by decide) rfl).mp htarget
      cases hv : v.getLsbD 0 with
      | true => exact .inr ⟨haddr, hwidth, rfl⟩
      | false =>
        rw [writeOffset_ctrl, writeCtrl_zero hv]
        exact .inl ⟨rfl, rfl⟩
    · rw [writeOffset_refused hctrl hbusy]
      exact .inl ⟨rfl, rfl⟩
  · exact .inl ⟨rfl, rfl⟩
  · exact .inl ⟨rfl, rfl⟩

/-- While BUSY = 1 a host's move leaves engine and registers, but for the two resets. -/
theorem hostMove_busy {a : HostAction} (h : hostMove a s = .next t) :
    (t.engine = s.engine ∧ t.regs = s.regs) ∨ a = .hardwareReset ∨
      ∃ v, a = .regWrite (regAddr s 0x00C) 4 v ∧ v.getLsbD 0 = true := by
  cases a with
  | regWrite addr width v =>
    cases h
    obtain hkept | ⟨rfl, rfl, hv⟩ := hostWrite_busy hbusy addr width v
    · exact .inl hkept
    · exact .inr (.inr ⟨v, rfl, hv⟩)
  | regRead addr width =>
    cases h
    unfold hostRead
    split <;> exact .inl ⟨rfl, rfl⟩
  | poke addr bytes =>
    obtain ⟨-, -, rfl⟩ := hostMemory_next h
    exact .inl ⟨rfl, rfl⟩
  | peek addr n =>
    obtain ⟨-, -, rfl⟩ := hostMemory_next h
    exact .inl ⟨rfl, rfl⟩
  | hardwareReset => exact .inr (.inl rfl)

end Busy

/-- Settles O26: the stuck engine's turn does nothing, and while BUSY = 1 no move of the host but a reset reaches engine or registers. -/
theorem stuckEngineWaitsForReset : Obligations.StuckEngineWaitsForReset := fun s w hw hbusy => by
  refine ⟨fun t h => ?_, fun hp => ?_, fun rest v hp hv => ?_, fun rest hp => ⟨_, step_host hp, rfl, rfl⟩⟩
  · obtain ⟨-, h⟩ | ⟨rest, ⟨-, h⟩ | ⟨-, hidle, -⟩ | ⟨a, hp, h⟩⟩ := step_next h
    · cases (engineTurn_of_stuck hw).symm.trans h
      exact .inl ⟨hw, rfl⟩
    · cases (engineTurn_of_stuck (s := { s with program := rest }) hw).symm.trans h
      exact .inl ⟨hw, rfl⟩
    · cases hbusy.symm.trans hidle
    · obtain ⟨hengine, hregs⟩ | rfl | ⟨v, rfl, hv⟩ := hostMove_busy (s := { s with program := rest }) hbusy h
      · exact .inl ⟨hengine.trans hw, hregs⟩
      · exact .inr (.inl ⟨rest, hp⟩)
      · exact .inr (.inr ⟨rest, v, hp, hv⟩)
  · rw [step, hp]
    exact engineTurn_of_stuck hw
  · refine ⟨_, step_softReset hp hv, ?_⟩
    rw [softReset_eq]
    exact ⟨rfl, rfl⟩

end Sys2Proof.Proofs
end

section
/-! PROOF. The host's accesses of memory, and the buffers of the command in progress (70_reset_and_hazards.md R362, 30_encoding.md
R108). -/

namespace Sys2Proof.Proofs

open Sys2Proof.Machine Sys2Proof.Claims

/-- The claims' read bytes are those of the model's read range (20_memory.md R71). -/
theorem mayRead_iff {r : Regs} {a : Nat} {i : Instr} : MayRead r a i ↔ ∃ q ∈ readRange r i, q.holds a = true := by
  cases i <;> simp [MayRead, readRange, readerRange, sourceRange, Range.holds]

theorem touches_iff {r : Regs} {a : Nat} {i : Instr} : touches r i a = true ↔ MayRead r a i ∨ MayWrite r a i := by
  rw [touches, mayRead_iff, mayWrite_iff]
  cases readRange r i <;> cases writeRange r i <;> simp

section Access

variable {s t : State} {a n : Nat}

/-- An access races the command in progress when it includes a byte the command may read or write. -/
theorem racesCommand_iff : racesCommand s a n = true ↔ s.regs.status.busy = true ∧
    ∃ w i, (s.engine = .pending w ∨ s.engine = .stuck w) ∧ decode w = .ok i ∧
      ∃ k < n, MayRead s.regs (a + k) i ∨ MayWrite s.regs (a + k) i := by
  simp only [← wordInProgress_eq_some, ← touches_iff]
  rw [racesCommand, Bool.and_eq_true]
  refine and_congr_right fun _ => ?_
  cases wordInProgress s.engine with
  | none => simp
  | some w => cases hd : decode w <;> simp [hd]

/-- A host access of a byte of the command in progress is no move (R362). -/
theorem hostMemory_race {w : Word} {i : Instr} {k : Nat} (hw : s.engine = .pending w ∨ s.engine = .stuck w) (hi : decode w = .ok i)
    (hbusy : s.regs.status.busy = true) (hk : MayRead s.regs (a + k) i ∨ MayWrite s.regs (a + k) i) (hkn : k < n)
    (hspace : a + n ≤ 2 ^ 32) : hostMemory s a n t = .fault .bufferRace := by
  have hspace' : ¬ addressSpace < a + n := not_lt.mpr hspace
  rw [hostMemory, if_neg hspace', if_pos (racesCommand_iff.mpr ⟨hbusy, w, i, hw, hi, k, hkn, hk⟩)]

theorem hostMemory_of_mayAccess (h : HostMayAccess s a n) : hostMemory s a n t = .next t := by
  obtain ⟨hspace, hfree⟩ := h
  have hspace' : ¬ addressSpace < a + n := not_lt.mpr hspace
  have hrace : ¬ racesCommand s a n = true := fun hrace => by
    obtain ⟨hbusy, w, i, hw, hi, k, hk, htouched⟩ := racesCommand_iff.mp hrace
    obtain hidle | hfree := hfree
    · cases hbusy.symm.trans hidle
    · exact htouched.elim (hfree w i hw hi k hk).1 (hfree w i hw hi k hk).2
  rw [hostMemory, if_neg hspace', if_neg hrace]

end Access

/-- Settles O14: an access races the command exactly when it includes a byte of its ranges; otherwise the move is its effect on memory or
on what the host has seen. -/
theorem bufferAccessWhileBusyIsNoMove : Obligations.BufferAccessWhileBusyIsNoMove := by
  refine ⟨fun s w i addr bytes n k rest hw hi hbusy htouched => ⟨fun hk hspace hp => ?_, fun hk hspace hp => ?_⟩,
    fun s addr bytes rest hwf hmay hp => ?_, fun s addr n rest hmay hp => ?_⟩
  · exact (step_host hp).trans (hostMemory_race (s := { s with program := rest }) hw hi hbusy htouched hk hspace)
  · exact (step_host hp).trans (hostMemory_race (s := { s with program := rest }) hw hi hbusy htouched hk hspace)
  · refine ⟨_, (step_host hp).trans (hostMemory_of_mayAccess (s := { s with program := rest }) hmay), rfl, fun j hj => ?_, fun a ha => ?_⟩
    · exact Memory.read_writeList_inside hwf _ _ j hj hmay.1
    · exact Memory.read_writeList_outside _ _ _ ha
  · refine (step_host hp).trans ((hostMemory_of_mayAccess (s := { s with program := rest }) hmay).trans ?_)
    simp only [readList_eq_map_range, List.map_map, Function.comp_def, BitVec.ofNat_toNat]

end Sys2Proof.Proofs
end

section
/-! PROOF. What each command does on the reset registers (70_reset_and_hazards.md R353). -/

namespace Sys2Proof.Proofs

open Sys2Proof.Machine Sys2Proof.Claims

/-- Every buffer is empty at reset, so the common checks pass. -/
theorem rangesOk_reset (i : Instr) : rangesOk Regs.reset i = true := by
  cases i <;> rfl

/-- Every profile is allowed at reset (45_sps_rewriter.md R241). -/
theorem readOffset_profileAllow_reset : ∀ k < 8, readOffset Regs.reset (0x080 + 4 * k) = BitVec.allOnes 32 := by decide

/-- A flush at a byte boundary stores nothing (42_bitwriter.md R179). -/
theorem flush_at_boundary {pl : Platform} {w : WCursor} (hroom : w.pos ≤ w.limit) (hpos : w.pos % 8 = 0) :
    flush pl w = .ok { w with acc := 0 } := by
  rw [flush, if_pos hroom, if_pos hpos]

section Reset

variable {s : State} {i : Instr} {c : Code} (hs : s.regs = Regs.reset)
include hs

/-! ### The end of a command -/

/-- At reset no frame rate is set and the destination is empty, so every command ends as those that leave memory alone. -/
theorem commandEnd_of_reset (i : Instr) (r : Cmd Done) : commandEnd i s r = conclude s r := by
  have hfps : ¬(i = .spsRewrite ∧ fpsUnsupported s.regs = true) := fun ⟨_, h⟩ => by
    rw [hs] at h
    cases h
  have hdst : concludeDst s r = conclude s r := by
    unfold concludeDst
    rw [hs]
    rfl
  rw [commandEnd, if_neg hfps, hdst, ite_self]

theorem exec_of_reset (hi : i.wellFormed = true) : exec i s = conclude s (commandRule s i) := by
  rw [exec_eq_guarded, guarded_pass hi (hs ▸ rangesOk_reset i), commandEnd_of_reset hs]

/-- A command whose rule finishes with the registers and the memory it found. -/
theorem exec_of_reset_finish (hi : i.wellFormed = true) (hc : codeIsError c = false)
    (hrule : commandRule s i = .ok ⟨s.regs, s.mem, c⟩) : exec i s = .next (infoState s s.regs c) := by
  rw [exec_of_reset hs hi, hrule, conclude, commit, hc]
  rfl

theorem exec_of_reset_raise (hi : i.wellFormed = true) (hc : codeIsError c = true)
    (hrule : commandRule s i = .error (.raise c)) : exec i s = .next (errorState s c) := by
  rw [exec_of_reset hs hi, hrule, conclude, failWith, commit, hc]
  rfl

/-! ### The reader and the writer -/

/-- No bit is left to read. -/
theorem readerFixed_of_reset {n : Nat} (hn : 0 < n) : readerFixed n s = .error (.raise .outOfRange) := by
  refine cmd_bind_error.mpr (.inl (readFixed_outOfRange ?_))
  rw [hs]
  exact hn.trans_eq (Nat.zero_add n).symm

theorem readerGolomb_of_reset (value : Nat → Word) : readerGolomb value s = .error (.raise .outOfRange) := by
  rw [readerGolomb, hs]
  rfl

/-- ARG0 fits, and there is no room for a bit. -/
theorem writerEmit_of_reset {operandOk : Bool} {bits : List Bool} (hoperand : operandOk = true) (hbits : 0 < bits.length) :
    writerEmit operandOk bits s = .error (.raise .outOfRange) := by
  rw [writerEmit, require_bind hoperand]
  refine cmd_bind_error.mpr (.inl (emit_outOfRange ?_))
  rw [writerCursor, hs]
  exact hbits.trans_eq (Nat.zero_add _).symm

/-- The writer stands at a byte boundary, so there is no partial byte to store. -/
theorem writerFlush_of_reset : writerFlush s = .ok ⟨s.regs, s.mem, .ok⟩ := by
  have hpos : s.regs.bwPos.toNat = 0 := by
    rw [hs]
    rfl
  have hflush : flush s.platform (writerCursor s) = .ok { writerCursor s with acc := 0 } :=
    flush_at_boundary (hpos.trans_le (Nat.zero_le _)) (congrArg (· % 8) hpos)
  refine cmd_bind_ok.mpr ⟨_, hflush, ?_⟩
  simp only [writerCursor, hpos, Nat.zero_div]
  rw [hs]
  rfl

end Reset

/-- Settles O17: with no room and no byte to read every rule ends at its first check or loop, which its evaluation shows where no lemma
is named. -/
theorem resetStateOfEachUnit : Obligations.ResetStateOfEachUnit := fun s hs => by
  obtain ⟨regs, engine, mem, platform, program, observed, mark, free⟩ := s
  obtain rfl : regs = Regs.reset := hs
  refine ⟨?_, fun n hpos hn => ?_, ?_, ?_, ?_, ?_, ?_, fun n hpos hn => ?_, ?_, ?_, ?_, ?_, ?_, ?_, ?_, ?_, ?_, ?_, ?_, fun p hp => ?_⟩
  -- BitReader: no bit to read.
  · exact exec_of_reset_finish rfl rfl rfl rfl
  · exact exec_of_reset_raise (i := .rdBits n) rfl (decide_eq_true hn) rfl (readerFixed_of_reset rfl hpos)
  · exact exec_of_reset_raise rfl rfl rfl (readerFixed_of_reset rfl Nat.one_pos)
  · exact exec_of_reset_raise rfl rfl rfl (readerGolomb_of_reset rfl _)
  · exact exec_of_reset_raise rfl rfl rfl (readerGolomb_of_reset rfl fun c => BitVec.ofInt 32 (seValue c))
  -- BitWriter: no room for a bit.
  · exact exec_of_reset_finish rfl rfl rfl rfl
  · exact exec_of_reset_finish rfl rfl rfl (writerFlush_of_reset rfl)
  · refine exec_of_reset_raise (i := .wrBits n) rfl (decide_eq_true hn) rfl (writerEmit_of_reset rfl ?_ ?_)
    · exact decide_eq_true (Nat.two_pow_pos n)
    · rwa [bitsMsb_length]
  · exact exec_of_reset_raise rfl rfl rfl (writerEmit_of_reset rfl rfl Nat.one_pos)
  · exact exec_of_reset_raise rfl rfl rfl (writerEmit_of_reset rfl rfl (ueBits_length 0 ▸ Nat.succ_pos _))
  · exact exec_of_reset_raise rfl rfl rfl (writerEmit_of_reset rfl rfl (ueBits_length 0 ▸ Nat.succ_pos _))
  -- NAL codec and locator: no byte to read.
  · exact exec_of_reset_finish rfl rfl rfl rfl
  · exact exec_of_reset_finish rfl rfl rfl rfl
  · exact exec_of_reset_finish rfl rfl rfl rfl
  · exact exec_of_reset_finish rfl rfl rfl rfl
  -- SPS rewriter, and the DCA scanner.
  · exact exec_of_reset_raise rfl rfl rfl rfl
  · exact exec_of_reset_finish rfl rfl rfl rfl
  · exact exec_of_reset_finish rfl rfl rfl rfl
  -- The registers that hold the overrides and the allowed profiles.
  · exact hardwareResetGivesResetValues.1 (0x060, 0) (by decide)
  · change (readOffset Regs.reset (0x080 + 4 * (p / 32))).getLsbD (p % 32) = true
    rw [readOffset_profileAllow_reset (p / 32) (by omega), BitVec.getLsbD_allOnes]
    exact decide_eq_true (Nat.mod_lt p (by decide))

end Sys2Proof.Proofs
end
